-- ==== Sys2Proof/Word.lean ====
section
/-! DEFINITION. Words and bytes (R7: a word is 32 bits, bit 0 is the least significant). -/

namespace Sys2Proof

/-- A register, address, immediate or memory word: 32 bits (R5 `XLEN`, R7). -/
abbrev Word := BitVec 32

/-- One byte of memory, one opcode byte, one register-index field (R46). -/
abbrev Byte := BitVec 8

end Sys2Proof
end

