-- ==== Sys2Proof/Config.lean ====
section
/-! DEFINITION. What an implementation of the Neptune-32 core fixes (R5): every parameter of R5 that is no type of the model,
as a field of `Config`, with the values the spec is written for. A machine's configuration does not change while it runs;
State holds it, so that every statement about every state speaks of every configuration. `XLEN` and `REG_COUNT`, 32 and 32
(R7, R11; D33 fixes the second), are the width of `Word` and the length of the register file. -/

namespace Sys2Proof

/-- `DIV_MODE` (R5, R83, D7): how DIV, DIVI, MOD and MODI read their operands. -/
inductive DivMode where
  /-- Signed, truncating: the value this hardware takes. -/
  | signed
  /-- The other reading that D7 leaves open. -/
  | unsigned
deriving DecidableEq, Repr

/-- `MISALIGNED_POLICY` (R41, D4): what a word access at an address that is no multiple of 4 does. -/
inductive MisalignedPolicy where
  /-- `MisalignedAccess` is raised: the value this hardware takes. -/
  | fault
  /-- The other reading that D4 leaves open: the four bytes are accessed one by one. -/
  | assembleBytes
deriving DecidableEq, Repr

/-- The three devices behind the I/O window (R149). -/
inductive Device where
  | keyboard
  | console
  | timer
deriving DecidableEq, Repr

/-- The bytes of the I/O window a device claims (R149). -/
def Device.size : Device → Nat
  | .keyboard => 16
  | .console => 4
  | .timer => 16

/-- The devices, in the order of R149. -/
def Device.all : List Device := [.keyboard, .console, .timer]

/-- `ALIAS_PC`, `ALIAS_SP`, `ALIAS_HP` (R5, R13): the register indices of the three pointers. -/
structure Aliases where
  pc : Byte
  sp : Byte
  hp : Byte
deriving DecidableEq, Repr

/-- The register indices of the three pointers that this hardware takes (R5, R13). -/
def Aliases.standard : Aliases := ⟨252#8, 253#8, 254#8⟩

/-- The aliases name three registers beside the general ones (R11, R13). -/
abbrev Aliases.wf (al : Aliases) : Prop :=
  32 ≤ al.pc.toNat ∧ 32 ≤ al.sp.toNat ∧ 32 ≤ al.hp.toNat ∧ al.pc ≠ al.sp ∧ al.pc ≠ al.hp ∧ al.sp ≠ al.hp

/-- The parameters of R5, with `DIV_MODE` and `MISALIGNED_POLICY`. Sizes are in bytes. -/
structure Config where
  /-- `ALIAS_PC`, `ALIAS_SP`, `ALIAS_HP`. -/
  aliases : Aliases
  /-- `ROM_BASE`. -/
  romBase : Nat
  /-- `ROM_SIZE`. -/
  romSize : Nat
  /-- `SYSCALL_TABLE_BASE` (R32). -/
  syscallTableBase : Nat
  /-- `SYSCALL_SLOTS` (R32): the slots of the syscall table, of 4 bytes each. -/
  syscallSlots : Nat
  /-- `SYSCALL_CODE_BASE` (R32). -/
  syscallCodeBase : Nat
  /-- `SYSCALL_CODE_SIZE` (R32). -/
  syscallCodeSize : Nat
  /-- `RAM_BASE`. -/
  ramBase : Nat
  /-- `RAM_SIZE` (D1). -/
  ramSize : Nat
  /-- `HEAP_OFFSET` (D1). -/
  heapOffset : Nat
  /-- `VRAM_SIZE`. -/
  vramSize : Nat
  /-- `VRAM_WIDTH`, in pixels (R34). -/
  vramWidth : Nat
  /-- `VRAM_HEIGHT`, in pixels (R34). -/
  vramHeight : Nat
  /-- `IO_SIZE`. -/
  ioSize : Nat
  /-- `KBD_BASE` (R149, D17), an address; none while no keyboard is registered (R148). -/
  kbdBase : Option Nat
  /-- `CON_BASE` (R149, D17), an address; none while no console is registered (R148). -/
  conBase : Option Nat
  /-- `TMR_BASE` (R149, D17), an address; none while no timer is registered (R148). -/
  tmrBase : Option Nat
  /-- `KBD_CAPACITY`, in characters (R151). -/
  kbdCapacity : Nat
  /-- `OPCODE_MAP` (R51, D2): entry k is the opcode byte of the catalog's instruction number k + 1. -/
  opcodeMap : List Byte
  /-- `DIV_MODE` (D7). -/
  divMode : DivMode
  /-- `MISALIGNED_POLICY` (D4). -/
  misaligned : MisalignedPolicy
deriving DecidableEq, Repr

/-! ### The parameters that others give (R5) -/

/-- `PROGRAM_START` (R5): the reset PC. The loader may set another entry point (R172). -/
def Config.programStart (c : Config) : Nat := c.ramBase

/-- `HEAP_START` (R5). -/
def Config.heapStart (c : Config) : Nat := c.ramBase + c.heapOffset

/-- `RAM_END` (R5). -/
def Config.ramEnd (c : Config) : Nat := c.ramBase + c.ramSize

/-- `STACK_START` (R5). -/
def Config.stackStart (c : Config) : Nat := c.ramEnd - 4

/-- `VRAM_BASE` (R5). -/
def Config.vramBase (c : Config) : Nat := c.ramEnd

/-- `IO_BASE` (R5). -/
def Config.ioBase (c : Config) : Nat := c.vramBase + c.vramSize

/-- `IO_END` (R5): every address from here on is unpopulated. -/
def Config.ioEnd (c : Config) : Nat := c.ioBase + c.ioSize

/-- The address of a slot of the syscall table, for the slots it has (R32). -/
def Config.syscallSlot? (c : Config) (n : Nat) : Option Nat :=
  if n < c.syscallSlots then some (c.syscallTableBase + 4 * n) else none

/-! ### Devices in the I/O window (R148, R149) -/

/-- The base address of a device; none for one that is not registered. -/
def Config.deviceBase (c : Config) : Device → Option Nat
  | .keyboard => c.kbdBase
  | .console => c.conBase
  | .timer => c.tmrBase

/-- The configuration with a device at a base address. -/
def Config.setDeviceBase (c : Config) (d : Device) (b : Nat) : Config :=
  match d with
  | .keyboard => { c with kbdBase := some b }
  | .console => { c with conBase := some b }
  | .timer => { c with tmrBase := some b }

/-- `next_offset` (R148): the sizes of the registered devices, accumulated from 0. That each device counts once, however
often it was registered and wherever its base was set, is a DESIGN CHOICE (notes/assumptions/36.md). -/
def Config.nextOffset (c : Config) : Nat :=
  ((Device.all.filter fun d => (c.deviceBase d).isSome).map Device.size).sum

/-- `register(device)` (R148): the device is placed at `base + next_offset`. What the spec leaves open, a device that is
registered already and bases set freely before, is a DESIGN CHOICE (notes/assumptions/36.md): the device's one base moves
and its old range is dropped, and the place may overlap another device's. -/
def Config.register (c : Config) (d : Device) : Config := c.setDeviceBase d (c.ioBase + c.nextOffset)

/-! ### The values this hardware takes -/

/-- The number of instructions in the catalog (R51). -/
abbrev Config.opcodeCount : Nat := 59

/-- The opcode map this hardware takes (R51, D2): the catalog's instructions are numbered 1 to 59 in order. -/
def Config.catalogMap : List Byte := (List.range Config.opcodeCount).map fun k => BitVec.ofNat 8 (k + 1)

/-- The value column of R5, for a RAM size and a heap offset: the devices stand at `IO_BASE` + 0x00, + 0x10 and + 0x14. -/
def Config.layout (ramSize heapOffset : Nat) : Config where
  aliases := Aliases.standard
  romBase := 0
  romSize := 0x2000
  syscallTableBase := 0x10
  syscallSlots := 64
  syscallCodeBase := 0x110
  syscallCodeSize := 0x800
  ramBase := 0x2000
  ramSize := ramSize
  heapOffset := heapOffset
  vramSize := 0x10000
  vramWidth := 128
  vramHeight := 128
  ioSize := 0x1000
  kbdBase := some (0x2000 + ramSize + 0x10000 + 0x00)
  conBase := some (0x2000 + ramSize + 0x10000 + 0x10)
  tmrBase := some (0x2000 + ramSize + 0x10000 + 0x14)
  kbdCapacity := 32
  opcodeMap := Config.catalogMap
  divMode := .signed
  misaligned := .fault

/-- Layout A (R5): the values this hardware takes. -/
def Config.layoutA : Config := Config.layout 0x20000 0x2000

/-- Layout B (R5, R6): 1 MB of RAM, the heap 512 KB into it. -/
def Config.layoutB : Config := Config.layout 0x100000 0x80000

/-! ### Legal configurations (notes/assumptions/32.md) -/

/-- Every register index and every opcode byte has at most one meaning, and every catalog instruction a byte (R13, R51). -/
abbrev Config.codecWf (c : Config) : Prop :=
  c.aliases.wf ∧ c.opcodeMap.length = Config.opcodeCount ∧ c.opcodeMap.Nodup

/-- The regions stand back to back from address 0, whole numbers of words (R30, R36), and end below the top of the 32-bit
space (R17); the syscall table and the handler code lie in ROM (R32), the heap starts on a word of RAM (R33), and the
pixels fill VRAM (R34). -/
abbrev Config.mapWf (c : Config) : Prop :=
  c.romBase = 0 ∧ c.romSize % 4 = 0 ∧ c.ramBase = c.romBase + c.romSize ∧
    c.ramSize % 4 = 0 ∧ 4 ≤ c.ramSize ∧ c.heapOffset % 4 = 0 ∧ c.heapOffset < c.ramSize ∧
    c.vramSize = c.vramWidth * c.vramHeight * 4 ∧ c.ioSize % 4 = 0 ∧ c.ioEnd + 4 < 2 ^ 32 ∧
    c.syscallTableBase % 4 = 0 ∧ c.romBase ≤ c.syscallTableBase ∧
    c.syscallTableBase + 4 * c.syscallSlots ≤ c.romBase + c.romSize ∧
    c.romBase ≤ c.syscallCodeBase ∧ c.syscallCodeBase + c.syscallCodeSize ≤ c.romBase + c.romSize

/-- A registered device stands on a word inside the I/O window, and no two claim the same address (R148). -/
abbrev Config.devicesWf (c : Config) : Prop :=
  (∀ d ∈ Device.all, ∀ b ∈ c.deviceBase d, b % 4 = 0 ∧ c.ioBase ≤ b ∧ b + d.size ≤ c.ioEnd) ∧
    ∀ d ∈ Device.all, ∀ b ∈ c.deviceBase d, ∀ d' ∈ Device.all, ∀ b' ∈ c.deviceBase d',
      d ≠ d' → b + d.size ≤ b' ∨ b' + d'.size ≤ b

/-- A legal configuration; the keyboard holds at least one character (R151). -/
abbrev Config.wf (c : Config) : Prop := c.codecWf ∧ c.mapWf ∧ c.devicesWf ∧ 0 < c.kbdCapacity

end Sys2Proof
end

