-- ==== Sys2Proof/Machine/State.lean ====
section
/-! DEFINITION. The state of the Neptune-32 core (10_state.md), the ways a step can end, and the state after reset. -/

namespace Sys2Proof.Machine

/-- The four one-bit flags (R19). -/
structure Flags where
  /-- Zero. -/
  z : Bool
  /-- Negative. -/
  n : Bool
  /-- Carry, or unsigned borrow after a subtraction. -/
  c : Bool
  /-- Signed overflow. -/
  v : Bool
deriving DecidableEq, Repr

/-- The contents of ROM, RAM and VRAM (R27): the bytes that are not 0, by rising address. An unlisted address reads as
0, which is what reset leaves there (R29, D16: the spec's own choice, notes/assumptions/2.md). -/
abbrev Memory := List Host.Cell

/-- The keyboard (R151): the buffered character codes, oldest first; at most `KBD_CAPACITY` of them. -/
structure Keyboard where
  queue : List Word
deriving DecidableEq, Repr

/-- The console (R156). -/
structure Console where
  /-- The last word written, kept for readback. -/
  last : Word
  /-- The output stream: the bytes printed so far, oldest first. -/
  out : List Byte
deriving DecidableEq, Repr

/-- The timer (R157). -/
structure Timer where
  /-- CURRENT_TIME, in milliseconds modulo 2^32. -/
  time : Word
  /-- COMPARE_VALUE. -/
  compare : Word
  /-- STATUS: a compare match has been latched. -/
  status : Bool
deriving DecidableEq, Repr

/-- One atomic step of an agent outside the CPU (R160). -/
inductive AgentEvent where
  /-- The host types a character (R154). -/
  | enqueue (c : Word)
  /-- The timer agent ticks, `d` milliseconds after its last tick (R159). -/
  | tick (d : Nat)
deriving DecidableEq, Repr

/-- The whole state (10_state.md; the list of INVENTORY.md). The last two fields are the model's own: `schedule`, the
outside agents' steps still to come (notes/assumptions/4.md), and `cfg`, the machine's fixed configuration
(notes/assumptions/6.md). -/
structure State where
  /-- `r0` to `r31` (R11). -/
  regs : Vector Word 32
  /-- The program counter (R16). -/
  pc : Word
  /-- The stack pointer (R18). -/
  sp : Word
  /-- The heap pointer (R18). -/
  hp : Word
  /-- The flags (R19). -/
  flags : Flags
  /-- The halt bit (R24). -/
  halt : Bool
  /-- ROM, RAM and VRAM (R27). -/
  mem : Memory
  /-- The keyboard (R151). -/
  kbd : Keyboard
  /-- The console (R156). -/
  con : Console
  /-- The timer (R157). -/
  tmr : Timer
  /-- What the keyboard host agent and the timer agent will do: one slot for each coming bus access of the CPU, with the
  agent steps that fall just before that access (R160, D24); past the end of the list they do nothing. -/
  schedule : List (List AgentEvent)
  /-- The configuration (R5). -/
  cfg : Config
deriving DecidableEq, Repr

/-- Why a step ended without a next state: the kinds of R144, each with the information R144 gives it, and `left`, the
state the raise left behind (R77, R143, which the host may inspect and from which nothing goes on). Every kind but the
last is a fault of the machine itself, so stopping there is what the spec says. -/
inductive Fault where
  /-- DIV, DIVI, MOD, MODI with divisor 0. Safe: the spec's own fault. -/
  | divByZero (left : State)
  /-- Every step whose opcode byte is not registered. Safe: the spec's own fault. -/
  | unknownOpcode (opcode : Byte) (left : State)
  /-- Every use of a register index that names no register. Safe: the spec's own fault. -/
  | invalidRegister (index : Byte) (left : State)
  /-- Every word access at an address that is no multiple of 4, under the policy `fault`. Safe: the spec's fault (D4). -/
  | misalignedAccess (address : Word) (left : State)
  /-- Every access at or above `IO_END`. Safe: the spec's own fault. -/
  | invalidAddress (address : Word) (left : State)
  /-- Every write to ROM through the bus. Safe: the spec's own fault. -/
  | romWrite (address : Word) (left : State)
  /-- The loader's direct region path, outside the region (R173); no instruction raises it. Safe: the spec's fault. -/
  | addressOutOfRange (address : Word) (left : State)
  /-- A push that finds HP at or above the new SP, with that SP; `allocate_heap` that would reach SP, with the requested
  size. Safe: the spec's own fault. -/
  | heapStackCollision (info : Nat) (left : State)
  /-- SYSCALL whose table entry lies outside ROM. Safe: the spec's own fault. -/
  | syscallOutOfRange (number : Word) (left : State)
  /-- SYSCALL whose table entry is 0. Safe: the spec's own fault. -/
  | syscallNotImplemented (number : Word) (left : State)
  /-- SYSCALL whose table entry is at or above `IO_END`. Safe: the spec's own fault. -/
  | syscallInvalidTarget (target : Word) (left : State)
  /-- A step of a halted core, which has none (R24, R178, D15; U12: stuck). Raised by `step` alone. Safe: the run is
  over, and nothing is claimed of what comes after. -/
  | halted (left : State)
deriving DecidableEq, Repr

/-- Why the model gives no answer. No meaning of this model refuses. -/
inductive Refusal where
  /-- An instruction that has no meaning yet, by its mnemonic. Raised by `exec` alone. Safe: nothing is claimed. -/
  | notModelled (mnemonic : String)
deriving DecidableEq, Repr

/-- How an operation ends: with a value, with a fault, or refused. -/
abbrev Res (α : Type) := Host.Outcome α Fault Refusal

/-- The state after reset of a machine with configuration `c` (R29, R170). The general registers, the flags, memory, the
console and the timer's COMPARE_VALUE and STATUS are 0 by the spec's own choice (D16, D19, D31;
notes/assumptions/1.md to 3.md). -/
def State.resetWith (c : Config) : State where
  regs := Vector.replicate 32 0#32
  pc := BitVec.ofNat 32 c.programStart
  sp := BitVec.ofNat 32 c.stackStart
  hp := BitVec.ofNat 32 c.heapStart
  flags := ⟨false, false, false, false⟩
  halt := false
  mem := []
  kbd := ⟨[]⟩
  con := ⟨0#32, []⟩
  tmr := ⟨0#32, 0#32, false⟩
  schedule := []
  cfg := c

/-- The machine right after reset (R29), in the layout this hardware takes (R5). -/
def State.reset : State := State.resetWith Config.layoutA

end Sys2Proof.Machine
end

