-- ==== Sys2Proof/Machine/Flags.lean ====
section
/-! DEFINITION. Every flag computation of the spec (R20 to R23), and the conditions the jumps read (R115). -/

namespace Sys2Proof.Machine

/-- `update(r)` (R20): Z and N from the result, C and V unchanged. -/
def Flags.update (f : Flags) (r : Word) : Flags := { f with z := r == 0#32, n := r.msb }

/-- `updateAdd(a, b, r)` (R21). -/
def Flags.updateAdd (a b r : Word) : Flags where
  z := r == 0#32
  n := r.msb
  c := decide (2 ^ 32 ≤ a.toNat + b.toNat)
  v := ((a ^^^ r) &&& (b ^^^ r) &&& 0x80000000#32) != 0#32

/-- `updateSub(a, b, r)` (R22): C is the borrow. -/
def Flags.updateSub (a b r : Word) : Flags where
  z := r == 0#32
  n := r.msb
  c := decide (a.toNat < b.toNat)
  v := ((a ^^^ b) &&& (a ^^^ r) &&& 0x80000000#32) != 0#32

/-- The flags after a shift (R23, R101, R102): `update(r)`, and C is the last bit shifted out when the count is not 0. -/
def Flags.updateShift (f : Flags) (sh : Nat) (lastOut : Bool) (r : Word) : Flags :=
  if sh = 0 then f.update r else { f.update r with c := lastOut }

/-- ¬Z ∧ ¬N, the predicate of JG (R115). -/
def Flags.greater (f : Flags) : Bool := !f.z && !f.n

/-- N ∨ Z, the predicate of JLE (R115). -/
def Flags.lessOrEqual (f : Flags) : Bool := f.n || f.z

/-- ¬C ∧ ¬Z, the predicate of JA (R115). -/
def Flags.above (f : Flags) : Bool := !f.c && !f.z

/-- C ∨ Z, the predicate of JBE (R115). -/
def Flags.belowOrEqual (f : Flags) : Bool := f.c || f.z

end Sys2Proof.Machine
end

