-- ==== Sys2Proof/Syntax.lean ====
section
/-! DEFINITION. The instructions of the Neptune-32 ISA as terms: one constructor per row of the opcode table (R51). -/

namespace Sys2Proof

/-- What an 8-bit register index names (R13). -/
inductive Reg where
  /-- `r0` to `r31` (R11): indices 0 to 31. -/
  | gpr (n : Fin 32)
  /-- The program counter, index 252. -/
  | pc
  /-- The stack pointer, index 253. -/
  | sp
  /-- The heap pointer, index 254. -/
  | hp
  /-- An index that names no register (32 to 251, and 255): an instruction may hold it, and reading or writing it raises
  `InvalidRegister` (R13, R14, R50). -/
  | illegal (index : Byte)
deriving DecidableEq, Repr

/-- An instruction. `rD` and `rS` are the register fields of word 0, `count` the literal shift field, `imm` word 1
(R46 to R49). The fields a format ignores (R50) are no part of the instruction. -/
inductive Instr where
  /-- ADD, format `RR` (R80). -/
  | add (rD rS : Reg)
  /-- SUB, format `RR` (R81). -/
  | sub (rD rS : Reg)
  /-- MUL, format `RR` (R82). -/
  | mul (rD rS : Reg)
  /-- DIV, format `RR` (R83). -/
  | div (rD rS : Reg)
  /-- MOD, format `RR` (R84). -/
  | mod (rD rS : Reg)
  /-- ADDI, format `RI` (R85). -/
  | addi (rD : Reg) (imm : Word)
  /-- SUBI, format `RI` (R86). -/
  | subi (rD : Reg) (imm : Word)
  /-- MULI, format `RI` (R87). -/
  | muli (rD : Reg) (imm : Word)
  /-- DIVI, format `RI` (R88). -/
  | divi (rD : Reg) (imm : Word)
  /-- MODI, format `RI` (R89). -/
  | modi (rD : Reg) (imm : Word)
  /-- INC, format `R` (R90). -/
  | inc (rD : Reg)
  /-- DEC, format `R` (R91). -/
  | dec (rD : Reg)
  /-- NEG, format `R` (R92). -/
  | neg (rD : Reg)
  /-- NOT, format `R` (R93). -/
  | not (rD : Reg)
  /-- CLR, format `R` (R94). -/
  | clr (rD : Reg)
  /-- AND, format `RR` (R95). -/
  | and (rD rS : Reg)
  /-- OR, format `RR` (R96). -/
  | or (rD rS : Reg)
  /-- XOR, format `RR` (R97). -/
  | xor (rD rS : Reg)
  /-- ANDI, format `RI` (R98). -/
  | andi (rD : Reg) (imm : Word)
  /-- ORI, format `RI` (R99). -/
  | ori (rD : Reg) (imm : Word)
  /-- XORI, format `RI` (R100). -/
  | xori (rD : Reg) (imm : Word)
  /-- SHL, format `RS` (R101). -/
  | shl (rD : Reg) (count : Byte)
  /-- SHR, format `RS` (R102). -/
  | shr (rD : Reg) (count : Byte)
  /-- LOAD, format `RR` (R103). -/
  | load (rD rS : Reg)
  /-- STORE, format `RR` (R104). -/
  | store (rD rS : Reg)
  /-- LOADI, format `RI` (R105). -/
  | loadi (rD : Reg) (imm : Word)
  /-- STORI, format `RI` (R106). -/
  | stori (rD : Reg) (imm : Word)
  /-- MSET, format `RR` (R107). -/
  | mset (rD rS : Reg)
  /-- MCPY, format `RR` (R108). -/
  | mcpy (rD rS : Reg)
  /-- MOV, format `RR` (R109). -/
  | mov (rD rS : Reg)
  /-- MOVI, format `RI` (R110). -/
  | movi (rD : Reg) (imm : Word)
  /-- CMP, format `RR` (R111). -/
  | cmp (rD rS : Reg)
  /-- CMPI, format `RI` (R112). -/
  | cmpi (rD : Reg) (imm : Word)
  /-- TEST, format `RR` (R113). -/
  | test (rD rS : Reg)
  /-- TESTI, format `RI` (R114). -/
  | testi (rD : Reg) (imm : Word)
  /-- JMP, format `I` (R116). -/
  | jmp (imm : Word)
  /-- JZ, format `I` (R117). -/
  | jz (imm : Word)
  /-- JE, format `I` (R118). -/
  | je (imm : Word)
  /-- JNZ, format `I` (R119). -/
  | jnz (imm : Word)
  /-- JNE, format `I` (R120). -/
  | jne (imm : Word)
  /-- JN, format `I` (R121). -/
  | jn (imm : Word)
  /-- JP, format `I` (R122). -/
  | jp (imm : Word)
  /-- JG, format `I` (R123). -/
  | jg (imm : Word)
  /-- JGE, format `I` (R124). -/
  | jge (imm : Word)
  /-- JL, format `I` (R125). -/
  | jl (imm : Word)
  /-- JLE, format `I` (R126). -/
  | jle (imm : Word)
  /-- JC, format `I` (R127). -/
  | jc (imm : Word)
  /-- JNC, format `I` (R128). -/
  | jnc (imm : Word)
  /-- JA, format `I` (R129). -/
  | ja (imm : Word)
  /-- JAE, format `I` (R130). -/
  | jae (imm : Word)
  /-- JB, format `I` (R131). -/
  | jb (imm : Word)
  /-- JBE, format `I` (R132). -/
  | jbe (imm : Word)
  /-- CALL, format `I` (R133). -/
  | call (imm : Word)
  /-- RET, format `N` (R134). -/
  | ret
  /-- PUSH, format `R` (R135). -/
  | push (rD : Reg)
  /-- POP, format `R` (R136). -/
  | pop (rD : Reg)
  /-- SYSCALL, format `N` (R137). -/
  | syscall
  /-- NOP, format `N` (R138). -/
  | nop
  /-- HLT, format `N` (R139). -/
  | hlt
deriving DecidableEq, Repr

end Sys2Proof
end

