-- ==== Sys2Proof/WellFormed.lean ====
section
/-! DEFINITION. Which terms stand for an instruction that words of memory can hold. -/

namespace Sys2Proof

/-- Whether an index names a register: 0 to 31 or an alias (R13). -/
def Reg.indexLegal (al : Aliases) (i : Byte) : Bool := i.toNat < 32 || i = al.pc || i = al.sp || i = al.hp

/-- A register operand is well formed when `illegal` is kept for the indices that name no register (R13). -/
def Reg.wf (al : Aliases) : Reg → Bool
  | .illegal i => !Reg.indexLegal al i
  | _ => true

/-- The register operands of an instruction, `rD` before `rS` (R47, R53). -/
def Instr.regs : Instr → List Reg
  | .add d s => [d, s]
  | .sub d s => [d, s]
  | .mul d s => [d, s]
  | .div d s => [d, s]
  | .mod d s => [d, s]
  | .addi d _ => [d]
  | .subi d _ => [d]
  | .muli d _ => [d]
  | .divi d _ => [d]
  | .modi d _ => [d]
  | .inc d => [d]
  | .dec d => [d]
  | .neg d => [d]
  | .not d => [d]
  | .clr d => [d]
  | .and d s => [d, s]
  | .or d s => [d, s]
  | .xor d s => [d, s]
  | .andi d _ => [d]
  | .ori d _ => [d]
  | .xori d _ => [d]
  | .shl d _ => [d]
  | .shr d _ => [d]
  | .load d s => [d, s]
  | .store d s => [d, s]
  | .loadi d _ => [d]
  | .stori d _ => [d]
  | .mset d s => [d, s]
  | .mcpy d s => [d, s]
  | .mov d s => [d, s]
  | .movi d _ => [d]
  | .cmp d s => [d, s]
  | .cmpi d _ => [d]
  | .test d s => [d, s]
  | .testi d _ => [d]
  | .jmp _ => []
  | .jz _ => []
  | .je _ => []
  | .jnz _ => []
  | .jne _ => []
  | .jn _ => []
  | .jp _ => []
  | .jg _ => []
  | .jge _ => []
  | .jl _ => []
  | .jle _ => []
  | .jc _ => []
  | .jnc _ => []
  | .ja _ => []
  | .jae _ => []
  | .jb _ => []
  | .jbe _ => []
  | .call _ => []
  | .ret => []
  | .push d => [d]
  | .pop d => [d]
  | .syscall => []
  | .nop => []
  | .hlt => []

/-- An instruction is well formed when its register operands are: every other operand fills its field exactly (a shift
count is 8 bits, R49; an immediate 32 bits, R48). -/
def Instr.wf (al : Aliases) (i : Instr) : Bool := i.regs.all (Reg.wf al)

end Sys2Proof
end

