-- ==== Sys2Proof/Decode.lean ====
section
/-! DEFINITION. Decoding and encoding: the fields of word 0 (R46), register indices (R13), the opcode map (R51), the
length of an instruction (R52), little-endian words (R40, R57). -/

namespace Sys2Proof

/-! ### Words and bytes in memory order (R40) -/

/-- The word whose bytes, lowest address first, are `b0` to `b3` (R36, R40). -/
def wordOfBytes (b0 b1 b2 b3 : Byte) : Word := b3 ++ b2 ++ b1 ++ b0

/-- The byte of `w` that stands `k` addresses above the word's own (R37, R40). -/
def byteOfWord (w : Word) (k : Nat) : Byte := w.extractLsb' (8 * k) 8

/-- The four bytes of a word in memory order (R57). -/
def bytesOfWord (w : Word) : List Byte := [byteOfWord w 0, byteOfWord w 1, byteOfWord w 2, byteOfWord w 3]

/-! ### The fields of word 0 (R46) -/

/-- `word0[7:0]`, the opcode byte. -/
def opcodeField (w : Word) : Byte := w.extractLsb' 0 8

/-- `word0[31:24]`, the field `rD`. -/
def rDField (w : Word) : Byte := w.extractLsb' 24 8

/-- `word0[23:16]`, the field `rS` or the literal shift count. -/
def rSField (w : Word) : Byte := w.extractLsb' 16 8

/-- Word 0 with the reserved byte zero, as it is emitted (R46, R61). -/
def word0Of (rD rS opcode : Byte) : Word := rD ++ rS ++ 0#8 ++ opcode

/-! ### Register indices (R13) -/

/-- The register an 8-bit index names (R13). -/
def Reg.ofIndex (al : Aliases) (i : Byte) : Reg :=
  if h : i.toNat < 32 then .gpr ⟨i.toNat, h⟩
  else if i = al.pc then .pc
  else if i = al.sp then .sp
  else if i = al.hp then .hp
  else .illegal i

/-- The 8-bit index of a register operand (R13). -/
def Reg.index (al : Aliases) : Reg → Byte
  | .gpr n => BitVec.ofNat 8 n.val
  | .pc => al.pc
  | .sp => al.sp
  | .hp => al.hp
  | .illegal i => i

/-! ### The opcode map (R51) -/

/-- The catalog number, from 1, of the instruction an opcode byte selects; none for a byte that is not registered
(R51, R54). -/
def catalogNumber (map : List Byte) (opcode : Byte) : Option Nat := (map.idxOf? opcode).map (· + 1)

/-- The opcode byte of the instruction with a catalog number (R51). -/
def opcodeByte (map : List Byte) (number : Nat) : Byte := map.getD (number - 1) 0#8

/-! ### Decoding -/

/-- What word 0 alone says (R50, R52, R72): the opcode byte selects the instruction and its length. -/
inductive Head where
  /-- The opcode byte is not registered (R54). -/
  | unknown (opcode : Byte)
  /-- A one-word instruction. -/
  | oneWord (i : Instr)
  /-- A two-word instruction, still to be given word 1 as its immediate (R48). -/
  | twoWords (i : Word → Instr)

/-- The instruction with a catalog number (R51, R52, R53), its operands taken from the register and shift fields. -/
def headOf (al : Aliases) (number : Nat) (opcode rD rS : Byte) : Head :=
  let d := Reg.ofIndex al rD
  let s := Reg.ofIndex al rS
  match number with
  | 1 => .oneWord (.add d s)
  | 2 => .oneWord (.sub d s)
  | 3 => .oneWord (.mul d s)
  | 4 => .oneWord (.div d s)
  | 5 => .oneWord (.mod d s)
  | 6 => .twoWords (.addi d)
  | 7 => .twoWords (.subi d)
  | 8 => .twoWords (.muli d)
  | 9 => .twoWords (.divi d)
  | 10 => .twoWords (.modi d)
  | 11 => .oneWord (.inc d)
  | 12 => .oneWord (.dec d)
  | 13 => .oneWord (.neg d)
  | 14 => .oneWord (.not d)
  | 15 => .oneWord (.clr d)
  | 16 => .oneWord (.and d s)
  | 17 => .oneWord (.or d s)
  | 18 => .oneWord (.xor d s)
  | 19 => .twoWords (.andi d)
  | 20 => .twoWords (.ori d)
  | 21 => .twoWords (.xori d)
  | 22 => .oneWord (.shl d rS)
  | 23 => .oneWord (.shr d rS)
  | 24 => .oneWord (.load d s)
  | 25 => .oneWord (.store d s)
  | 26 => .twoWords (.loadi d)
  | 27 => .twoWords (.stori d)
  | 28 => .oneWord (.mset d s)
  | 29 => .oneWord (.mcpy d s)
  | 30 => .oneWord (.mov d s)
  | 31 => .twoWords (.movi d)
  | 32 => .oneWord (.cmp d s)
  | 33 => .twoWords (.cmpi d)
  | 34 => .oneWord (.test d s)
  | 35 => .twoWords (.testi d)
  | 36 => .twoWords .jmp
  | 37 => .twoWords .jz
  | 38 => .twoWords .je
  | 39 => .twoWords .jnz
  | 40 => .twoWords .jne
  | 41 => .twoWords .jn
  | 42 => .twoWords .jp
  | 43 => .twoWords .jg
  | 44 => .twoWords .jge
  | 45 => .twoWords .jl
  | 46 => .twoWords .jle
  | 47 => .twoWords .jc
  | 48 => .twoWords .jnc
  | 49 => .twoWords .ja
  | 50 => .twoWords .jae
  | 51 => .twoWords .jb
  | 52 => .twoWords .jbe
  | 53 => .twoWords .call
  | 54 => .oneWord .ret
  | 55 => .oneWord (.push d)
  | 56 => .oneWord (.pop d)
  | 57 => .oneWord .syscall
  | 58 => .oneWord .nop
  | 59 => .oneWord .hlt
  | _ => .unknown opcode

/-- Decoding word 0 under a configuration's opcode map and aliases (R46, R50, R51): the reserved byte takes no part. -/
def decodeHead (c : Config) (w : Word) : Head :=
  match catalogNumber c.opcodeMap (opcodeField w) with
  | some n => headOf c.aliases n (opcodeField w) (rDField w) (rSField w)
  | none => .unknown (opcodeField w)

/-- Why bytes are no instruction. -/
inductive Reject where
  /-- The opcode byte of word 0 is not registered (R54). -/
  | unknownOpcode (opcode : Byte)
  /-- The bytes end before the instruction does. -/
  | truncated
deriving DecidableEq, Repr

/-- The first word of some bytes in memory order, and the bytes after it (R57). -/
def takeWord : List Byte → Option (Word × List Byte)
  | b0 :: b1 :: b2 :: b3 :: rest => some (wordOfBytes b0 b1 b2 b3, rest)
  | _ => none

/-- The instruction at the start of some bytes, and the bytes after it (R57), under a configuration. -/
def decodeWith (c : Config) (bytes : List Byte) : Except Reject (Instr × List Byte) :=
  match takeWord bytes with
  | none => .error .truncated
  | some (w0, rest) =>
    match decodeHead c w0 with
    | .unknown op => .error (.unknownOpcode op)
    | .oneWord i => .ok (i, rest)
    | .twoWords k =>
      match takeWord rest with
      | none => .error .truncated
      | some (w1, rest) => .ok (k w1, rest)

/-- Decoding under the values this hardware takes (R13, R51). -/
def decode (bytes : List Byte) : Except Reject (Instr × List Byte) := decodeWith Config.layoutA bytes

/-! ### Encoding (R47, R51, R53, R61) -/

/-- An instruction as its catalog number, its two fields of word 0 and its word 1. -/
structure Fields where
  number : Nat
  rD : Byte
  rS : Byte
  imm : Option Word
deriving DecidableEq, Repr

/-- Format `RR` (R47). -/
def Fields.rr (al : Aliases) (number : Nat) (d s : Reg) : Fields := ⟨number, d.index al, s.index al, none⟩

/-- Format `RI` (R47). -/
def Fields.ri (al : Aliases) (number : Nat) (d : Reg) (imm : Word) : Fields := ⟨number, d.index al, 0#8, some imm⟩

/-- Format `R` (R47). -/
def Fields.r (al : Aliases) (number : Nat) (d : Reg) : Fields := ⟨number, d.index al, 0#8, none⟩

/-- Format `RS` (R47, R49). -/
def Fields.rs (al : Aliases) (number : Nat) (d : Reg) (count : Byte) : Fields := ⟨number, d.index al, count, none⟩

/-- Format `I` (R47). -/
def Fields.i (number : Nat) (imm : Word) : Fields := ⟨number, 0#8, 0#8, some imm⟩

/-- Format `N` (R47). -/
def Fields.n (number : Nat) : Fields := ⟨number, 0#8, 0#8, none⟩

/-- The fields of each instruction (R51, R53). -/
def Instr.fields (al : Aliases) : Instr → Fields
  | .add d s => .rr al 1 d s
  | .sub d s => .rr al 2 d s
  | .mul d s => .rr al 3 d s
  | .div d s => .rr al 4 d s
  | .mod d s => .rr al 5 d s
  | .addi d imm => .ri al 6 d imm
  | .subi d imm => .ri al 7 d imm
  | .muli d imm => .ri al 8 d imm
  | .divi d imm => .ri al 9 d imm
  | .modi d imm => .ri al 10 d imm
  | .inc d => .r al 11 d
  | .dec d => .r al 12 d
  | .neg d => .r al 13 d
  | .not d => .r al 14 d
  | .clr d => .r al 15 d
  | .and d s => .rr al 16 d s
  | .or d s => .rr al 17 d s
  | .xor d s => .rr al 18 d s
  | .andi d imm => .ri al 19 d imm
  | .ori d imm => .ri al 20 d imm
  | .xori d imm => .ri al 21 d imm
  | .shl d count => .rs al 22 d count
  | .shr d count => .rs al 23 d count
  | .load d s => .rr al 24 d s
  | .store d s => .rr al 25 d s
  | .loadi d imm => .ri al 26 d imm
  | .stori d imm => .ri al 27 d imm
  | .mset d s => .rr al 28 d s
  | .mcpy d s => .rr al 29 d s
  | .mov d s => .rr al 30 d s
  | .movi d imm => .ri al 31 d imm
  | .cmp d s => .rr al 32 d s
  | .cmpi d imm => .ri al 33 d imm
  | .test d s => .rr al 34 d s
  | .testi d imm => .ri al 35 d imm
  | .jmp imm => .i 36 imm
  | .jz imm => .i 37 imm
  | .je imm => .i 38 imm
  | .jnz imm => .i 39 imm
  | .jne imm => .i 40 imm
  | .jn imm => .i 41 imm
  | .jp imm => .i 42 imm
  | .jg imm => .i 43 imm
  | .jge imm => .i 44 imm
  | .jl imm => .i 45 imm
  | .jle imm => .i 46 imm
  | .jc imm => .i 47 imm
  | .jnc imm => .i 48 imm
  | .ja imm => .i 49 imm
  | .jae imm => .i 50 imm
  | .jb imm => .i 51 imm
  | .jbe imm => .i 52 imm
  | .call imm => .i 53 imm
  | .ret => .n 54
  | .push d => .r al 55 d
  | .pop d => .r al 56 d
  | .syscall => .n 57
  | .nop => .n 58
  | .hlt => .n 59

/-- The words of an instruction under a configuration (R61): unused fields and the reserved byte are zero. -/
def encodeWith (c : Config) (i : Instr) : List Word :=
  let f := i.fields c.aliases
  word0Of f.rD f.rS (opcodeByte c.opcodeMap f.number) :: f.imm.toList

/-- The words of an instruction of this hardware (R51, R61). -/
def encode (i : Instr) : List Word := encodeWith Config.layoutA i

/-- The bytes of an instruction in memory order (R57), under a configuration. -/
def encodeBytesWith (c : Config) (i : Instr) : List Byte := (encodeWith c i).flatMap bytesOfWord

/-- The bytes of an instruction of this hardware in memory order (R57). -/
def encodeBytes (i : Instr) : List Byte := encodeBytesWith Config.layoutA i

/-! ### The host's question -/

/-- The two words, in memory order, of an instruction whose bits are `w`, bit 0 being the least significant bit of the
first word: `nbits` bits are given and every bit above them is 0. -/
def tableWords (nbits w : Nat) : Word × Word :=
  (BitVec.ofNat 32 (w % 2 ^ nbits), BitVec.ofNat 32 (w % 2 ^ nbits / 2 ^ 32))

/-- The bytes of those two words as the hardware stores them (R57). -/
def tableBytes (nbits w : Nat) : List Byte :=
  bytesOfWord (tableWords nbits w).1 ++ bytesOfWord (tableWords nbits w).2

/-- The instruction the decoder reads from an instruction whose bits are `w`. -/
def decodeTableWord (nbits w : Nat) : Option Instr :=
  match decode (tableBytes nbits w) with
  | .ok (i, _) => some i
  | .error _ => none

end Sys2Proof
end

