-- ==== Sys2Proof/Machine/Ops.lean ====
section
/-! DEFINITION. The named operations over registers, memory, devices and the stack that every meaning is built from
(10_state.md, 20_memory.md, 40_execution_cycle.md, 60_exceptions.md). -/

namespace Sys2Proof.Machine

/-! ### Results, and raising a fault -/

/-- Go on with the value of `o`, or end as `o` ended. -/
def Res.bind {α β : Type} (o : Res α) (f : α → Res β) : Res β :=
  match o with
  | .next a => f a
  | .fault k => .fault k
  | .refused r => .refused r

/-- `raise K(info)` (R77, R142): the step ends with the fault kind; the state stays what it is at the raise, nothing is
saved, no mode changes, control goes nowhere inside the machine, and `halt` is not set. -/
def raise {α : Type} (kind : State → Fault) (s : State) : Res α := .fault (kind s)

/-! ### Single fields -/

/-- Set PC (R16). -/
def State.setPc (s : State) (v : Word) : State := { s with pc := v }

/-- Set SP (R18). -/
def State.setSp (s : State) (v : Word) : State := { s with sp := v }

/-- Set HP (R18). -/
def State.setHp (s : State) (v : Word) : State := { s with hp := v }

/-- Set the flags (R19). -/
def State.setFlags (s : State) (f : Flags) : State := { s with flags := f }

/-- Set the halt bit (R24). -/
def State.setHalt (s : State) (b : Bool) : State := { s with halt := b }

/-- Set a general register (R11). -/
def State.setGpr (s : State) (n : Fin 32) (v : Word) : State := { s with regs := s.regs.set n v }

/-- Set the memory arrays (R27). -/
def State.setMem (s : State) (m : Memory) : State := { s with mem := m }

/-- Set the keyboard (R151). -/
def State.setKbd (s : State) (k : Keyboard) : State := { s with kbd := k }

/-- Set the console (R156). -/
def State.setCon (s : State) (c : Console) : State := { s with con := c }

/-- Set the timer (R157). -/
def State.setTmr (s : State) (t : Timer) : State := { s with tmr := t }

/-! ### Registers (R13, R14) -/

/-- The value of the register an operand names; none where it names none (R13). -/
def State.reg? (s : State) : Reg → Option Word
  | .gpr n => some (s.regs.get n)
  | .pc => some s.pc
  | .sp => some s.sp
  | .hp => some s.hp
  | .illegal _ => none

/-- The state with a register set (R14); the indices 252, 253 and 254 write PC, SP and HP, unchecked. -/
def State.setReg (s : State) (r : Reg) (v : Word) : State :=
  match r with
  | .gpr n => s.setGpr n v
  | .pc => s.setPc v
  | .sp => s.setSp v
  | .hp => s.setHp v
  | .illegal _ => s

/-- Register read `x[i]` (R13). -/
def readReg (r : Reg) (s : State) : Res Word :=
  match s.reg? r with
  | some v => .next v
  | none => raise (.invalidRegister (r.index s.cfg.aliases)) s

/-- Register write `x[i] <- v` (R14): nothing is written when it raises. -/
def writeReg (r : Reg) (v : Word) (s : State) : Res State :=
  match s.reg? r with
  | some _ => .next (s.setReg r v)
  | none => raise (.invalidRegister (r.index s.cfg.aliases)) s

/-! ### The memory arrays (R27) -/

/-- The byte at an address of ROM, RAM or VRAM (R27); an unlisted address holds 0 (R29). -/
def Memory.read : Memory → Nat → Byte
  | [], _ => 0#8
  | (x, c) :: m, a => if a = x then c else Memory.read m a

/-- The memory with one byte changed, in the same canonical form: a byte that becomes 0 is no longer listed. -/
def Memory.write : Memory → Nat → Byte → Memory
  | [], a, b => if b = 0#8 then [] else [(a, b)]
  | (x, c) :: m, a, b =>
    if a < x then (if b = 0#8 then (x, c) :: m else (a, b) :: (x, c) :: m)
    else if a = x then (if b = 0#8 then m else (x, b) :: m)
    else (x, c) :: Memory.write m a b

/-- The addresses rise strictly from `lo` on and no listed byte is 0. -/
def Memory.above : Nat → Memory → Bool
  | _, [] => true
  | lo, (x, c) :: m => decide (lo ≤ x) && c != 0#8 && Memory.above (x + 1) m

/-- The canonical form of a memory: strictly rising addresses, and no entry equal to what an unlisted address holds. -/
def Memory.wf (m : Memory) : Bool := Memory.above 0 m

/-- The little-endian word at an address (R36, R40). -/
def Memory.readWord (m : Memory) (a : Nat) : Word :=
  wordOfBytes (m.read a) (m.read (a + 1)) (m.read (a + 2)) (m.read (a + 3))

/-- The memory with a little-endian word stored at an address (R37, R40). -/
def Memory.writeWord (m : Memory) (a : Nat) (v : Word) : Memory :=
  (((m.write a (byteOfWord v 0)).write (a + 1) (byteOfWord v 1)).write (a + 2) (byteOfWord v 2)).write (a + 3)
    (byteOfWord v 3)

/-- The memory with bytes stored from an address up. -/
def Memory.writeBytes (m : Memory) (a : Nat) : List Byte → Memory
  | [] => m
  | b :: bs => Memory.writeBytes (m.write a b) (a + 1) bs

/-! ### The memory map (R31, R35) -/

/-- A byte array of the memory map (R27, R31). -/
inductive Bank where
  | rom
  | ram
  | vram
deriving DecidableEq, Repr

/-- Where the bus routes an address (R31, R35). -/
inductive Region where
  | bank (b : Bank)
  | io
deriving DecidableEq, Repr

/-- The first address of a byte array (R31). -/
def Bank.base (c : Config) : Bank → Nat
  | .rom => c.romBase
  | .ram => c.ramBase
  | .vram => c.vramBase

/-- The size of a byte array in bytes (R31). -/
def Bank.size (c : Config) : Bank → Nat
  | .rom => c.romSize
  | .ram => c.ramSize
  | .vram => c.vramSize

/-- The address lies in the byte array: `base <= A < base + size` (R35). -/
def Bank.holds (c : Config) (b : Bank) (a : Nat) : Bool := decide (b.base c ≤ a) && decide (a < b.base c + b.size c)

/-- Routing by address range in order ROM, RAM, VRAM, I/O; none at or above `IO_END` (R35). -/
def route (c : Config) (a : Nat) : Option Region :=
  if Bank.holds c .rom a then some (.bank .rom)
  else if Bank.holds c .ram a then some (.bank .ram)
  else if Bank.holds c .vram a then some (.bank .vram)
  else if c.ioBase ≤ a ∧ a < c.ioEnd then some .io
  else none

/-! ### The devices (R151 to R159, R164) -/

/-- `enqueue(c)` (R154): at `KBD_CAPACITY` characters the oldest is dropped to make room. -/
def Keyboard.enqueue (capacity : Nat) (k : Keyboard) (c : Word) : Keyboard :=
  ⟨(if capacity ≤ k.queue.length then k.queue.tail else k.queue) ++ [c]⟩

/-- A word read at an offset into the keyboard (R152): FIRST_CHAR, BUFFER_READY, CURRENT_CHAR, CONTROL. -/
def Keyboard.readWord (k : Keyboard) (off : Nat) : Word :=
  match off with
  | 0 => k.queue.headD 0#32
  | 4 => if 2 ≤ k.queue.length then 1#32 else 0#32
  | 8 => k.queue.getLastD 0#32
  | _ => 0#32

/-- A word written at an offset into the keyboard (R153, R164): only CONTROL has commands. -/
def Keyboard.writeWord (k : Keyboard) (off : Nat) (v : Word) : Keyboard :=
  if off = 12 then
    if v = 1#32 then ⟨k.queue.tail⟩
    else if v = 2#32 then ⟨[]⟩
    else if v = 3#32 then ⟨[]⟩
    else k
  else k

/-- A word read at an offset into the console (R156). -/
def Console.readWord (c : Console) (off : Nat) : Word := if off = 0 then c.last else 0#32

/-- A word written at an offset into the console (R156): the low byte is printed, the whole word kept. -/
def Console.writeWord (c : Console) (off : Nat) (v : Word) : Console :=
  if off = 0 then ⟨v, c.out ++ [byteOfWord v 0]⟩ else c

/-- `tick(d)` (R159): the equality with COMPARE_VALUE is tested once, after the time has advanced. -/
def Timer.tick (t : Timer) (d : Nat) : Timer :=
  { t with time := t.time + BitVec.ofNat 32 d, status := t.status || t.time + BitVec.ofNat 32 d == t.compare }

/-- A word read at an offset into the timer (R157): CURRENT_TIME, COMPARE_VALUE, STATUS, CONTROL. -/
def Timer.readWord (t : Timer) (off : Nat) : Word :=
  match off with
  | 0 => t.time
  | 4 => t.compare
  | 8 => if t.status then 1#32 else 0#32
  | _ => 0#32

/-- A word written at an offset into the timer (R157, R158, R164). -/
def Timer.writeWord (t : Timer) (off : Nat) (v : Word) : Timer :=
  if off = 4 then { t with compare := v }
  else if off = 12 then
    if v = 1#32 then { t with status := false }
    else if v = 2#32 then { t with time := 0#32, status := false }
    else t
  else t

/-! ### The agents outside the CPU (R160) -/

/-- What an agent step does to the keyboard: only the host's typing touches it (R154, R160). -/
def Keyboard.hear (capacity : Nat) (k : Keyboard) : AgentEvent → Keyboard
  | .enqueue c => k.enqueue capacity c
  | .tick _ => k

/-- What an agent step does to the timer: only the timer agent touches it (R159, R160). -/
def Timer.hear (t : Timer) : AgentEvent → Timer
  | .enqueue _ => t
  | .tick d => t.tick d

/-- One atomic step of an agent outside the CPU (R160): it touches its own device only, whether or not the CPU is halted
(R163). -/
def State.agentStep (s : State) (e : AgentEvent) : State :=
  { s with kbd := s.kbd.hear s.cfg.kbdCapacity e, tmr := s.tmr.hear e }

/-- The agent steps that fall just before the next bus access of the CPU (R160, D24; notes/assumptions/5.md). -/
def State.agentsAct (s : State) : State :=
  { s with
    kbd := (s.schedule.headD []).foldl (Keyboard.hear s.cfg.kbdCapacity) s.kbd
    tmr := (s.schedule.headD []).foldl Timer.hear s.tmr
    schedule := s.schedule.tail }

/-! ### The I/O bus (R148 to R150) -/

/-- The offset of an address into a device that claims it: `[base, base + size)` (R148). -/
def deviceOffset (c : Config) (a : Nat) (d : Device) : Option Nat :=
  match c.deviceBase d with
  | some b => if b ≤ a ∧ a < b + d.size then some (a - b) else none
  | none => none

/-- The device that claims an address, and the offset into that device (R148, R149). -/
def claimant (c : Config) (a : Nat) : Option (Device × Nat) :=
  Device.all.findSome? fun d => (deviceOffset c a d).map fun off => (d, off)

/-- `IoReadWord(A)` (R148): an unclaimed address reads 0. -/
def ioReadWord (a : Word) (s : State) : Word :=
  match claimant s.cfg a.toNat with
  | some (.keyboard, off) => s.kbd.readWord off
  | some (.console, off) => s.con.readWord off
  | some (.timer, off) => s.tmr.readWord off
  | none => 0#32

/-- `IoWriteWord(A, v)` (R148): an unclaimed write is dropped. -/
def ioWriteWord (a v : Word) (s : State) : State :=
  match claimant s.cfg a.toNat with
  | some (.keyboard, off) => s.setKbd (s.kbd.writeWord off v)
  | some (.console, off) => s.setCon (s.con.writeWord off v)
  | some (.timer, off) => s.setTmr (s.tmr.writeWord off v)
  | none => s

/-- The address of the word that holds a byte: `A & ~3` (R150). -/
def containingWord (a : Word) : Word := a &&& ~~~3#32

/-- The distance of a byte's lane from bit 0: `8 * A[1:0]` (R150, D18). -/
def laneShift (a : Word) : Nat := 8 * (a.toNat % 4)

/-- `IoReadByte(A)` (R150). -/
def ioReadByte (a : Word) (s : State) : Byte := (ioReadWord (containingWord a) s >>> laneShift a).setWidth 8

/-- A word with the byte at address `a`'s lane replaced (R150). -/
def mergeLane (a : Word) (w : Word) (v : Byte) : Word :=
  (w &&& ~~~(0xFF#32 <<< laneShift a)) ||| (v.setWidth 32 <<< laneShift a)

/-- `IoWriteByte(A, v)` (R150): read, merge, write the containing word. -/
def ioWriteByte (a : Word) (v : Byte) (s : State) : State :=
  ioWriteWord (containingWord a) (mergeLane a (ioReadWord (containingWord a) s) v) s

/-! ### The memory bus (R35 to R41) -/

/-- `MemRead(A, 1)` (R38): no alignment condition. The host reaches it, and the other reading of D4; no instruction does
by itself (R42). -/
def busReadByte (a : Word) (s : State) : Res Byte :=
  match route s.cfg a.toNat with
  | none => raise (.invalidAddress a) s
  | some (.bank _) => .next (s.mem.read a.toNat)
  | some .io => .next (ioReadByte a s)

/-- `MemWrite(A, 1, v)` (R39): no alignment condition. The host reaches it, and the other reading of D4; no instruction
does by itself (R42). -/
def busWriteByte (a : Word) (v : Byte) (s : State) : Res State :=
  match route s.cfg a.toNat with
  | none => raise (.invalidAddress a) s
  | some (.bank .rom) => raise (.romWrite a) s
  | some (.bank _) => .next (s.setMem (s.mem.write a.toNat v))
  | some .io => .next (ioWriteByte a v s)

/-- The routed part of `MemRead(A, 4)` at an aligned address (R36). -/
def busReadAligned (a : Word) (s : State) : Res Word :=
  match route s.cfg a.toNat with
  | none => raise (.invalidAddress a) s
  | some (.bank _) => .next (s.mem.readWord a.toNat)
  | some .io => .next (ioReadWord a s)

/-- The routed part of `MemWrite(A, 4, v)` at an aligned address (R37). -/
def busWriteAligned (a v : Word) (s : State) : Res State :=
  match route s.cfg a.toNat with
  | none => raise (.invalidAddress a) s
  | some (.bank .rom) => raise (.romWrite a) s
  | some (.bank _) => .next (s.setMem (s.mem.writeWord a.toNat v))
  | some .io => .next (ioWriteWord a v s)

/-- The four bytes from `a` up, each routed separately (D4's other reading, notes/assumptions/9.md). -/
def busReadBytes (a : Word) (s : State) : Res Word :=
  (busReadByte a s).bind fun b0 =>
  (busReadByte (a + 1#32) s).bind fun b1 =>
  (busReadByte (a + 2#32) s).bind fun b2 =>
  (busReadByte (a + 3#32) s).bind fun b3 => .next (wordOfBytes b0 b1 b2 b3)

/-- The four bytes of `v` stored from `a` up, each routed separately (D4's other reading, notes/assumptions/9.md). -/
def busWriteBytes (a v : Word) (s : State) : Res State :=
  (busWriteByte a (byteOfWord v 0) s).bind fun s =>
  (busWriteByte (a + 1#32) (byteOfWord v 1) s).bind fun s =>
  (busWriteByte (a + 2#32) (byteOfWord v 2) s).bind fun s =>
  busWriteByte (a + 3#32) (byteOfWord v 3) s

/-- The alignment check of a word read, before routing (R35, R36, R41). -/
def busReadWord (a : Word) (s : State) : Res Word :=
  if a.toNat % 4 = 0 then busReadAligned a s
  else match s.cfg.misaligned with
    | .fault => raise (.misalignedAccess a) s
    | .assembleBytes => busReadBytes a s

/-- The alignment check of a word write, before routing (R35, R37, R41). -/
def busWriteWord (a v : Word) (s : State) : Res State :=
  if a.toNat % 4 = 0 then busWriteAligned a v s
  else match s.cfg.misaligned with
    | .fault => raise (.misalignedAccess a) s
    | .assembleBytes => busWriteBytes a v s

/-- `MemRead(A, 4)` (R36): one bus access, before which the outside agents act (R160). -/
def memRead (a : Word) (s : State) : Res (Word × State) :=
  (busReadWord a s.agentsAct).bind fun w => .next (w, s.agentsAct)

/-- `MemWrite(A, 4, v)` (R37): one bus access, before which the outside agents act (R160). -/
def memWrite (a v : Word) (s : State) : Res State := busWriteWord a v s.agentsAct

/-! ### The stack (R74, R75) -/

/-- `push(v)` (R74): SP is decremented first and stays so when a fault is raised. -/
def push (v : Word) (s : State) : Res State :=
  if (s.sp - 4#32).toNat ≤ s.hp.toNat then
    raise (.heapStackCollision (s.sp - 4#32).toNat) (s.setSp (s.sp - 4#32))
  else memWrite (s.sp - 4#32) v (s.setSp (s.sp - 4#32))

/-- `pop()` (R75): when the read raises, SP is unchanged. -/
def pop (s : State) : Res (Word × State) :=
  (memRead s.sp s).bind fun p => .next (p.1, p.2.setSp (p.2.sp + 4#32))

/-! ### The trap-like transfer and its return (R165) -/

/-- Save the address of the next instruction on the stack and go to `target` (R133, R137, R165): the one thing saved is
the return address, and no mode and no mask exists to change. -/
def enter (target : Word) (s : State) : Res State := (push s.pc s).bind fun t => .next (t.setPc target)

/-- Go back to the address on the stack (R134, R165): nothing else is restored. -/
def leave (s : State) : Res State := (pop s).bind fun p => .next (p.2.setPc p.1)

end Sys2Proof.Machine
end

