-- ==== Sys2Proof/Machine/Operands.lean ====
section
/-! DEFINITION. The operand forms (R47 to R50, R73), the commit of a result (R76), and the shapes the meanings share. -/

namespace Sys2Proof.Machine

/-- Format `RR` (R73): `a` is `x[rD]`, read first; `b` is `x[rS]`, read second. -/
def readRR (rD rS : Reg) (s : State) : Res (Word × Word) :=
  (readReg rD s).bind fun a => (readReg rS s).bind fun b => .next (a, b)

/-- Format `RI` (R48, R73): `a` is `x[rD]`, `b` the immediate word as it stands. -/
def readRI (rD : Reg) (imm : Word) (s : State) : Res (Word × Word) := (readReg rD s).bind fun a => .next (a, imm)

/-- The shift count of format `RS` (R49): the field, masked to 0..31. -/
def shiftCount (count : Byte) : Nat := (count &&& 31#8).toNat

/-- The commit of R76: write the destination, then the flags; a destination that is PC, SP or HP still updates the flags. -/
def commit (rD : Reg) (r : Word) (f : Flags) (s : State) : Res State :=
  (writeReg rD r s).bind fun t => .next (t.setFlags f)

/-- Commit a result with `update(r)` (R20, R76). -/
def commitUpdate (rD : Reg) (r : Word) (s : State) : Res State := commit rD r (s.flags.update r) s

/-- `r = a + b`, written to `rD`, with `updateAdd` (R80, R85). -/
def addInto (rD : Reg) (a b : Word) (s : State) : Res State := commit rD (a + b) (Flags.updateAdd a b (a + b)) s

/-- `r = a - b`, written to `rD`, with `updateSub` (R81, R86). -/
def subInto (rD : Reg) (a b : Word) (s : State) : Res State := commit rD (a - b) (Flags.updateSub a b (a - b)) s

/-- The quotient (R83): signed and truncating toward zero, computed exactly and narrowed; or unsigned (`DIV_MODE`, D7). -/
def quotient (m : DivMode) (a b : Word) : Word :=
  match m with
  | .signed => BitVec.ofInt 32 (a.toInt.tdiv b.toInt)
  | .unsigned => BitVec.ofNat 32 (a.toNat / b.toNat)

/-- The remainder that goes with the quotient (R84). -/
def remainder (m : DivMode) (a b : Word) : Word :=
  match m with
  | .signed => BitVec.ofInt 32 (a.toInt - b.toInt * a.toInt.tdiv b.toInt)
  | .unsigned => BitVec.ofNat 32 (a.toNat % b.toNat)

/-- DIV and DIVI from their operands on (R83, R88): the divisor is checked before anything is written. -/
def divInto (rD : Reg) (a b : Word) (s : State) : Res State :=
  if b = 0#32 then raise .divByZero s else commitUpdate rD (quotient s.cfg.divMode a b) s

/-- MOD and MODI from their operands on (R84, R89). -/
def modInto (rD : Reg) (a b : Word) (s : State) : Res State :=
  if b = 0#32 then raise .divByZero s else commitUpdate rD (remainder s.cfg.divMode a b) s

/-- A unary instruction (R90 to R93). -/
def unaryInto (f : Word → Word) (rD : Reg) (s : State) : Res State :=
  (readReg rD s).bind fun a => commitUpdate rD (f a) s

/-- The result of a shift with its flags (R101, R102). -/
def commitShift (rD : Reg) (sh : Nat) (lastOut : Bool) (r : Word) (s : State) : Res State :=
  commit rD r (s.flags.updateShift sh lastOut r) s

/-- The flags alone are written: no register is (R111 to R114). -/
def flagsOnly (f : Flags) (s : State) : Res State := .next (s.setFlags f)

/-- A jump (R115): PC becomes the target if the predicate holds and else stays at the next instruction. -/
def jumpIf (taken : Bool) (target : Word) (s : State) : Res State := .next (if taken then s.setPc target else s)

/-- The address of element `i` of a block at `base` (R107, R108): modulo 2^32. -/
def elementAddress (base : Word) (i : Nat) : Word := base + BitVec.ofNat 32 (4 * i)

/-- The elements `i`, `i + 1`, … of MSET, `n` of them, ascending (R107). -/
def fillFrom (dst val : Word) (i n : Nat) (s : State) : Res State :=
  match n with
  | 0 => .next s
  | n + 1 => (memWrite (elementAddress dst i) val s).bind fun t => fillFrom dst val (i + 1) n t

/-- One element of MCPY (R108): read, then written, before the next is read. -/
def copyElement (dst src : Word) (i : Nat) (s : State) : Res State :=
  (memRead (elementAddress src i) s).bind fun p => memWrite (elementAddress dst i) p.1 p.2

/-- The elements `i`, `i + 1`, … of MCPY, `n` of them, ascending (R108). -/
def copyUp (dst src : Word) (i n : Nat) (s : State) : Res State :=
  match n with
  | 0 => .next s
  | n + 1 => (copyElement dst src i s).bind fun t => copyUp dst src (i + 1) n t

/-- The elements `n - 1`, `n - 2`, …, 0 of MCPY, descending (R108). -/
def copyDown (dst src : Word) (n : Nat) (s : State) : Res State :=
  match n with
  | 0 => .next s
  | n + 1 => (copyElement dst src n s).bind fun t => copyDown dst src n t

/-- MCPY copies backward when the destination overlaps the source ahead of it, in unbounded integers (R108). -/
def backward (dst src : Word) (count : Nat) : Bool :=
  decide (src.toNat < dst.toNat) && decide (dst.toNat < src.toNat + 4 * count)

end Sys2Proof.Machine
end

