-- ==== Sys2Proof/Machine/Arithmetic.lean ====
section
/-! DEFINITION. The arithmetic instructions (41_arithmetic.md, R80 to R89). -/

namespace Sys2Proof.Machine

/-- ADD (R80). -/
def execAdd (rD rS : Reg) (s : State) : Res State := (readRR rD rS s).bind fun p => addInto rD p.1 p.2 s

/-- SUB (R81). -/
def execSub (rD rS : Reg) (s : State) : Res State := (readRR rD rS s).bind fun p => subInto rD p.1 p.2 s

/-- MUL (R82): the low 32 bits of the product. -/
def execMul (rD rS : Reg) (s : State) : Res State := (readRR rD rS s).bind fun p => commitUpdate rD (p.1 * p.2) s

/-- DIV (R83). -/
def execDiv (rD rS : Reg) (s : State) : Res State := (readRR rD rS s).bind fun p => divInto rD p.1 p.2 s

/-- MOD (R84). -/
def execMod (rD rS : Reg) (s : State) : Res State := (readRR rD rS s).bind fun p => modInto rD p.1 p.2 s

/-- ADDI (R85). -/
def execAddi (rD : Reg) (imm : Word) (s : State) : Res State := (readRI rD imm s).bind fun p => addInto rD p.1 p.2 s

/-- SUBI (R86). -/
def execSubi (rD : Reg) (imm : Word) (s : State) : Res State := (readRI rD imm s).bind fun p => subInto rD p.1 p.2 s

/-- MULI (R87). -/
def execMuli (rD : Reg) (imm : Word) (s : State) : Res State :=
  (readRI rD imm s).bind fun p => commitUpdate rD (p.1 * p.2) s

/-- DIVI (R88). -/
def execDivi (rD : Reg) (imm : Word) (s : State) : Res State := (readRI rD imm s).bind fun p => divInto rD p.1 p.2 s

/-- MODI (R89). -/
def execModi (rD : Reg) (imm : Word) (s : State) : Res State := (readRI rD imm s).bind fun p => modInto rD p.1 p.2 s

end Sys2Proof.Machine
end

