-- ==== Sys2Proof/Machine/Compare.lean ====
section
/-! DEFINITION. The compare and test instructions (44_compare_jump.md, R111 to R114). -/

namespace Sys2Proof.Machine

/-- CMP (R111): `updateSub`, no register written. -/
def execCmp (rD rS : Reg) (s : State) : Res State :=
  (readRR rD rS s).bind fun p => flagsOnly (Flags.updateSub p.1 p.2 (p.1 - p.2)) s

/-- CMPI (R112). -/
def execCmpi (rD : Reg) (imm : Word) (s : State) : Res State :=
  (readRI rD imm s).bind fun p => flagsOnly (Flags.updateSub p.1 p.2 (p.1 - p.2)) s

/-- TEST (R113): `update(a & b)`, no register written. -/
def execTest (rD rS : Reg) (s : State) : Res State :=
  (readRR rD rS s).bind fun p => flagsOnly (s.flags.update (p.1 &&& p.2)) s

/-- TESTI (R114). -/
def execTesti (rD : Reg) (imm : Word) (s : State) : Res State :=
  (readRI rD imm s).bind fun p => flagsOnly (s.flags.update (p.1 &&& p.2)) s

end Sys2Proof.Machine
end

