-- ==== Sys2Proof/Machine/Control.lean ====
section
/-! DEFINITION. The call, return, stack and system instructions (45_call_stack_system.md, R133 to R139). -/

namespace Sys2Proof.Machine

/-- CALL (R133). -/
def execCall (imm : Word) (s : State) : Res State := enter imm s

/-- RET (R134): no flag changes. -/
def execRet (s : State) : Res State := leave s

/-- PUSH (R135): the operand is read before SP moves. -/
def execPush (rD : Reg) (s : State) : Res State := (readReg rD s).bind fun v => push v s

/-- POP (R136): SP has moved before the register is written (D12, C5). -/
def execPop (rD : Reg) (s : State) : Res State := (pop s).bind fun p => commitUpdate rD p.1 p.2

/-- The address of a syscall's table entry: `SYSCALL_TABLE_BASE + 4n` modulo 2^32 (R137, D22). -/
def syscallEntry (c : Config) (n : Word) : Word := BitVec.ofNat 32 c.syscallTableBase + 4#32 * n

/-- SYSCALL (R137, R165): the number is in `r0`; the range test is against the whole ROM (C12). -/
def execSyscall (s : State) : Res State :=
  let n := s.regs.get 0
  if Bank.holds s.cfg .rom (syscallEntry s.cfg n).toNat then
    (memRead (syscallEntry s.cfg n) s).bind fun p =>
      if p.1 = 0#32 then raise (.syscallNotImplemented n) p.2
      else if s.cfg.ioEnd ≤ p.1.toNat then raise (.syscallInvalidTarget p.1) p.2
      else enter p.1 p.2
  else raise (.syscallOutOfRange n) s

/-- NOP (R138): only the fetch's advance of PC. -/
def execNop (s : State) : Res State := .next s

/-- HLT (R139). -/
def execHlt (s : State) : Res State := .next (s.setHalt true)

end Sys2Proof.Machine
end

