-- ==== Sys2Proof/Machine/Jumps.lean ====
section
/-! DEFINITION. The 17 jumps (44_compare_jump.md, R115 to R132): absolute targets, no flag changed, V read by none. -/

namespace Sys2Proof.Machine

/-- JMP (R116): always. -/
def execJmp (imm : Word) (s : State) : Res State := jumpIf true imm s

/-- JZ (R117): Z. -/
def execJz (imm : Word) (s : State) : Res State := jumpIf s.flags.z imm s

/-- JE (R118): Z. -/
def execJe (imm : Word) (s : State) : Res State := jumpIf s.flags.z imm s

/-- JNZ (R119): ¬Z. -/
def execJnz (imm : Word) (s : State) : Res State := jumpIf (!s.flags.z) imm s

/-- JNE (R120): ¬Z. -/
def execJne (imm : Word) (s : State) : Res State := jumpIf (!s.flags.z) imm s

/-- JN (R121): N. -/
def execJn (imm : Word) (s : State) : Res State := jumpIf s.flags.n imm s

/-- JP (R122): ¬N. -/
def execJp (imm : Word) (s : State) : Res State := jumpIf (!s.flags.n) imm s

/-- JG (R123): ¬Z ∧ ¬N. -/
def execJg (imm : Word) (s : State) : Res State := jumpIf s.flags.greater imm s

/-- JGE (R124): ¬N. -/
def execJge (imm : Word) (s : State) : Res State := jumpIf (!s.flags.n) imm s

/-- JL (R125): N. -/
def execJl (imm : Word) (s : State) : Res State := jumpIf s.flags.n imm s

/-- JLE (R126): N ∨ Z. -/
def execJle (imm : Word) (s : State) : Res State := jumpIf s.flags.lessOrEqual imm s

/-- JC (R127): C. -/
def execJc (imm : Word) (s : State) : Res State := jumpIf s.flags.c imm s

/-- JNC (R128): ¬C. -/
def execJnc (imm : Word) (s : State) : Res State := jumpIf (!s.flags.c) imm s

/-- JA (R129): ¬C ∧ ¬Z. -/
def execJa (imm : Word) (s : State) : Res State := jumpIf s.flags.above imm s

/-- JAE (R130): ¬C. -/
def execJae (imm : Word) (s : State) : Res State := jumpIf (!s.flags.c) imm s

/-- JB (R131): C. -/
def execJb (imm : Word) (s : State) : Res State := jumpIf s.flags.c imm s

/-- JBE (R132): C ∨ Z. -/
def execJbe (imm : Word) (s : State) : Res State := jumpIf s.flags.belowOrEqual imm s

end Sys2Proof.Machine
end

