-- ==== Sys2Proof/Machine/Logic.lean ====
section
/-! DEFINITION. The unary, logical and shift instructions (42_unary_logic_shift.md, R90 to R102). What the five unary
mnemonics compute is the spec's choice (D8, notes/assumptions/11.md), and so is C after a shift (D9,
notes/assumptions/12.md). -/

namespace Sys2Proof.Machine

/-- INC (R90). -/
def execInc (rD : Reg) (s : State) : Res State := unaryInto (fun a => a + 1#32) rD s

/-- DEC (R91). -/
def execDec (rD : Reg) (s : State) : Res State := unaryInto (fun a => a - 1#32) rD s

/-- NEG (R92). -/
def execNeg (rD : Reg) (s : State) : Res State := unaryInto (fun a => 0#32 - a) rD s

/-- NOT (R93). -/
def execNot (rD : Reg) (s : State) : Res State := unaryInto (fun a => ~~~a) rD s

/-- CLR (R94): the old value is not read, so an illegal index is found at the write. -/
def execClr (rD : Reg) (s : State) : Res State := commitUpdate rD 0#32 s

/-- AND (R95). -/
def execAnd (rD rS : Reg) (s : State) : Res State := (readRR rD rS s).bind fun p => commitUpdate rD (p.1 &&& p.2) s

/-- OR (R96). -/
def execOr (rD rS : Reg) (s : State) : Res State := (readRR rD rS s).bind fun p => commitUpdate rD (p.1 ||| p.2) s

/-- XOR (R97). -/
def execXor (rD rS : Reg) (s : State) : Res State := (readRR rD rS s).bind fun p => commitUpdate rD (p.1 ^^^ p.2) s

/-- ANDI (R98). -/
def execAndi (rD : Reg) (imm : Word) (s : State) : Res State :=
  (readRI rD imm s).bind fun p => commitUpdate rD (p.1 &&& p.2) s

/-- ORI (R99). -/
def execOri (rD : Reg) (imm : Word) (s : State) : Res State :=
  (readRI rD imm s).bind fun p => commitUpdate rD (p.1 ||| p.2) s

/-- XORI (R100). -/
def execXori (rD : Reg) (imm : Word) (s : State) : Res State :=
  (readRI rD imm s).bind fun p => commitUpdate rD (p.1 ^^^ p.2) s

/-- SHL (R101): zeros enter at bit 0; C is the last bit shifted out of bit 31. -/
def execShl (rD : Reg) (count : Byte) (s : State) : Res State :=
  (readReg rD s).bind fun a =>
    commitShift rD (shiftCount count) (a.getLsbD (32 - shiftCount count)) (a <<< shiftCount count) s

/-- SHR (R102): zeros enter at bit 31; C is the last bit shifted out of bit 0. -/
def execShr (rD : Reg) (count : Byte) (s : State) : Res State :=
  (readReg rD s).bind fun a =>
    commitShift rD (shiftCount count) (a.getLsbD (shiftCount count - 1)) (a >>> shiftCount count) s

end Sys2Proof.Machine
end

