-- ==== Sys2Proof/Machine/Transfer.lean ====
section
/-! DEFINITION. The memory, block and data-move instructions (43_memory_block_move.md, R103 to R110). -/

namespace Sys2Proof.Machine

/-- LOAD (R103): `rS` holds the address; an illegal `rD` is found at the write, after the memory read. -/
def execLoad (rD rS : Reg) (s : State) : Res State :=
  (readReg rS s).bind fun addr => (memRead addr s).bind fun p => commitUpdate rD p.1 p.2

/-- STORE (R104): `rD` holds the value, `rS` the address. -/
def execStore (rD rS : Reg) (s : State) : Res State := (readRR rD rS s).bind fun p => memWrite p.2 p.1 s

/-- LOADI (R105): the immediate value itself; no memory access (D10, C7). -/
def execLoadi (rD : Reg) (imm : Word) (s : State) : Res State := commitUpdate rD imm s

/-- STORI (R106): `rD` holds the value, the immediate is the address. -/
def execStori (rD : Reg) (imm : Word) (s : State) : Res State := (readReg rD s).bind fun a => memWrite imm a s

/-- MSET (R107): `r1` counts the words. -/
def execMset (rD rS : Reg) (s : State) : Res State :=
  (readRR rD rS s).bind fun p => fillFrom p.1 p.2 0 (s.regs.get 1).toNat s

/-- MCPY (R108): `r1` counts the words. -/
def execMcpy (rD rS : Reg) (s : State) : Res State :=
  (readRR rD rS s).bind fun p =>
    if backward p.1 p.2 (s.regs.get 1).toNat then copyDown p.1 p.2 (s.regs.get 1).toNat s
    else copyUp p.1 p.2 0 (s.regs.get 1).toNat s

/-- MOV (R109). -/
def execMov (rD rS : Reg) (s : State) : Res State := (readReg rS s).bind fun b => commitUpdate rD b s

/-- MOVI (R110). -/
def execMovi (rD : Reg) (imm : Word) (s : State) : Res State := commitUpdate rD imm s

end Sys2Proof.Machine
end

