-- ==== Sys2Proof/Machine/Dispatch.lean ====
section
/-! DEFINITION. The dispatch: one arm per instruction, in the opcode table's order (R51, R72). -/

namespace Sys2Proof.Machine

/-- The semantic action of an instruction, on the state in which the fetch has advanced PC past it (R70). -/
def exec (i : Instr) (s : State) : Host.Outcome State Fault Refusal :=
  match i with
  | .add rD rS => Sys2Proof.Machine.execAdd rD rS s
  | .sub rD rS => Sys2Proof.Machine.execSub rD rS s
  | .mul rD rS => Sys2Proof.Machine.execMul rD rS s
  | .div rD rS => Sys2Proof.Machine.execDiv rD rS s
  | .mod rD rS => Sys2Proof.Machine.execMod rD rS s
  | .addi rD imm => Sys2Proof.Machine.execAddi rD imm s
  | .subi rD imm => Sys2Proof.Machine.execSubi rD imm s
  | .muli rD imm => Sys2Proof.Machine.execMuli rD imm s
  | .divi rD imm => Sys2Proof.Machine.execDivi rD imm s
  | .modi rD imm => Sys2Proof.Machine.execModi rD imm s
  | .inc rD => Sys2Proof.Machine.execInc rD s
  | .dec rD => Sys2Proof.Machine.execDec rD s
  | .neg rD => Sys2Proof.Machine.execNeg rD s
  | .not rD => Sys2Proof.Machine.execNot rD s
  | .clr rD => Sys2Proof.Machine.execClr rD s
  | .and rD rS => Sys2Proof.Machine.execAnd rD rS s
  | .or rD rS => Sys2Proof.Machine.execOr rD rS s
  | .xor rD rS => Sys2Proof.Machine.execXor rD rS s
  | .andi rD imm => Sys2Proof.Machine.execAndi rD imm s
  | .ori rD imm => Sys2Proof.Machine.execOri rD imm s
  | .xori rD imm => Sys2Proof.Machine.execXori rD imm s
  | .shl rD count => Sys2Proof.Machine.execShl rD count s
  | .shr rD count => Sys2Proof.Machine.execShr rD count s
  | .load rD rS => Sys2Proof.Machine.execLoad rD rS s
  | .store rD rS => Sys2Proof.Machine.execStore rD rS s
  | .loadi rD imm => Sys2Proof.Machine.execLoadi rD imm s
  | .stori rD imm => Sys2Proof.Machine.execStori rD imm s
  | .mset rD rS => Sys2Proof.Machine.execMset rD rS s
  | .mcpy rD rS => Sys2Proof.Machine.execMcpy rD rS s
  | .mov rD rS => Sys2Proof.Machine.execMov rD rS s
  | .movi rD imm => Sys2Proof.Machine.execMovi rD imm s
  | .cmp rD rS => Sys2Proof.Machine.execCmp rD rS s
  | .cmpi rD imm => Sys2Proof.Machine.execCmpi rD imm s
  | .test rD rS => Sys2Proof.Machine.execTest rD rS s
  | .testi rD imm => Sys2Proof.Machine.execTesti rD imm s
  | .jmp imm => Sys2Proof.Machine.execJmp imm s
  | .jz imm => Sys2Proof.Machine.execJz imm s
  | .je imm => Sys2Proof.Machine.execJe imm s
  | .jnz imm => Sys2Proof.Machine.execJnz imm s
  | .jne imm => Sys2Proof.Machine.execJne imm s
  | .jn imm => Sys2Proof.Machine.execJn imm s
  | .jp imm => Sys2Proof.Machine.execJp imm s
  | .jg imm => Sys2Proof.Machine.execJg imm s
  | .jge imm => Sys2Proof.Machine.execJge imm s
  | .jl imm => Sys2Proof.Machine.execJl imm s
  | .jle imm => Sys2Proof.Machine.execJle imm s
  | .jc imm => Sys2Proof.Machine.execJc imm s
  | .jnc imm => Sys2Proof.Machine.execJnc imm s
  | .ja imm => Sys2Proof.Machine.execJa imm s
  | .jae imm => Sys2Proof.Machine.execJae imm s
  | .jb imm => Sys2Proof.Machine.execJb imm s
  | .jbe imm => Sys2Proof.Machine.execJbe imm s
  | .call imm => Sys2Proof.Machine.execCall imm s
  | .ret => Sys2Proof.Machine.execRet s
  | .push rD => Sys2Proof.Machine.execPush rD s
  | .pop rD => Sys2Proof.Machine.execPop rD s
  | .syscall => Sys2Proof.Machine.execSyscall s
  | .nop => Sys2Proof.Machine.execNop s
  | .hlt => Sys2Proof.Machine.execHlt s

end Sys2Proof.Machine
end

