-- ==== Sys2Proof/Machine/Fetch.lean ====
section
/-! DEFINITION. Fetching an instruction (R70 to R72), and placing one where the next step fetches it. -/

namespace Sys2Proof.Machine

/-- Read the word at PC over the bus and advance PC by 4 (R16, R70). When the read raises, PC has not advanced (R71). -/
def fetchWord (s : State) : Res (Word × State) :=
  (memRead s.pc s).bind fun p => .next (p.1, p.2.setPc (p.2.pc + 4#32))

/-- Fetch all words of the instruction at PC (R70): with the instruction comes the state in which PC stands past it. -/
def fetch (s : State) : Res (Instr × State) :=
  (fetchWord s).bind fun p =>
    match decodeHead p.2.cfg p.1 with
    | .unknown op => raise (.unknownOpcode op) p.2
    | .oneWord i => .next (i, p.2)
    | .twoWords k => (fetchWord p.2).bind fun q => .next (k q.1, q.2)

/-- The memory with bytes placed from PC up. -/
def placeAtPc (bytes : List Byte) (s : State) : State := s.setMem (s.mem.writeBytes s.pc.toNat bytes)

end Sys2Proof.Machine
end

