-- ==== Sys2Proof/Machine/Step.lean ====
section
/-! DEFINITION. One step of the machine (R70). -/

namespace Sys2Proof.Machine

/-- `step()` (R70): fetch the instruction at PC, then run it. A halted core has no step (R24, R178, D15;
notes/assumptions/17.md). -/
def step (s : State) : Host.Outcome State Fault Refusal :=
  if s.halt then raise .halted s else (fetch s).bind fun p => exec p.1 p.2

/-- The state with an instruction whose bits are `w` stored where the next step fetches it (notes/assumptions/27.md). -/
def State.withFetchWord (s : State) (nbits w : Nat) : State := placeAtPc (tableBytes nbits w) s

end Sys2Proof.Machine
end

