-- ==== Sys2Proof/Machine/HostApi.lean ====
section
/-! DEFINITION. The operations the host has on the core (70_reset_and_hazards.md, R170 to R177), the outside agents' own
steps (R154, R159), the loader's effect (R172, R173) and the pixels of VRAM (R34). `step` calls none of them: during a
run the host writes nothing (R177, D32; notes/assumptions/28.md). A read answers a value and no state: reads never change
state (R177), so no poll of the host's moves the outside agents' schedule, whose slots are the CPU's own accesses (R160);
nor do the host's writes, made before the run. -/

namespace Sys2Proof.Machine

/-- `new_cpu(...)` (R170, R174): reset is construction. -/
def newCpu (c : Config) : State := State.resetWith c

/-- `io_register(device)` (R148, R174): the device is placed after those already registered; done before
the run. A second registration, or one after a base was set freely: DESIGN CHOICE, notes/assumptions/36.md. -/
def ioRegister (d : Device) (s : State) : State := { s with cfg := s.cfg.register d }

/-- `is_halted()` (R174). -/
def isHalted (s : State) : Bool := s.halt

/-- `register_read(i)` (R174): honours the indices of PC, SP and HP. -/
def registerRead (i : Byte) (s : State) : Res Word := readReg (Reg.ofIndex s.cfg.aliases i) s

/-- `register_write(i, v)` (R174). -/
def registerWrite (i : Byte) (v : Word) (s : State) : Res State := writeReg (Reg.ofIndex s.cfg.aliases i) v s

/-- `flags()` (R174). -/
def flagsOf (s : State) : Flags := s.flags

/-- `bus_read_byte(addr)` (R38, R174, R177). -/
def hostReadByte (a : Word) (s : State) : Res Byte := busReadByte a s

/-- `bus_read_word(addr)` (R36, R174, R177). -/
def hostReadWord (a : Word) (s : State) : Res Word := busReadWord a s

/-- `bus_write_byte(addr, v)` (R39, R174), with the device's side effect. -/
def hostWriteByte (a : Word) (v : Byte) (s : State) : Res State := busWriteByte a v s

/-- `bus_write_word(addr, v)` (R37, R174), with the device's side effect. -/
def hostWriteWord (a v : Word) (s : State) : Res State := busWriteWord a v s

/-- The public `push(v)` (R74, R174). -/
def hostPush (v : Word) (s : State) : Res State :=
  if (s.sp - 4#32).toNat ≤ s.hp.toNat then
    raise (.heapStackCollision (s.sp - 4#32).toNat) (s.setSp (s.sp - 4#32))
  else hostWriteWord (s.sp - 4#32) v (s.setSp (s.sp - 4#32))

/-- The public `pop()` (R75, R174). -/
def hostPop (s : State) : Res (Word × State) :=
  (hostReadWord s.sp s).bind fun v => .next (v, s.setSp (s.sp + 4#32))

/-- `n` rounded up to a multiple of 4 (R175). -/
def roundUp4 (n : Nat) : Nat := (n + 3) / 4 * 4

/-- `allocate_heap(n)` (R175): in unbounded integers; a failed call changes nothing. -/
def allocateHeap (n : Nat) (s : State) : Res (Word × State) :=
  if s.sp.toNat ≤ s.hp.toNat + roundUp4 n then raise (.heapStackCollision n) s
  else .next (s.hp, s.setHp (s.hp + BitVec.ofNat 32 (roundUp4 n)))

/-- `jump(addr)` (R176): no check here; the next fetch checks. -/
def hostJump (a : Word) (s : State) : State := s.setPc a

/-- The host types a character, through the keyboard's own handle (R154, R174). -/
def hostType (c : Word) (s : State) : State := s.agentStep (.enqueue c)

/-- The timer agent ticks (R159). -/
def timerTick (d : Nat) (s : State) : State := s.agentStep (.tick d)

/-- The loader's direct region write (R173): it writes ROM too, makes no alignment check, and an address outside the
region raises `AddressOutOfRange`. -/
def directWrite (b : Bank) (a : Word) (v : Byte) (s : State) : Res State :=
  if b.holds s.cfg a.toNat then .next (s.setMem (s.mem.write a.toNat v)) else raise (.addressOutOfRange a) s

/-- A run of bytes written from an address up on the direct region path (R173). -/
def directWrites (b : Bank) (a : Word) (vs : List Byte) (s : State) : Res State :=
  match vs with
  | [] => .next s
  | v :: vs => (directWrite b a v s).bind fun t => directWrites b (a + 1#32) vs t

/-- The initial state of a run (R172): the reset state with `ROM_IMAGE` and `RAM_IMAGE` placed from the bases of their
regions, PC at the entry point, and the outside agents' steps given (R154, R159). An image longer than its region raises
`AddressOutOfRange`. -/
def boot (c : Config) (romImage ramImage : List Byte) (entry : Word) (schedule : List (List AgentEvent)) : Res State :=
  (directWrites .rom (BitVec.ofNat 32 c.romBase) romImage (State.resetWith c)).bind fun s =>
  (directWrites .ram (BitVec.ofNat 32 c.ramBase) ramImage s).bind fun s =>
  .next { s with pc := entry, schedule := schedule }

/-- The areas of the memory map that the spec names (R31, R32). -/
inductive MapArea where
  | rom
  | syscallTable
  | syscallCode
  | ram
  | vram
  | io
deriving DecidableEq, Repr

/-- The query interface for the boundaries of the memory map (R174): the first address of an area and the first one past
it. -/
def mapArea (c : Config) : MapArea → Nat × Nat
  | .rom => (c.romBase, c.romBase + c.romSize)
  | .syscallTable => (c.syscallTableBase, c.syscallTableBase + 4 * c.syscallSlots)
  | .syscallCode => (c.syscallCodeBase, c.syscallCodeBase + c.syscallCodeSize)
  | .ram => (c.ramBase, c.ramEnd)
  | .vram => (c.vramBase, c.vramBase + c.vramSize)
  | .io => (c.ioBase, c.ioEnd)

/-- The address of the pixel in column `x` of row `y` (R34). -/
def pixelAddress (c : Config) (x y : Nat) : Nat := c.vramBase + (y * c.vramWidth + x) * 4

/-- The pixel in column `x` of row `y` as R, G, B, A (R34). -/
def pixel (x y : Nat) (s : State) : Byte × Byte × Byte × Byte :=
  let a := pixelAddress s.cfg x y
  (s.mem.read a, s.mem.read (a + 1), s.mem.read (a + 2), s.mem.read (a + 3))

/-- The pixels of VRAM as the host sees them (R34, R178): row by row from the top, each row from the left. -/
def frame (s : State) : List (List (Byte × Byte × Byte × Byte)) :=
  (List.range s.cfg.vramHeight).map fun y => (List.range s.cfg.vramWidth).map fun x => pixel x y s

end Sys2Proof.Machine
end

