-- ==== Sys2Proof/Safety.lean ====
section
/-! DEFINITION. What holds of every state a machine can be in, and how a run can end (R178), in the terms the statements
use. -/

namespace Sys2Proof.Machine

/-- The memory is canonical and lists only addresses of ROM, RAM and VRAM (R27). -/
def State.memoryWf (s : State) : Prop := s.mem.wf = true ∧ ∀ p ∈ s.mem, p.1 < s.cfg.ioBase

/-- The keyboard holds at most `KBD_CAPACITY` characters (R151). -/
def State.keyboardWf (s : State) : Prop := s.kbd.queue.length ≤ s.cfg.kbdCapacity

/-- Z and N are not both set: no update function sets both (R20 to R22; 95_test_vectors.md Part 2.5). -/
def State.flagsWf (s : State) : Prop := ¬(s.flags.z = true ∧ s.flags.n = true)

/-- What every machine keeps: a legal configuration, a canonical memory, a keyboard within its capacity, flags that an
update function can produce. -/
structure State.Inv (s : State) : Prop where
  /-- The configuration is legal (R5, R51). -/
  config : s.cfg.wf
  /-- The memory is canonical (R27). -/
  memory : s.memoryWf
  /-- The keyboard is within its capacity (R151). -/
  keyboard : s.keyboardWf
  /-- Z and N are not both set (R20 to R22). -/
  flags : s.flagsWf

/-- The catalog numbers of the two-word instructions, as R52 lists them. -/
def twoWordNumber (n : Nat) : Bool :=
  (6 ≤ n && n ≤ 10) || (19 ≤ n && n ≤ 21) || n = 26 || n = 27 || n = 31 || n = 33 || n = 35 || (36 ≤ n && n ≤ 53)

/-- The state a fault left behind (R77, R143). -/
def Fault.left : Fault → State
  | .divByZero s => s
  | .unknownOpcode _ s => s
  | .invalidRegister _ s => s
  | .misalignedAccess _ s => s
  | .invalidAddress _ s => s
  | .romWrite _ s => s
  | .addressOutOfRange _ s => s
  | .heapStackCollision _ s => s
  | .syscallOutOfRange _ s => s
  | .syscallNotImplemented _ s => s
  | .syscallInvalidTarget _ s => s
  | .halted s => s

/-- A fault of the same kind with the same information, its state changed by `g` (R142, R144). -/
def Fault.mapLeft (g : State → State) : Fault → Fault
  | .divByZero s => .divByZero (g s)
  | .unknownOpcode x s => .unknownOpcode x (g s)
  | .invalidRegister x s => .invalidRegister x (g s)
  | .misalignedAccess x s => .misalignedAccess x (g s)
  | .invalidAddress x s => .invalidAddress x (g s)
  | .romWrite x s => .romWrite x (g s)
  | .addressOutOfRange x s => .addressOutOfRange x (g s)
  | .heapStackCollision x s => .heapStackCollision x (g s)
  | .syscallOutOfRange x s => .syscallOutOfRange x (g s)
  | .syscallNotImplemented x s => .syscallNotImplemented x (g s)
  | .syscallInvalidTarget x s => .syscallInvalidTarget x (g s)
  | .halted s => .halted (g s)

/-- The faults a push raises (R74): the collision, and those of its store. -/
def Fault.ofPush : Fault → Bool
  | .heapStackCollision _ _ | .misalignedAccess _ _ | .invalidAddress _ _ | .romWrite _ _ => true
  | _ => false

/-- The fault of a register index that names no register (R13, R14). -/
def Fault.ofIndex : Fault → Bool
  | .invalidRegister _ _ => true
  | _ => false

/-- SP after a fault, from SP before it, by the table of R143: a push that faults has moved SP down, POP has moved SP up
when its destination turns out to be illegal, and no other fault finds SP moved. -/
def spAfterFault (i : Instr) (f : Fault) (sp : Word) : Word :=
  match i with
  | .push _ | .call _ | .syscall => if f.ofPush then sp - 4#32 else sp
  | .pop _ => if f.ofIndex then sp + 4#32 else sp
  | _ => sp

/-- `t` agrees with `s` on everything but the registers and the flags. -/
structure SameBeyondRegisters (s t : State) : Prop where
  halt : t.halt = s.halt
  mem : t.mem = s.mem
  kbd : t.kbd = s.kbd
  con : t.con = s.con
  tmr : t.tmr = s.tmr
  schedule : t.schedule = s.schedule
  cfg : t.cfg = s.cfg

/-- `t` has the registers, flags, halt bit and configuration of `s`: only memory, devices and the schedule may differ. -/
structure SameCpu (s t : State) : Prop where
  regs : t.regs = s.regs
  pc : t.pc = s.pc
  sp : t.sp = s.sp
  hp : t.hp = s.hp
  flags : t.flags = s.flags
  halt : t.halt = s.halt
  cfg : t.cfg = s.cfg

/-- From `s` to `t` the devices are what the outside agents made of them in the next `n` slots (R160), and the console
is untouched. -/
structure AgentsOnly (n : Nat) (s t : State) : Prop where
  kbd : t.kbd = (State.agentsAct^[n] s).kbd
  tmr : t.tmr = (State.agentsAct^[n] s).tmr
  schedule : t.schedule = (State.agentsAct^[n] s).schedule
  con : t.con = s.con

/-- From `s` to `t` the memory got the word `v` at the four addresses from `a` up, lowest byte first (R37, R40): every
other byte reads as before, and a canonical memory stays canonical and holds the word's bytes. -/
structure StoredWord (s t : State) (a : Nat) (v : Word) : Prop where
  others : ∀ x, x < a ∨ a + 4 ≤ x → t.mem.read x = s.mem.read x
  bytes : s.mem.wf = true → ∀ k < 4, t.mem.read (a + k) = byteOfWord v k
  canonical : s.mem.wf = true → t.mem.wf = true

/-- The word an aligned read below `IO_END` finds at `a` (R36). -/
def State.wordAt (s : State) (a : Word) : Word :=
  if a.toNat < s.cfg.ioBase then s.mem.readWord a.toNat else ioReadWord a s

/-- `a` is a word's address in RAM or VRAM: where a store through the bus changes memory (R31, R37). -/
def State.writableWord (s : State) (a : Word) : Prop :=
  a.toNat % 4 = 0 ∧ s.cfg.ramBase ≤ a.toNat ∧ a.toNat < s.cfg.ioBase

/-- `a` is a word's address in the I/O window (R31). -/
def State.ioWord (s : State) (a : Word) : Prop :=
  a.toNat % 4 = 0 ∧ s.cfg.ioBase ≤ a.toNat ∧ a.toNat < s.cfg.ioEnd

/-- `a` is a word's address that a read answers (R31, R36). -/
def State.readableWord (s : State) (a : Word) : Prop := a.toNat % 4 = 0 ∧ a.toNat < s.cfg.ioEnd

/-- The state once the word `v` has been stored at an aligned address `a` of RAM, VRAM or the I/O window (R37). -/
def State.storeWord (s : State) (a v : Word) : State :=
  if a.toNat < s.cfg.ioBase then s.setMem (s.mem.writeWord a.toNat v) else ioWriteWord a v s

/-- The address of the syscall table's entry for the number in `r0` (R137). -/
def State.syscallEntryAt (s : State) : Word := BitVec.ofNat 32 s.cfg.syscallTableBase + 4#32 * s.regs.get 0

/-- The handler address in that entry (R137). -/
def State.syscallTarget (s : State) : Word := s.mem.readWord s.syscallEntryAt.toNat

/-- SYSCALL passes its own three checks (R137): the entry lies in ROM, is not 0, and holds a populated address. -/
def State.syscallPasses (s : State) : Prop :=
  s.cfg.romBase ≤ s.syscallEntryAt.toNat ∧ s.syscallEntryAt.toNat < s.cfg.romBase + s.cfg.romSize ∧
    s.syscallTarget ≠ 0#32 ∧ s.syscallTarget.toNat < s.cfg.ioEnd

/-- A push finds HP below the new SP (R74). -/
def State.roomToPush (s : State) : Prop := s.hp.toNat < (s.sp - 4#32).toNat

/-- From `s` to `t`, register `r` and nothing else among the registers (PC, SP and HP included) got the value `v`. -/
def WroteOnly (s t : State) (r : Reg) (v : Word) : Prop :=
  t.reg? r = some v ∧ ∀ r', r' ≠ r → t.reg? r' = s.reg? r'

/-- The elements `n - 1`, `n - 2`, … of MCPY, `done` of them, descending: what a copy downward has done before its next
element (R108). -/
def copyTop (dst src : Word) (n done : Nat) (s : State) : Res State :=
  match done with
  | 0 => .next s
  | done + 1 => (copyElement dst src (n - 1) s).bind fun t => copyTop dst src (n - 1) done t

/-- The instructions whose semantic action never accesses the bus. -/
def registerOnly : Instr → Bool
  | .load .. | .store .. | .stori .. | .mset .. | .mcpy .. | .call _ | .ret | .push _ | .pop _ | .syscall => false
  | _ => true

/-- What an instruction does to the flags, by the table of R23. -/
inductive FlagEffect where
  /-- No flag changes. -/
  | keepsAll
  /-- Z and N from the result; C and V stay. -/
  | zeroNegative
  /-- Z and N from the result, C maybe; V stays. -/
  | shift
  /-- All four. -/
  | all
deriving DecidableEq, Repr

/-- The table of R23. -/
def flagEffect : Instr → FlagEffect
  | .add .. | .addi .. | .sub .. | .subi .. | .cmp .. | .cmpi .. => .all
  | .mul .. | .muli .. | .div .. | .divi .. | .mod .. | .modi .. => .zeroNegative
  | .inc _ | .dec _ | .neg _ | .not _ | .clr _ => .zeroNegative
  | .and .. | .or .. | .xor .. | .andi .. | .ori .. | .xori .. | .test .. | .testi .. => .zeroNegative
  | .shl .. | .shr .. => .shift
  | .mov .. | .movi .. | .load .. | .loadi .. | .pop _ => .zeroNegative
  | _ => .keepsAll

/-- The instructions that move SP without naming it (R15). -/
def movesSp : Instr → Bool
  | .call _ | .ret | .push _ | .pop _ | .syscall => true
  | _ => false

/-- `t` is reached from `s` by successful steps. -/
inductive Reaches : State → State → Prop where
  | refl (s : State) : Reaches s s
  | step {s t u : State} (h : Reaches s t) (h' : Machine.step t = .next u) : Reaches s u

/-- How a run ends (R178). -/
inductive RunEnds : State → Prop where
  /-- A step executed HLT: the state is final. -/
  | halted (s : State) (h : s.halt = true) : RunEnds s
  /-- The step raises a fault. -/
  | faulted (s : State) (k : Fault) (h : s.halt = false) (h' : Machine.step s = .fault k) : RunEnds s

end Sys2Proof.Machine
end

