-- ==== Sys2Proof/Certificates/Slice0/Obligations.lean ====
section
/-! DEFINITION. The statements put to the provers. Each docstring names the rules of spec/ it speaks of; "DESIGN CHOICE" and
"D<n>" mark what is the model's or the spec's own choice, with its log entry. -/

open Sys2Proof Sys2Proof.Machine

/-! ### Encoding -/

/-- A few words written out from R46 and R51 decode to the instructions they stand for (opcode numbers: D2, entry 7); the
last NOP has junk in the fields NOP does not use, which are ignored by the spec's choice D11 (R50, DESIGN CHOICE,
entry 14). -/
def Obligations.SampleWordsDecode : Prop :=
  decodeTableWord 32 0x01020001 = some (.add (.gpr 1) (.gpr 2)) ∧
    decodeTableWord 64 0xFFFFFFF0FD000006 = some (.addi .sp 0xFFFFFFF0#32) ∧
    decodeTableWord 32 0x01210017 = some (.shr (.gpr 1) 33#8) ∧
    decodeTableWord 32 0x20210018 = some (.load (.illegal 32#8) (.illegal 33#8)) ∧
    decodeTableWord 64 0x0000201800000027 = some (.jnz 0x2018#32) ∧
    decodeTableWord 32 0xFFFFFF3A = some .nop ∧ decodeTableWord 32 0x0000003C = none

/-- Decoding the bytes of a well-formed instruction gives it back, whatever follows it, under every opcode map that
gives the 59 instructions a byte each and every choice of the three register aliases (R5, R13, R46 to R53, R57, R61). -/
def Obligations.DecodeEncodeAgree : Prop :=
  ∀ c : Config, c.codecWf → ∀ i : Instr, i.wf c.aliases = true → ∀ rest : List Byte,
    decodeWith c (encodeBytesWith c i ++ rest) = .ok (i, rest)

/-- What a word decodes to is well formed, and its encoding selects the same instruction and keeps the immediate
(R46, R51, R53, R61). -/
def Obligations.DecodedInstructionReencodes : Prop :=
  ∀ c : Config, c.codecWf → ∀ w : Word,
    (∀ i, decodeHead c w = .oneWord i →
      i.wf c.aliases = true ∧
        ∃ w', encodeWith c i = [w'] ∧ opcodeField w' = opcodeField w ∧ decodeHead c w' = .oneWord i) ∧
    (∀ k, decodeHead c w = .twoWords k → ∀ imm : Word,
      (k imm).wf c.aliases = true ∧
        ∃ w', encodeWith c (k imm) = [w', imm] ∧ opcodeField w' = opcodeField w ∧ decodeHead c w' = .twoWords k)

/-- The reserved byte and the fields a format does not use take no part in decoding (R50; the unused fields by D11,
entry 14): a word with the same opcode byte, and the same fields where they are used, decodes alike. -/
def Obligations.UnusedBitsAreIgnored : Prop :=
  ∀ (c : Config) (w w' : Word), opcodeField w' = opcodeField w →
    (∀ i, decodeHead c w = .oneWord i → (i.regs ≠ [] → rDField w' = rDField w) →
      ((i.regs.length = 2 ∨ ∃ d n, i = .shl d n ∨ i = .shr d n) → rSField w' = rSField w) →
      decodeHead c w' = .oneWord i) ∧
    (∀ k, decodeHead c w = .twoWords k → (∀ imm, (k imm).regs ≠ [] → rDField w' = rDField w) →
      decodeHead c w' = .twoWords k)

/-- The opcode byte alone decides whether a word is an instruction, which one, and how long it is: byte n from 1 to 59
selects the catalog's instruction number n (R50, R51, R52, R54, R72; opcode numbers: D2, entry 7). -/
def Obligations.OpcodeByteSelectsLength : Prop :=
  ∀ w : Word,
    let n := (opcodeField w).toNat
    if n = 0 ∨ 60 ≤ n then decodeHead Config.layoutA w = .unknown (opcodeField w)
    else if twoWordNumber n = true then
      ∃ k, decodeHead Config.layoutA w = .twoWords k ∧ ∀ imm al, ((k imm).fields al).number = n
    else ∃ i, decodeHead Config.layoutA w = .oneWord i ∧ ∀ al, (i.fields al).number = n

/-! ### The step -/

/-- A step of a core that is not halted is the semantic action of the instruction it fetched, on the state in which the
fetch left PC past the instruction; a fault of the second word's fetch is the step's (R70, R71, R72). -/
def Obligations.StepRunsFetchedInstruction : Prop :=
  ∀ s t : State, ∀ w0 : Word, s.halt = false → fetchWord s = .next (w0, t) →
    (∀ i, decodeHead t.cfg w0 = .oneWord i → step s = exec i t) ∧
    (∀ k, decodeHead t.cfg w0 = .twoWords k →
      (∀ w1 u, fetchWord t = .next (w1, u) → step s = exec (k w1) u) ∧
      (∀ f, fetchWord t = .fault f → step s = .fault f)) ∧
    (∀ op, decodeHead t.cfg w0 = .unknown op → step s = .fault (.unknownOpcode op t))

/-- When the bytes at PC in ROM, RAM or VRAM decode to an instruction, the step runs it: PC stands 4 or 8 past the
instruction's address, and before each of its words the outside agents have acted (R16, R45, R57, R70, R160). -/
def Obligations.StepRunsBytesAtPc : Prop :=
  ∀ (s : State) (i : Instr) (rest : List Byte), s.cfg.wf → s.halt = false → s.pc.toNat % 4 = 0 →
    decodeWith s.cfg ((List.range 8).map fun k => s.mem.read (s.pc.toNat + k)) = .ok (i, rest) →
    (rest.length = 4 → s.pc.toNat < s.cfg.ioBase → step s = exec i (s.agentsAct.setPc (s.pc + 4#32))) ∧
    (rest.length = 0 → s.pc.toNat + 4 < s.cfg.ioBase →
      step s = exec i (s.agentsAct.agentsAct.setPc (s.pc + 8#32)))

/-- How a step ends before an instruction runs. A halted core has no step (R24, R178; that the model answers with the
reason `halted` is a DESIGN CHOICE after D15, entry 17). A fetch at a misaligned or unmapped PC raises with PC not
advanced (R71; the alignment fault: D4, entry 8); an unregistered opcode byte raises with PC advanced by 4 (R54, R72). -/
def Obligations.StepStopsBeforeExecution : Prop :=
  ∀ s : State, (s.halt = true → step s = .fault (.halted s)) ∧ (s.cfg.wf → s.halt = false →
    (s.pc.toNat % 4 ≠ 0 → s.cfg.misaligned = .fault → step s = .fault (.misalignedAccess s.pc s.agentsAct)) ∧
    (s.pc.toNat % 4 = 0 → s.cfg.ioEnd ≤ s.pc.toNat → step s = .fault (.invalidAddress s.pc s.agentsAct)) ∧
    (s.pc.toNat % 4 = 0 → s.pc.toNat < s.cfg.ioBase → s.mem.read s.pc.toNat ∉ s.cfg.opcodeMap →
      step s = .fault (.unknownOpcode (s.mem.read s.pc.toNat) (s.agentsAct.setPc (s.pc + 4#32)))))

/-! ### Registers -/

/-- R13: what each index reads, and which indices raise; 252 reads the PC that the fetch has advanced. (The aliases are
R13's, not another configuration's.) -/
def Obligations.RegisterIndexReads : Prop :=
  ∀ s : State, s.cfg.aliases = Aliases.standard →
    (∀ n : Fin 32, registerRead (BitVec.ofNat 8 n.val) s = .next (s.regs.get n)) ∧
    registerRead 252#8 s = .next s.pc ∧ registerRead 253#8 s = .next s.sp ∧ registerRead 254#8 s = .next s.hp ∧
    (∀ i : Byte, (32 ≤ i.toNat ∧ i.toNat ≤ 251) ∨ i.toNat = 255 →
      registerRead i s = .fault (.invalidRegister i s)) ∧
    (∀ w t, fetchWord s = .next (w, t) → registerRead 252#8 t = .next (s.pc + 4#32))

/-- R14: a legal index writes its register alone, with no check on the value; every other index raises with nothing
written. (The aliases are R13's, not another configuration's.) -/
def Obligations.RegisterIndexWrites : Prop :=
  ∀ (s : State) (i : Byte) (v : Word), s.cfg.aliases = Aliases.standard →
    if i.toNat < 32 ∨ (252 ≤ i.toNat ∧ i.toNat ≤ 254) then
      ∃ t, registerWrite i v s = .next t ∧ WroteOnly s t (Reg.ofIndex Aliases.standard i) v ∧ t.flags = s.flags ∧
        SameBeyondRegisters s t ∧ (i = 252#8 → t.pc = v) ∧ (i = 253#8 → t.sp = v) ∧ (i = 254#8 → t.hp = v)
    else registerWrite i v s = .fault (.invalidRegister i s)

/-! ### Flags -/

/-- R20: `update(r)` sets Z and N from the result and leaves C and V. -/
def Obligations.UpdateSetsZeroAndNegative : Prop :=
  ∀ (f : Flags) (r : Word),
    ((f.update r).z = true ↔ r = 0#32) ∧ ((f.update r).n = true ↔ r.toInt < 0) ∧ (f.update r).n = r.getLsbD 31 ∧
      (f.update r).c = f.c ∧ (f.update r).v = f.v

/-- R21: after an addition C is the unsigned carry and V the signed overflow, which is when `a` and `b` have one sign and
the sum the other. -/
def Obligations.AdditionFlags : Prop :=
  ∀ a b : Word,
    let f := Flags.updateAdd a b (a + b)
    (f.z = true ↔ a + b = 0#32) ∧ f.n = (a + b).getLsbD 31 ∧
      (f.c = true ↔ 2 ^ 32 ≤ a.toNat + b.toNat) ∧
      (f.v = true ↔ ((a ^^^ (a + b)) &&& (b ^^^ (a + b)) &&& 0x80000000#32) ≠ 0#32) ∧
      (f.v = true ↔ a.msb = b.msb ∧ (a + b).msb ≠ a.msb) ∧
      (f.v = true ↔ a.toInt + b.toInt < -2 ^ 31 ∨ 2 ^ 31 ≤ a.toInt + b.toInt)

/-- R22: after a subtraction C is the borrow and V the signed overflow, which is when `a` and `b` differ in sign and the
difference differs in sign from `a`. -/
def Obligations.SubtractionFlags : Prop :=
  ∀ a b : Word,
    let f := Flags.updateSub a b (a - b)
    (f.z = true ↔ a - b = 0#32) ∧ f.n = (a - b).getLsbD 31 ∧
      (f.c = true ↔ a.toNat < b.toNat) ∧
      (f.v = true ↔ ((a ^^^ b) &&& (a ^^^ (a - b)) &&& 0x80000000#32) ≠ 0#32) ∧
      (f.v = true ↔ a.msb ≠ b.msb ∧ (a - b).msb ≠ a.msb) ∧
      (f.v = true ↔ a.toInt - b.toInt < -2 ^ 31 ∨ 2 ^ 31 ≤ a.toInt - b.toInt)

/-! ### Arithmetic, logic, moves -/

/-- ADD, ADDI, SUB, SUBI complete: the destination gets the wrapped sum or difference, all four flags follow, nothing
else changes (R80, R81, R85, R86). -/
def Obligations.AddSubResults : Prop :=
  ∀ (s : State) (rD : Reg) (a : Word), s.reg? rD = some a →
    (∀ (rS : Reg) (b : Word), s.reg? rS = some b →
      (∃ t, exec (.add rD rS) s = .next t ∧ WroteOnly s t rD (a + b) ∧ t.flags = Flags.updateAdd a b (a + b) ∧
        SameBeyondRegisters s t) ∧
      (∃ t, exec (.sub rD rS) s = .next t ∧ WroteOnly s t rD (a - b) ∧ t.flags = Flags.updateSub a b (a - b) ∧
        SameBeyondRegisters s t)) ∧
    (∀ imm : Word,
      (∃ t, exec (.addi rD imm) s = .next t ∧ WroteOnly s t rD (a + imm) ∧
        t.flags = Flags.updateAdd a imm (a + imm) ∧ SameBeyondRegisters s t) ∧
      (∃ t, exec (.subi rD imm) s = .next t ∧ WroteOnly s t rD (a - imm) ∧
        t.flags = Flags.updateSub a imm (a - imm) ∧ SameBeyondRegisters s t))

/-- MUL, AND, OR, XOR and their immediate forms complete: the destination gets the result, Z and N follow it, C, V and
everything else stay (R82, R87, R95 to R100). -/
def Obligations.MulLogicResults : Prop :=
  ∀ (s : State) (rD : Reg) (a b : Word), s.reg? rD = some a →
    (∀ p ∈ [(Instr.mul, a * b), (Instr.and, a &&& b), (Instr.or, a ||| b), (Instr.xor, a ^^^ b)],
      ∀ rS : Reg, s.reg? rS = some b →
        ∃ t, exec (p.1 rD rS) s = .next t ∧ WroteOnly s t rD p.2 ∧ t.flags = s.flags.update p.2 ∧
          SameBeyondRegisters s t) ∧
    (∀ p ∈ [(Instr.muli, a * b), (Instr.andi, a &&& b), (Instr.ori, a ||| b), (Instr.xori, a ^^^ b)],
      ∃ t, exec (p.1 rD b) s = .next t ∧ WroteOnly s t rD p.2 ∧ t.flags = s.flags.update p.2 ∧
        SameBeyondRegisters s t)

/-- DIV, DIVI, MOD, MODI complete on a divisor that is not 0: quotient and remainder truncate toward zero, signed or,
under the other `DIV_MODE`, unsigned; C, V and everything else stay (R83, R84, R88, R89; signedness: D7, entry 10). -/
def Obligations.DivModResults : Prop :=
  ∀ (s : State) (rD : Reg) (a b q r : Word), s.reg? rD = some a → b ≠ 0#32 →
    (s.cfg.divMode = .signed ∧ q = BitVec.ofInt 32 (a.toInt.tdiv b.toInt) ∧ r = BitVec.ofInt 32 (a.toInt.tmod b.toInt) ∨
      s.cfg.divMode = .unsigned ∧ q.toNat = a.toNat / b.toNat ∧ r.toNat = a.toNat % b.toNat) →
    (∀ p ∈ [(Instr.div, q), (Instr.mod, r)], ∀ rS : Reg, s.reg? rS = some b →
      ∃ t, exec (p.1 rD rS) s = .next t ∧ WroteOnly s t rD p.2 ∧ t.flags = s.flags.update p.2 ∧
        SameBeyondRegisters s t) ∧
    (∀ p ∈ [(Instr.divi, q), (Instr.modi, r)],
      ∃ t, exec (p.1 rD b) s = .next t ∧ WroteOnly s t rD p.2 ∧ t.flags = s.flags.update p.2 ∧
        SameBeyondRegisters s t)

/-- The quotient and the remainder belong together (R84): `a = b * (a DIV b) + (a MOD b)` in wrapping arithmetic; signed,
the remainder is smaller than the divisor and has the dividend's sign or is 0, and -2^31 / -1 wraps (R83; D7,
entry 10). -/
def Obligations.QuotientAndRemainderAgree : Prop :=
  ∀ (m : DivMode) (a b : Word), b ≠ 0#32 →
    b * quotient m a b + remainder m a b = a ∧
      (m = .unsigned → (remainder m a b).toNat < b.toNat) ∧
      (m = .signed →
        (remainder m a b).toInt.natAbs < b.toInt.natAbs ∧ 0 ≤ (remainder m a b).toInt * a.toInt ∧
          (a = 0x80000000#32 → b = 0xFFFFFFFF#32 → quotient m a b = 0x80000000#32 ∧ remainder m a b = 0#32))

/-- A zero divisor raises `DivByZero` with the destination, the flags and everything else unchanged (R83, R84, R88, R89,
R143). -/
def Obligations.ZeroDivisorRaises : Prop :=
  ∀ (s : State) (rD : Reg) (a : Word), s.reg? rD = some a →
    (∀ op ∈ [Instr.div, Instr.mod], ∀ rS : Reg, s.reg? rS = some 0#32 → exec (op rD rS) s = .fault (.divByZero s)) ∧
    (∀ op ∈ [Instr.divi, Instr.modi], exec (op rD 0#32) s = .fault (.divByZero s))

/-- INC, DEC, NEG, NOT, CLR complete: Z and N follow the result, C, V and everything else stay (R90 to R94; what each
mnemonic computes is the spec's choice D8, PRESUMED, entry 11). -/
def Obligations.UnaryResults : Prop :=
  ∀ (s : State) (rD : Reg) (a : Word), s.reg? rD = some a →
    ∀ p ∈ [(Instr.inc, a + 1#32), (Instr.dec, a - 1#32), (Instr.neg, -a), (Instr.not, a ^^^ 0xFFFFFFFF#32),
        (Instr.clr, 0#32)],
      ∃ t, exec (p.1 rD) s = .next t ∧ WroteOnly s t rD p.2 ∧ t.flags = s.flags.update p.2 ∧ SameBeyondRegisters s t

/-- SHL and SHR complete for every count field: the count is masked to 0..31; Z and N follow the result; C is the last
bit shifted out when the masked count is not 0 and stays when it is; V and everything else stay (R49, R101, R102; the
rule for C is D9, entry 12). -/
def Obligations.ShiftResults : Prop :=
  ∀ (s : State) (rD : Reg) (count : Byte) (a : Word), s.reg? rD = some a →
    let sh := count.toNat % 32
    (∃ t r, exec (.shl rD count) s = .next t ∧ r.toNat = a.toNat * 2 ^ sh % 2 ^ 32 ∧ WroteOnly s t rD r ∧
      t.flags.z = decide (r = 0#32) ∧ t.flags.n = r.getLsbD 31 ∧ t.flags.v = s.flags.v ∧
      t.flags.c = (if sh = 0 then s.flags.c else a.getLsbD (32 - sh)) ∧ SameBeyondRegisters s t) ∧
    (∃ t r, exec (.shr rD count) s = .next t ∧ r.toNat = a.toNat / 2 ^ sh ∧ WroteOnly s t rD r ∧
      t.flags.z = decide (r = 0#32) ∧ t.flags.n = r.getLsbD 31 ∧ t.flags.v = s.flags.v ∧
      t.flags.c = (if sh = 0 then s.flags.c else a.getLsbD (sh - 1)) ∧ SameBeyondRegisters s t)

/-- MOV, MOVI and LOADI complete: Z and N from the value moved; C, V and everything else stay, and LOADI makes no memory
access (R105, R109, R110; LOADI's reading: D10, entry 13). -/
def Obligations.MoveResults : Prop :=
  ∀ (s : State) (rD : Reg) (a b : Word), s.reg? rD = some a →
    (∀ rS : Reg, s.reg? rS = some b →
      ∃ t, exec (.mov rD rS) s = .next t ∧ WroteOnly s t rD b ∧ t.flags = s.flags.update b ∧ SameBeyondRegisters s t) ∧
    (∀ op ∈ [Instr.movi, Instr.loadi],
      ∃ t, exec (op rD b) s = .next t ∧ WroteOnly s t rD b ∧ t.flags = s.flags.update b ∧ SameBeyondRegisters s t)

/-- An illegal index in a used register field raises `InvalidRegister` with nothing changed: `rD` before `rS` where `rD`
is read, `rS` first for MOV and LOAD, and LOAD's `rD` at the write, after its bus read (R50, R73, R103, R143, R146; the
order: D13, entry 15). POP's is in `PopResults`. -/
def Obligations.IllegalIndexRaises : Prop :=
  ∀ (s : State) (rD rS : Reg),
    let d := rD.index s.cfg.aliases
    let r := rS.index s.cfg.aliases
    (∀ op ∈ [Instr.add, Instr.sub, Instr.mul, Instr.div, Instr.mod, Instr.and, Instr.or, Instr.xor, Instr.store,
        Instr.mset, Instr.mcpy, Instr.cmp, Instr.test],
      (s.reg? rD = none → exec (op rD rS) s = .fault (.invalidRegister d s)) ∧
      ((∃ a, s.reg? rD = some a) → s.reg? rS = none → exec (op rD rS) s = .fault (.invalidRegister r s))) ∧
    (s.reg? rS = none →
      exec (.mov rD rS) s = .fault (.invalidRegister r s) ∧ exec (.load rD rS) s = .fault (.invalidRegister r s)) ∧
    (s.reg? rD = none →
      ((∃ b, s.reg? rS = some b) → exec (.mov rD rS) s = .fault (.invalidRegister d s)) ∧
      (∀ addr, s.cfg.wf → s.reg? rS = some addr → s.readableWord addr →
        exec (.load rD rS) s = .fault (.invalidRegister d s.agentsAct)) ∧
      (∀ op ∈ [Instr.addi, Instr.subi, Instr.muli, Instr.divi, Instr.modi, Instr.andi, Instr.ori, Instr.xori,
          Instr.loadi, Instr.stori, Instr.movi, Instr.cmpi, Instr.testi],
        ∀ imm, exec (op rD imm) s = .fault (.invalidRegister d s)) ∧
      (∀ op ∈ [Instr.shl, Instr.shr], ∀ count, exec (op rD count) s = .fault (.invalidRegister d s)) ∧
      (∀ op ∈ [Instr.inc, Instr.dec, Instr.neg, Instr.not, Instr.clr, Instr.push],
        exec (op rD) s = .fault (.invalidRegister d s)))

/-! ### Loads, stores, blocks -/

/-- LOAD completes at every aligned address below `IO_END`, device registers included: the destination gets the word as
it is after the outside agents have acted, Z and N follow it, memory and console stay (R36, R103, R160). -/
def Obligations.LoadResults : Prop :=
  ∀ (s : State) (rD rS : Reg) (a addr : Word), s.cfg.wf → s.reg? rD = some a → s.reg? rS = some addr →
    s.readableWord addr →
    ∃ t, exec (.load rD rS) s = .next t ∧ WroteOnly s t rD (s.agentsAct.wordAt addr) ∧
      t.flags = s.flags.update (s.agentsAct.wordAt addr) ∧ t.mem = s.mem ∧ t.halt = s.halt ∧ t.cfg = s.cfg ∧
      AgentsOnly 1 s t

/-- STORE and STORI complete in RAM and VRAM: the four bytes at the address get the register's word, lowest byte first;
every other byte, every register and every flag stay (R37, R40, R104, R106). -/
def Obligations.StoreResults : Prop :=
  ∀ (s : State) (rD rS : Reg) (v addr : Word), s.cfg.wf → s.reg? rD = some v → s.writableWord addr →
    (s.reg? rS = some addr →
      ∃ t, exec (.store rD rS) s = .next t ∧ SameCpu s t ∧ StoredWord s t addr.toNat v ∧ AgentsOnly 1 s t) ∧
    (∃ t, exec (.stori rD addr) s = .next t ∧ SameCpu s t ∧ StoredWord s t addr.toNat v ∧ AgentsOnly 1 s t)

/-- STORE and STORI complete in the I/O window: the device that claims the address gets the write, registers, flags and
memory stay (R104, R106, R148). -/
def Obligations.StoreToDeviceResults : Prop :=
  ∀ (s : State) (rD rS : Reg) (v addr : Word), s.cfg.wf → s.reg? rD = some v → s.ioWord addr →
    (s.reg? rS = some addr → exec (.store rD rS) s = .next (ioWriteWord addr v s.agentsAct)) ∧
    exec (.stori rD addr) s = .next (ioWriteWord addr v s.agentsAct) ∧
    SameCpu s (ioWriteWord addr v s.agentsAct) ∧ (ioWriteWord addr v s.agentsAct).mem = s.mem ∧
    (ioWriteWord addr v s.agentsAct).schedule = s.schedule.tail

/-- Where LOAD, STORE, STORI, RET and POP raise a memory fault: misaligned before unmapped before a write to ROM, memory
and registers unchanged (R35, R36, R37, R41, R103, R104, R106, R134, R136; the order: D5, the alignment fault: D4,
entry 8). -/
def Obligations.MemoryFaults : Prop :=
  ∀ (s : State) (rD rS r : Reg) (v addr : Word), s.cfg.wf → s.reg? rD = some v → s.reg? rS = some addr →
    (addr.toNat % 4 ≠ 0 → s.cfg.misaligned = .fault →
      exec (.load rD rS) s = .fault (.misalignedAccess addr s.agentsAct) ∧
      exec (.store rD rS) s = .fault (.misalignedAccess addr s.agentsAct) ∧
      exec (.stori rD addr) s = .fault (.misalignedAccess addr s.agentsAct)) ∧
    (addr.toNat % 4 = 0 → s.cfg.ioEnd ≤ addr.toNat →
      exec (.load rD rS) s = .fault (.invalidAddress addr s.agentsAct) ∧
      exec (.store rD rS) s = .fault (.invalidAddress addr s.agentsAct) ∧
      exec (.stori rD addr) s = .fault (.invalidAddress addr s.agentsAct)) ∧
    (addr.toNat % 4 = 0 → addr.toNat < s.cfg.romBase + s.cfg.romSize →
      exec (.store rD rS) s = .fault (.romWrite addr s.agentsAct) ∧
      exec (.stori rD addr) s = .fault (.romWrite addr s.agentsAct)) ∧
    (s.sp.toNat % 4 ≠ 0 → s.cfg.misaligned = .fault →
      exec .ret s = .fault (.misalignedAccess s.sp s.agentsAct) ∧
      exec (.pop r) s = .fault (.misalignedAccess s.sp s.agentsAct)) ∧
    (s.sp.toNat % 4 = 0 → s.cfg.ioEnd ≤ s.sp.toNat →
      exec .ret s = .fault (.invalidAddress s.sp s.agentsAct) ∧
      exec (.pop r) s = .fault (.invalidAddress s.sp s.agentsAct))

/-- A word stored in RAM or VRAM over the bus is what the next read of the address gives, and byte reads see it lowest
byte first (R36 to R40, R42). -/
def Obligations.StoredWordReadsBack : Prop :=
  ∀ (s : State) (a v : Word), s.mem.wf = true → s.cfg.wf → s.writableWord a →
    ∃ t, busWriteWord a v s = .next t ∧ busReadWord a t = .next v ∧
      ∀ k < 4, busReadByte (a + BitVec.ofNat 32 k) t = .next (v.extractLsb' (8 * k) 8)

/-- MSET completes on a block in RAM and VRAM: `r1` words get the fill word; every other byte, every register and every
flag stay; with a count of 0 nothing at all happens, whatever the address. On a block that reaches into the I/O window, or
lies in it, MSET completes too: the words are stored one after another, ascending, a device getting each of its own
(R37, R107; D20, entry 20). -/
def Obligations.MsetFillsBlock : Prop :=
  ∀ (s : State) (rD rS : Reg) (dst val : Word), s.reg? rD = some dst → s.reg? rS = some val →
    let n := (s.regs.get 1).toNat
    (n = 0 → exec (.mset rD rS) s = .next s) ∧
    (s.cfg.wf → dst.toNat % 4 = 0 → s.cfg.ramBase ≤ dst.toNat → dst.toNat + 4 * n ≤ s.cfg.ioBase →
      ∃ t, exec (.mset rD rS) s = .next t ∧ SameCpu s t ∧ AgentsOnly n s t ∧ (s.mem.wf = true → t.mem.wf = true) ∧
        (∀ x, x < dst.toNat ∨ dst.toNat + 4 * n ≤ x → t.mem.read x = s.mem.read x) ∧
        (s.mem.wf = true → ∀ i < n, ∀ k < 4, t.mem.read (dst.toNat + 4 * i + k) = byteOfWord val k)) ∧
    (s.cfg.wf → dst.toNat % 4 = 0 → s.cfg.ramBase ≤ dst.toNat → dst.toNat + 4 * n ≤ s.cfg.ioEnd →
      ∃ t, exec (.mset rD rS) s = .next t ∧ SameCpu s t ∧
        t = (List.range n).foldl (fun u i => u.agentsAct.storeWord (BitVec.ofNat 32 (dst.toNat + 4 * i)) val) s)

/-- MCPY completes on blocks in memory: whatever their overlap, the destination ends up holding what the source held
before; every other byte, every register and every flag stay; with a count of 0 nothing at all happens. On blocks that
reach into the I/O window, or lie in it, MCPY completes too: each word is read and then stored, in the order its overlap
test gives, with the device's effect (R36, R37, R108; D20, entry 20). -/
def Obligations.McpyMovesBlock : Prop :=
  ∀ (s : State) (rD rS : Reg) (dst src : Word), s.reg? rD = some dst → s.reg? rS = some src →
    let n := (s.regs.get 1).toNat
    (n = 0 → exec (.mcpy rD rS) s = .next s) ∧
    (s.cfg.wf → dst.toNat % 4 = 0 → src.toNat % 4 = 0 → s.cfg.ramBase ≤ dst.toNat →
      dst.toNat + 4 * n ≤ s.cfg.ioBase → src.toNat + 4 * n ≤ s.cfg.ioBase →
      ∃ t, exec (.mcpy rD rS) s = .next t ∧ SameCpu s t ∧ AgentsOnly (2 * n) s t ∧
        (s.mem.wf = true → t.mem.wf = true) ∧
        (∀ x, x < dst.toNat ∨ dst.toNat + 4 * n ≤ x → t.mem.read x = s.mem.read x) ∧
        (s.mem.wf = true → ∀ j < 4 * n, t.mem.read (dst.toNat + j) = s.mem.read (src.toNat + j))) ∧
    (s.cfg.wf → dst.toNat % 4 = 0 → src.toNat % 4 = 0 → s.cfg.ramBase ≤ dst.toNat →
      dst.toNat + 4 * n ≤ s.cfg.ioEnd → src.toNat + 4 * n ≤ s.cfg.ioEnd →
      let order := if src.toNat < dst.toNat ∧ dst.toNat < src.toNat + 4 * n then (List.range n).reverse else List.range n
      ∃ t, exec (.mcpy rD rS) s = .next t ∧ SameCpu s t ∧
        t = order.foldl (fun u i =>
          u.agentsAct.agentsAct.storeWord (BitVec.ofNat 32 (dst.toNat + 4 * i))
            (u.agentsAct.wordAt (BitVec.ofNat 32 (src.toNat + 4 * i)))) s)

/-- A block stops at its first fault, with every earlier element done (R107, R108, R143; D20, entry 20). -/
def Obligations.BlockStopsAtFirstFault : Prop :=
  ∀ (s t : State) (rD rS : Reg) (dst x : Word) (done left : Nat) (f : Fault),
    s.reg? rD = some dst → s.reg? rS = some x → (s.regs.get 1).toNat = done + 1 + left →
    (fillFrom dst x 0 done s = .next t → memWrite (elementAddress dst done) x t = .fault f →
      exec (.mset rD rS) s = .fault f) ∧
    (backward dst x (done + 1 + left) = false → copyUp dst x 0 done s = .next t →
      copyElement dst x done t = .fault f → exec (.mcpy rD rS) s = .fault f) ∧
    (backward dst x (done + 1 + left) = true → copyTop dst x (done + 1 + left) done s = .next t →
      copyElement dst x left t = .fault f → exec (.mcpy rD rS) s = .fault f)

/-! ### Compares and jumps -/

/-- CMP, CMPI, TEST and TESTI complete: flags alone change (R111 to R114). -/
def Obligations.CompareResults : Prop :=
  ∀ (s : State) (rD : Reg) (a b : Word), s.reg? rD = some a →
    (∀ rS : Reg, s.reg? rS = some b →
      exec (.cmp rD rS) s = .next (s.setFlags (Flags.updateSub a b (a - b))) ∧
      exec (.test rD rS) s = .next (s.setFlags (s.flags.update (a &&& b)))) ∧
    exec (.cmpi rD b) s = .next (s.setFlags (Flags.updateSub a b (a - b))) ∧
    exec (.testi rD b) s = .next (s.setFlags (s.flags.update (a &&& b)))

/-- Every jump completes: PC becomes the target when the predicate of R115 holds, else stays at the next instruction;
no flag, no other register and no memory changes (R115 to R132). -/
def Obligations.JumpResults : Prop :=
  ∀ (s : State) (target : Word),
    let z := s.flags.z = true
    let n := s.flags.n = true
    let c := s.flags.c = true
    exec (.jmp target) s = .next (s.setPc target) ∧
      ∀ p ∈ [(Instr.jz, z), (Instr.je, z), (Instr.jnz, ¬z), (Instr.jne, ¬z), (Instr.jn, n), (Instr.jp, ¬n),
          (Instr.jg, ¬z ∧ ¬n), (Instr.jge, ¬n), (Instr.jl, n), (Instr.jle, n ∨ z), (Instr.jc, c), (Instr.jnc, ¬c),
          (Instr.ja, ¬c ∧ ¬z), (Instr.jae, ¬c), (Instr.jb, c), (Instr.jbe, c ∨ z)],
        (p.2 → exec (p.1 target) s = .next (s.setPc target)) ∧ (¬p.2 → exec (p.1 target) s = .next s)

/-- After `CMP a, b` the unsigned jumps decide the unsigned order exactly, JZ and JNZ equality, and the signed jumps the
signed order whenever `a - b` does not overflow (R111, R115, C15). -/
def Obligations.JumpsAfterCompareOrder : Prop :=
  ∀ (s t : State) (rD rS : Reg) (a b target : Word), s.reg? rD = some a → s.reg? rS = some b →
    exec (.cmp rD rS) s = .next t →
    let decides := fun (op : Word → Instr) (p : Prop) =>
      (p → exec (op target) t = .next (t.setPc target)) ∧ (¬p → exec (op target) t = .next t)
    decides .ja (b.toNat < a.toNat) ∧ decides .jae (b.toNat ≤ a.toNat) ∧ decides .jb (a.toNat < b.toNat) ∧
      decides .jbe (a.toNat ≤ b.toNat) ∧ decides .jz (a = b) ∧ decides .jnz (a ≠ b) ∧
      (-2 ^ 31 ≤ a.toInt - b.toInt ∧ a.toInt - b.toInt < 2 ^ 31 →
        decides .jg (b.toInt < a.toInt) ∧ decides .jge (b.toInt ≤ a.toInt) ∧ decides .jl (a.toInt < b.toInt) ∧
          decides .jle (a.toInt ≤ b.toInt))

/-! ### Calls, stack, system -/

/-- A push, whichever of PUSH, CALL and SYSCALL makes it, decrements SP, then checks HP, then stores; when it faults, by
the collision or by its store, SP stays decremented and nothing else of the CPU's has changed (R74, R133, R135, R137,
R143; wrapping and unsigned comparison: D28, entry 25; the alignment fault and the order: D4, D5, entry 8). -/
def Obligations.PushChecksThenStores : Prop :=
  ∀ (s : State) (rD : Reg) (v target : Word), s.cfg.wf → s.reg? rD = some v →
    let x := s.sp - 4#32
    (∀ p ∈ [(Instr.push rD, s), (.call target, s), (.syscall, s.agentsAct)], (p.1 = .syscall → s.syscallPasses) →
      let u := p.2.setSp x
      (x.toNat ≤ s.hp.toNat → exec p.1 s = .fault (.heapStackCollision x.toNat u)) ∧
      (s.hp.toNat < x.toNat →
        (x.toNat % 4 ≠ 0 → s.cfg.misaligned = .fault → exec p.1 s = .fault (.misalignedAccess x u.agentsAct)) ∧
        (x.toNat % 4 = 0 → s.cfg.ioEnd ≤ x.toNat → exec p.1 s = .fault (.invalidAddress x u.agentsAct)) ∧
        (x.toNat % 4 = 0 → x.toNat < s.cfg.romBase + s.cfg.romSize →
          exec p.1 s = .fault (.romWrite x u.agentsAct)))) ∧
    (s.hp.toNat < x.toNat →
      exec (.push rD) s = memWrite x v (s.setSp x) ∧
      (∀ t, memWrite x s.pc (s.setSp x) = .next t → exec (.call target) s = .next (t.setPc target)) ∧
      (∀ f, memWrite x s.pc (s.setSp x) = .fault f → exec (.call target) s = .fault f) ∧
      (s.syscallPasses →
        (∀ t, memWrite x s.pc (s.agentsAct.setSp x) = .next t → exec .syscall s = .next (t.setPc s.syscallTarget)) ∧
        (∀ f, memWrite x s.pc (s.agentsAct.setSp x) = .fault f → exec .syscall s = .fault f)) ∧
      ∀ (u t : State) (w : Word), u = s.setSp x ∨ u = s.agentsAct.setSp x →
        (memWrite x w u = .next t → SameCpu u t) ∧ ∀ f, memWrite x w u = .fault f → SameCpu u f.left)

/-- PUSH completes on a stack in RAM or VRAM: the register's value, read before SP moves, is at the new SP (R74,
R135). -/
def Obligations.PushResults : Prop :=
  ∀ (s : State) (rD : Reg) (v : Word), s.cfg.wf → s.reg? rD = some v → s.roomToPush →
    s.writableWord (s.sp - 4#32) →
    ∃ t, exec (.push rD) s = .next t ∧ WroteOnly s t .sp (s.sp - 4#32) ∧ t.flags = s.flags ∧ t.halt = s.halt ∧
      t.cfg = s.cfg ∧ StoredWord s t (s.sp - 4#32).toNat v ∧ AgentsOnly 1 s t

/-- POP completes wherever SP reads a word: SP moves up by 4, then the destination gets the word, so that `POP sp` leaves
the word in SP; Z and N follow it; an illegal destination raises with SP already moved (R75, R136, R143; the order: D12,
entry 15). -/
def Obligations.PopResults : Prop :=
  ∀ (s : State) (rD : Reg), s.cfg.wf → s.readableWord s.sp →
    let v := s.agentsAct.wordAt s.sp
    (∀ a, s.reg? rD = some a →
      ∃ t, exec (.pop rD) s = .next t ∧ WroteOnly (s.setSp (s.sp + 4#32)) t rD v ∧ t.flags = s.flags.update v ∧
        t.mem = s.mem ∧ t.halt = s.halt ∧ t.cfg = s.cfg ∧ AgentsOnly 1 s t) ∧
    (s.reg? rD = none →
      exec (.pop rD) s = .fault (.invalidRegister (rD.index s.cfg.aliases) (s.agentsAct.setSp (s.sp + 4#32))))

/-- CALL completes on a stack in RAM or VRAM: the address of the next instruction is at the new SP and PC is the target
(R74, R133). RET completes wherever SP reads a word: PC is the word, SP moves up by 4, memory stays (R75, R134). No
general register, no flag and not HP change. -/
def Obligations.CallAndReturnResults : Prop :=
  ∀ s : State, s.cfg.wf →
    (∀ target : Word, s.roomToPush → s.writableWord (s.sp - 4#32) →
      ∃ t, exec (.call target) s = .next t ∧ t.pc = target ∧ t.sp = s.sp - 4#32 ∧ t.regs = s.regs ∧ t.hp = s.hp ∧
        t.flags = s.flags ∧ t.halt = s.halt ∧ t.cfg = s.cfg ∧ StoredWord s t (s.sp - 4#32).toNat s.pc ∧
        AgentsOnly 1 s t) ∧
    (s.readableWord s.sp →
      ∃ t, exec .ret s = .next t ∧ t.pc = s.agentsAct.wordAt s.sp ∧ t.sp = s.sp + 4#32 ∧ t.regs = s.regs ∧
        t.hp = s.hp ∧ t.flags = s.flags ∧ t.mem = s.mem ∧ t.halt = s.halt ∧ t.cfg = s.cfg ∧ AgentsOnly 1 s t)

/-- A RET after a CALL comes back to the instruction after the CALL with SP as it was, and a POP after a PUSH gives the
word back (R133 to R136). -/
def Obligations.CallReturnsAndPushPops : Prop :=
  ∀ (s t : State), s.cfg.wf → s.mem.wf = true → s.roomToPush → s.writableWord (s.sp - 4#32) →
    (∀ target, exec (.call target) s = .next t →
      ∃ u, exec .ret t = .next u ∧ u.pc = s.pc ∧ u.sp = s.sp ∧ u.regs = s.regs ∧ u.hp = s.hp ∧ u.flags = s.flags) ∧
    (∀ (r r' : Reg) (v w : Word), s.reg? r = some v → s.reg? r' = some w → r' ≠ .sp → exec (.push r) s = .next t →
      ∃ u, exec (.pop r') t = .next u ∧ u.reg? r' = some v ∧ u.sp = s.sp)

/-- SYSCALL completes on a table entry in ROM that holds a populated address: the return address is pushed and PC is the
entry's word, with no other register and no flag changed (R137, R165; the entry's arithmetic: D22, entry 21). -/
def Obligations.SyscallEntersHandler : Prop :=
  ∀ s : State, s.cfg.wf →
    let entry := BitVec.ofNat 32 s.cfg.syscallTableBase + 4#32 * s.regs.get 0
    let target := s.mem.readWord entry.toNat
    entry.toNat < s.cfg.romBase + s.cfg.romSize → target ≠ 0#32 → target.toNat < s.cfg.ioEnd → s.roomToPush →
    s.writableWord (s.sp - 4#32) →
      ∃ t, exec .syscall s = .next t ∧ t.pc = target ∧ t.sp = s.sp - 4#32 ∧ t.regs = s.regs ∧ t.hp = s.hp ∧
        t.flags = s.flags ∧ t.halt = s.halt ∧ t.cfg = s.cfg ∧ StoredWord s t (s.sp - 4#32).toNat s.pc ∧
        AgentsOnly 2 s t

/-- SYSCALL's own faults in their order, with SP where it was, and the push's after them, whichever it is, with SP
decremented (R137, R143; D22, entry 21). -/
def Obligations.SyscallFaults : Prop :=
  ∀ s : State, s.cfg.wf →
    let n := s.regs.get 0
    let entry := BitVec.ofNat 32 s.cfg.syscallTableBase + 4#32 * n
    let target := s.mem.readWord entry.toNat
    let inRom := entry.toNat < s.cfg.romBase + s.cfg.romSize
    (¬inRom → exec .syscall s = .fault (.syscallOutOfRange n s)) ∧
    (inRom → target = 0#32 → exec .syscall s = .fault (.syscallNotImplemented n s.agentsAct)) ∧
    (inRom → target ≠ 0#32 → s.cfg.ioEnd ≤ target.toNat →
      exec .syscall s = .fault (.syscallInvalidTarget target s.agentsAct)) ∧
    (inRom → target ≠ 0#32 → target.toNat < s.cfg.ioEnd → ∀ f, push s.pc s.agentsAct = .fault f →
      exec .syscall s = .fault f ∧ f.ofPush = true ∧ f.left.sp = s.sp - 4#32)

/-- NOP does nothing beyond its fetch, and HLT sets `halt` and nothing else (R138, R139). -/
def Obligations.NopAndHltResults : Prop :=
  ∀ s : State, exec .nop s = .next s ∧ exec .hlt s = .next { s with halt := true }

/-! ### Devices and outside agents -/

/-- What the four keyboard registers read, at `KBD_BASE` + 0, 4, 8 and 12 (R152); a read by the machine finds the keyboard
as the outside agents left it just before, and leaves the state so, the character unconsumed (R152, R160; that the agents
act just before the access: D24, DESIGN CHOICE, entry 5). -/
def Obligations.KeyboardRegisterReads : Prop :=
  ∀ (k : Keyboard),
    (k.readWord 0 = match k.queue with | [] => 0#32 | c :: _ => c) ∧
    (k.readWord 4 = if 2 ≤ k.queue.length then 1#32 else 0#32) ∧
    (∀ q c, k.queue = q ++ [c] → k.readWord 8 = c) ∧ (k.queue = [] → k.readWord 8 = 0#32) ∧ k.readWord 12 = 0#32 ∧
    (∀ (s : State) (b off : Nat), s.cfg.wf → s.cfg.kbdBase = some b → off = 0 ∨ off = 4 ∨ off = 8 ∨ off = 12 →
      memRead (BitVec.ofNat 32 (b + off)) s = .next (s.agentsAct.kbd.readWord off, s.agentsAct))

/-- What a write to a keyboard register does: the three commands of CONTROL, and nothing for every other value and
register (R153; R164 by D18, entry 19). What typing does at a capacity of n: the newest character is last, and at n
characters the oldest makes room (R151, R154). -/
def Obligations.KeyboardCommandsAndTyping : Prop :=
  ∀ (k : Keyboard) (v c : Word),
    ((k.writeWord 12 1#32).queue = k.queue.drop 1 ∧ (k.writeWord 12 2#32).queue = [] ∧
      (k.writeWord 12 3#32).queue = [] ∧ (v.toNat = 0 ∨ 3 < v.toNat → k.writeWord 12 v = k) ∧
      ∀ off, off ≠ 12 → k.writeWord off v = k) ∧
    (∀ n, 0 < n → k.queue.length ≤ n →
      (k.queue.length < n → (k.enqueue n c).queue = k.queue ++ [c]) ∧
      (∀ oldest q, k.queue = oldest :: q → q.length + 1 = n → (k.enqueue n c).queue = q ++ [c]) ∧
      (k.enqueue n c).queue.length ≤ n ∧ (k.enqueue n c).readWord 8 = c) ∧
    ∀ s : State, hostType c s = s.setKbd (s.kbd.enqueue s.cfg.kbdCapacity c)

/-- R156: a word written to OUTPUT_PRINT appends its low byte to the output stream, once, and reads back whole. -/
def Obligations.ConsolePrints : Prop :=
  ∀ (c : Console) (v : Word),
    (c.writeWord 0 v).out = c.out ++ [v.extractLsb' 0 8] ∧ (c.writeWord 0 v).readWord 0 = v ∧ c.readWord 0 = c.last ∧
    (∀ (s : State) (b : Nat), s.cfg.wf → s.cfg.conBase = some b →
      busWriteWord (BitVec.ofNat 32 b) v s = .next (s.setCon (s.con.writeWord 0 v)) ∧
        busReadWord (BitVec.ofNat 32 b) s = .next s.con.last)

/-- The timer's registers, its two commands, and a tick, which tests for equality once, after the time has advanced
(R157, R158, R159; ticks and ignored writes: D18, D19, entries 19, 33). -/
def Obligations.TimerRegistersAndTick : Prop :=
  ∀ (t : Timer) (v : Word) (d : Nat),
    (t.readWord 0 = t.time ∧ t.readWord 4 = t.compare ∧ t.readWord 8 = (if t.status then 1#32 else 0#32) ∧
      t.readWord 12 = 0#32) ∧
    (t.writeWord 4 v = ⟨t.time, v, t.status⟩ ∧ t.writeWord 12 1#32 = ⟨t.time, t.compare, false⟩ ∧
      t.writeWord 12 2#32 = ⟨0#32, t.compare, false⟩ ∧ t.writeWord 0 v = t ∧ t.writeWord 8 v = t ∧
      (v.toNat = 0 ∨ 2 < v.toNat → t.writeWord 12 v = t)) ∧
    ((t.tick d).time.toNat = (t.time.toNat + d) % 2 ^ 32 ∧ (t.tick d).compare = t.compare ∧
      ((t.tick d).status = true ↔ t.status = true ∨ (t.time.toNat + d) % 2 ^ 32 = t.compare.toNat))

/-- The I/O map: wherever in the window its base stands, a registered device answers at base + offset; unclaimed reads give
0 and unclaimed writes are dropped (R148, R149). Registered keyboard, console, timer, the devices stand at the bases of
R149, in both layouts (the order, and so the bases: D17, entry 18). -/
def Obligations.DeviceMap : Prop :=
  (∀ s : State, s.cfg.wf →
    (∀ b off, s.cfg.kbdBase = some b → off % 4 = 0 → off < 16 →
      busReadWord (BitVec.ofNat 32 (b + off)) s = .next (s.kbd.readWord off) ∧
        ∀ v, busWriteWord (BitVec.ofNat 32 (b + off)) v s = .next (s.setKbd (s.kbd.writeWord off v))) ∧
    (∀ b, s.cfg.conBase = some b →
      busReadWord (BitVec.ofNat 32 b) s = .next (s.con.readWord 0) ∧
        ∀ v, busWriteWord (BitVec.ofNat 32 b) v s = .next (s.setCon (s.con.writeWord 0 v))) ∧
    (∀ b off, s.cfg.tmrBase = some b → off % 4 = 0 → off < 16 →
      busReadWord (BitVec.ofNat 32 (b + off)) s = .next (s.tmr.readWord off) ∧
        ∀ v, busWriteWord (BitVec.ofNat 32 (b + off)) v s = .next (s.setTmr (s.tmr.writeWord off v))) ∧
    (∀ a, s.ioWord a → (∀ d b, s.cfg.deviceBase d = some b → a.toNat < b ∨ b + d.size ≤ a.toNat) →
      busReadWord a s = .next 0#32 ∧ ∀ v, busWriteWord a v s = .next s)) ∧
  ∀ c ∈ [Config.layoutA, Config.layoutB],
    c.kbdBase = some c.ioBase ∧ c.conBase = some (c.ioBase + 0x10) ∧ c.tmrBase = some (c.ioBase + 0x14) ∧
      ((({ c with kbdBase := none, conBase := none, tmrBase := none }.register .keyboard).register .console).register
        .timer) = c

/-- A byte read of a device is its lane of the containing word, and a byte write merges into that word and writes it once
(R150; lanes: D18, entry 19). -/
def Obligations.DeviceByteLanes : Prop :=
  ∀ (s : State) (a : Word) (v : Byte) (k : Nat), k < 4 → s.ioWord a → s.cfg.wf →
    let w := ioReadWord a s
    busReadByte (a + BitVec.ofNat 32 k) s = .next (w.extractLsb' (8 * k) 8) ∧
      ∃ m : Word, busWriteByte (a + BitVec.ofNat 32 k) v s = .next (ioWriteWord a m s) ∧
        ∀ j < 4, m.extractLsb' (8 * j) 8 = if j = k then v else w.extractLsb' (8 * j) 8

/-! ### The host -/

/-- `allocate_heap` (R175): a success returns the old HP and advances it by the rounded size, staying below SP; a failure
changes nothing (unbounded arithmetic: D21, entry 22). -/
def Obligations.AllocateHeapResults : Prop :=
  ∀ (n m : Nat) (s : State), n ≤ m → m < n + 4 → m % 4 = 0 →
    (s.hp.toNat + m < s.sp.toNat →
      ∃ t, allocateHeap n s = .next (s.hp, t) ∧ WroteOnly s t .hp (BitVec.ofNat 32 (s.hp.toNat + m)) ∧
        t.hp.toNat = s.hp.toNat + m ∧ t.hp.toNat < t.sp.toNat ∧ t.flags = s.flags ∧ SameBeyondRegisters s t) ∧
    (s.sp.toNat ≤ s.hp.toNat + m → allocateHeap n s = .fault (.heapStackCollision n s))

/-- Loading (R172, R173): from reset, the images stand at the bases of ROM and RAM, every other byte is 0, PC is the
entry point, and SP, HP, registers and flags are not touched (zero where nothing is loaded: D16, entries 1, 2, 27). -/
def Obligations.BootPlacesImages : Prop :=
  ∀ (c : Config) (rom ram : List Byte) (entry : Word) (sched : List (List AgentEvent)), c.wf →
    rom.length ≤ c.romSize → ram.length ≤ c.ramSize →
    ∃ s, boot c rom ram entry sched = .next s ∧
      (∀ x, s.mem.read x =
        if x < c.ramBase then rom.getD x 0#8 else ram.getD (x - c.ramBase) 0#8) ∧
      s.pc = entry ∧ s.sp = (State.resetWith c).sp ∧ s.hp = (State.resetWith c).hp ∧
      s.regs = (State.resetWith c).regs ∧ s.flags = (State.resetWith c).flags ∧ s.halt = false ∧ s.cfg = c ∧
      s.schedule = sched

/-- A word stored at a pixel's address puts its bytes, lowest first, into the pixel's R, G, B and A (R34). -/
def Obligations.StoredPixel : Prop :=
  ∀ (s : State) (rD : Reg) (v : Word) (x y : Nat), s.cfg.wf → s.mem.wf = true → s.reg? rD = some v →
    x < s.cfg.vramWidth → y < s.cfg.vramHeight →
    ∃ t, exec (.stori rD (BitVec.ofNat 32 (s.cfg.vramBase + (y * s.cfg.vramWidth + x) * 4))) s = .next t ∧
      pixel x y t = (v.extractLsb' 0 8, v.extractLsb' 8 8, v.extractLsb' 16 8, v.extractLsb' 24 8)

/-! ### Reset -/

/-- The reset values the spec's source gives, for every legal configuration: PC is `RAM_BASE`, SP `RAM_END` - 4, HP
`HEAP_START`, `halt` and CURRENT_TIME are 0 (R5, R29, R170); with the numbers of R5 for Layout A and Layout B (which of
the two is the default is the spec's choice D1, entry 6, and is stated in `ResetChosenValues`). -/
def Obligations.ResetValues : Prop :=
  (∀ c : Config, c.wf →
    (State.resetWith c).pc.toNat = c.ramBase ∧ (State.resetWith c).sp.toNat = c.ramBase + c.ramSize - 4 ∧
      (State.resetWith c).hp.toNat = c.ramBase + c.heapOffset ∧ (State.resetWith c).halt = false ∧
      (State.resetWith c).tmr.time = 0#32 ∧ (State.resetWith c).cfg = c) ∧
    (State.resetWith Config.layoutA).pc = 0x00002000#32 ∧ (State.resetWith Config.layoutA).sp = 0x00021FFC#32 ∧
    (State.resetWith Config.layoutA).hp = 0x00004000#32 ∧ (State.resetWith Config.layoutB).pc = 0x00002000#32 ∧
    (State.resetWith Config.layoutB).sp = 0x00101FFC#32 ∧ (State.resetWith Config.layoutB).hp = 0x00082000#32

/-- The reset values that are the spec's own choice (D16, D19, D31; DESIGN CHOICE, entries 1 to 3), the configuration that
is (Layout A: D1, and with it D2, D4, D7, D17; entries 6, 7, 8, 10, 18), and what they make of a machine into which
nothing is loaded: its first step raises `UnknownOpcode(0)` (R172). That this step leaves the devices as they were rests on
the agents' schedule, which is empty at reset: the model's own field and value (DESIGN CHOICE, entry 4). -/
def Obligations.ResetChosenValues : Prop :=
  State.reset = State.resetWith Config.layoutA ∧
    (∀ c : Config, (∀ n : Fin 32, (State.resetWith c).regs.get n = 0#32) ∧
      (State.resetWith c).flags = ⟨false, false, false, false⟩ ∧ (∀ a, (State.resetWith c).mem.read a = 0#8) ∧
      (State.resetWith c).kbd.queue = [] ∧ (State.resetWith c).con = ⟨0#32, []⟩ ∧
      (State.resetWith c).tmr.compare = 0#32 ∧ (State.resetWith c).tmr.status = false) ∧
    step State.reset = .fault (.unknownOpcode 0#8 (State.reset.setPc 0x00002004#32))

/-- The state after reset meets the invariant in every legal configuration, and both layouts are legal (R5, R27, R29,
R151). That the flags, the memory and the keyboard meet it rests on their reset values, which are the spec's own choice
(D16; DESIGN CHOICE, entries 1, 2, 3). -/
def Obligations.ResetMeetsInvariant : Prop :=
  (∀ c : Config, c.wf → (State.resetWith c).Inv) ∧ State.reset.Inv ∧ (State.resetWith Config.layoutB).Inv

/-! ### The whole machine -/

/-- Every step keeps the invariant: a legal configuration, a canonical memory without cells outside ROM, RAM and VRAM, a
keyboard within its capacity, Z and N never both set; and the configuration itself (R5, R20, R27, R151). -/
def Obligations.StepKeepsInvariant : Prop :=
  ∀ s t : State, s.Inv → step s = .next t → t.Inv ∧ t.cfg = s.cfg

/-- No step changes a byte of ROM, neither one that goes on nor one that faults, whatever it had written before the fault
(R31, R37, R45, R143, R147). -/
def Obligations.StepKeepsRom : Prop :=
  ∀ s : State, s.cfg.wf → ∀ a, s.cfg.romBase ≤ a → a < s.cfg.romBase + s.cfg.romSize →
    (∀ t, step s = .next t → t.mem.read a = s.mem.read a) ∧
      ∀ f, step s = .fault f → f.left.mem.read a = s.mem.read a

/-- The model refuses nothing: every step of every state is a next state or a fault, one of the kinds of R144 or, for a
halted core, which has no step (R24, R178), the model's own reason `halted` (DESIGN CHOICE after D15, entry 17). -/
def Obligations.StepNeverRefuses : Prop :=
  ∀ s : State, (∀ r : Refusal, step s ≠ .refused r) ∧
    ((∃ u, step s = .fault (.halted u)) ↔ s.halt = true)

/-- An instruction changes no general register and not HP unless its destination field names it, and SP only if its
destination field names it or it is a stack instruction; `halt` changes only by HLT, and memory, devices and schedule
not at all when the instruction never accesses the bus (R12, R15, R18, R24). -/
def Obligations.OnlyTheDestinationChanges : Prop :=
  ∀ (i : Instr) (s t : State), exec i s = .next t →
    (∀ r : Reg, r ≠ .pc → (r = .sp → movesSp i = false) → t.reg? r ≠ s.reg? r → i.regs.head? = some r) ∧
    (i = .hlt → t.halt = true) ∧ (i ≠ .hlt → t.halt = s.halt) ∧ t.cfg = s.cfg ∧
    (registerOnly i = true →
      t.mem = s.mem ∧ t.kbd = s.kbd ∧ t.con = s.con ∧ t.tmr = s.tmr ∧ t.schedule = s.schedule)

/-- Which flags an instruction may change (R23). -/
def Obligations.FlagsChangeByTable : Prop :=
  ∀ (i : Instr) (s t : State), exec i s = .next t →
    (flagEffect i = .keepsAll → t.flags = s.flags) ∧
    (flagEffect i = .zeroNegative → t.flags.c = s.flags.c ∧ t.flags.v = s.flags.v) ∧
    (flagEffect i = .shift → t.flags.v = s.flags.v)

/-- A faulting instruction leaves the flags, the general registers, HP, PC and `halt` as they were, and SP as R143's table
says for the kind of fault: decremented by 4 when a push raised it, incremented by 4 by a POP whose destination is
illegal, else unchanged (R76, R77, R142, R143; D13, D14, entries 15, 16). -/
def Obligations.FaultLeavesRegistersAndFlags : Prop :=
  ∀ (i : Instr) (s : State) (f : Fault), exec i s = .fault f →
    f.left.flags = s.flags ∧ f.left.regs = s.regs ∧ f.left.hp = s.hp ∧ f.left.pc = s.pc ∧ f.left.halt = s.halt ∧
      f.left.cfg = s.cfg ∧ (s.cfg.wf → f.left.sp = spAfterFault i f s.sp)

/-- No instruction reads V (R19, R115): with another V the same instruction goes on, and everything but V is the same
after it, or raises the same fault with the same information (R142, R144) and everything but V the same in what it left. -/
def Obligations.NoInstructionReadsOverflow : Prop :=
  ∀ (i : Instr) (s : State) (v : Bool),
    let e := fun u : State => u.setFlags { u.flags with v := v }
    (∀ t, exec i s = .next t → ∃ t', exec i (e s) = .next t' ∧ e t' = e t) ∧
      (∀ f, exec i s = .fault f → ∃ f', exec i (e s) = .fault f' ∧ f'.mapLeft e = f.mapLeft e)
end

