-- ==== Sys2Proof/Laws/Memory.lean ====
section
/-! SUPPORT. The memory arrays: read after write, and the canonical form that every operation keeps. -/

namespace Sys2Proof.Machine

@[simp] theorem Memory.read_nil (a : Nat) : Memory.read [] a = 0#8 := rfl

theorem Memory.read_cons (x : Nat) (c : Byte) (m : Memory) (a : Nat) :
    Memory.read ((x, c) :: m) a = if a = x then c else Memory.read m a := rfl

/-- Below its first address a canonical memory holds 0. -/
theorem Memory.read_of_above {lo : Nat} {m : Memory} (h : Memory.above lo m = true) {a : Nat} (ha : a < lo) :
    m.read a = 0#8 := by
  induction m generalizing lo with
  | nil => rfl
  | cons p m ih =>
    obtain ⟨x, c⟩ := p
    simp only [Memory.above, Bool.and_eq_true, decide_eq_true_eq] at h
    rw [Memory.read_cons, if_neg (by omega)]
    exact ih h.2 (by omega)

/-- A lower bound may be lowered. -/
theorem Memory.above_mono {lo hi : Nat} {m : Memory} (h : Memory.above hi m = true) (hle : lo ≤ hi) :
    Memory.above lo m = true := by
  cases m with
  | nil => rfl
  | cons p m =>
    obtain ⟨x, c⟩ := p
    simp only [Memory.above, Bool.and_eq_true, decide_eq_true_eq] at h ⊢
    exact ⟨⟨by omega, h.1.2⟩, h.2⟩

/-- A write leaves every other address alone. -/
@[simp] theorem Memory.read_write_other (m : Memory) {a a' : Nat} (b : Byte) (h : a' ≠ a) :
    (m.write a b).read a' = m.read a' := by
  induction m with
  | nil =>
    unfold Memory.write
    split <;> simp [Memory.read_cons, h]
  | cons p m ih =>
    obtain ⟨x, c⟩ := p
    unfold Memory.write
    split_ifs with h1 h2 h3 h4 <;> simp_all [Memory.read_cons]

theorem Memory.read_write_same_above {lo : Nat} {m : Memory} (hm : Memory.above lo m = true) (a : Nat) (b : Byte) :
    (m.write a b).read a = b := by
  induction m generalizing lo with
  | nil =>
    unfold Memory.write
    split <;> simp_all [Memory.read_cons]
  | cons p m ih =>
    obtain ⟨x, c⟩ := p
    simp only [Memory.above, Bool.and_eq_true, decide_eq_true_eq] at hm
    unfold Memory.write
    split_ifs with h1 h2 h3 h4
    · rw [Memory.read_cons, if_neg (by omega), Memory.read_of_above hm.2 (by omega), h2]
    · simp [Memory.read_cons]
    · rw [Memory.read_of_above hm.2 (by omega), h4]
    · simp [Memory.read_cons, h3]
    · rw [Memory.read_cons, if_neg h3]
      exact ih hm.2

/-- A write leaves the byte it writes at its own address. -/
@[simp] theorem Memory.read_write_same {m : Memory} (hm : m.wf = true) (a : Nat) (b : Byte) : (m.write a b).read a = b :=
  Memory.read_write_same_above hm a b

theorem Memory.above_write {lo : Nat} {m : Memory} (hm : Memory.above lo m = true) {a : Nat} (b : Byte) (ha : lo ≤ a) :
    Memory.above lo (m.write a b) = true := by
  induction m generalizing lo with
  | nil =>
    unfold Memory.write
    split <;> simp_all [Memory.above]
  | cons p m ih =>
    obtain ⟨x, c⟩ := p
    have hm' := hm
    simp only [Memory.above, Bool.and_eq_true, decide_eq_true_eq] at hm
    unfold Memory.write
    split_ifs with h1 h2 h3 h4
    · exact hm'
    · simp only [Memory.above, Bool.and_eq_true, decide_eq_true_eq]
      exact ⟨⟨ha, by simpa using h2⟩, ⟨by omega, hm.1.2⟩, hm.2⟩
    · exact Memory.above_mono hm.2 (by omega)
    · simp only [Memory.above, Bool.and_eq_true, decide_eq_true_eq]
      exact ⟨⟨by omega, by simpa using h4⟩, hm.2⟩
    · simp only [Memory.above, Bool.and_eq_true, decide_eq_true_eq]
      exact ⟨⟨by omega, hm.1.2⟩, ih hm.2 (by omega)⟩

/-- A byte write keeps the canonical form. -/
@[simp] theorem Memory.wf_write {m : Memory} (hm : m.wf = true) (a : Nat) (b : Byte) : (m.write a b).wf = true :=
  Memory.above_write hm b (Nat.zero_le a)

/-- A word write keeps the canonical form. -/
@[simp] theorem Memory.wf_writeWord {m : Memory} (hm : m.wf = true) (a : Nat) (v : Word) :
    (m.writeWord a v).wf = true :=
  Memory.wf_write (Memory.wf_write (Memory.wf_write (Memory.wf_write hm _ _) _ _) _ _) _ _

/-- Placing bytes keeps the canonical form. -/
@[simp] theorem Memory.wf_writeBytes {m : Memory} (hm : m.wf = true) (a : Nat) (bs : List Byte) :
    (m.writeBytes a bs).wf = true := by
  induction bs generalizing m a with
  | nil => exact hm
  | cons b bs ih => exact ih (Memory.wf_write hm a b) (a + 1)

/-- A byte write lists no address but its own and those listed before. -/
theorem Memory.mem_write {m : Memory} {a : Nat} {b : Byte} {p : Host.Cell} (h : p ∈ m.write a b) : p.1 = a ∨ p ∈ m := by
  induction m with
  | nil =>
    unfold Memory.write at h
    split at h <;> simp_all
  | cons q m ih =>
    obtain ⟨x, c⟩ := q
    unfold Memory.write at h
    split_ifs at h with h1 h2 h3 h4
    · exact .inr h
    · simp only [List.mem_cons] at h ⊢
      rcases h with rfl | h
      · exact .inl rfl
      · exact .inr h
    · exact .inr (List.mem_cons_of_mem _ h)
    · simp only [List.mem_cons] at h ⊢
      rcases h with rfl | h
      · exact .inl h3.symm
      · exact .inr (.inr h)
    · simp only [List.mem_cons] at h ⊢
      rcases h with rfl | h
      · exact .inr (.inl rfl)
      · exact (ih h).imp id .inr

/-- A word write lists no address but its own four and those listed before. -/
theorem Memory.mem_writeWord {m : Memory} {a : Nat} {v : Word} {p : Host.Cell} (h : p ∈ m.writeWord a v) :
    (a ≤ p.1 ∧ p.1 ≤ a + 3) ∨ p ∈ m := by
  rcases Memory.mem_write h with h | h
  · exact .inl (by omega)
  rcases Memory.mem_write h with h | h
  · exact .inl (by omega)
  rcases Memory.mem_write h with h | h
  · exact .inl (by omega)
  rcases Memory.mem_write h with h | h
  · exact .inl (by omega)
  exact .inr h

/-- A word write leaves every byte outside its four alone. -/
theorem Memory.read_writeWord_other (m : Memory) {a a' : Nat} (v : Word) (h : a' < a ∨ a + 4 ≤ a') :
    (m.writeWord a v).read a' = m.read a' := by
  unfold Memory.writeWord
  rw [Memory.read_write_other _ _ (by omega), Memory.read_write_other _ _ (by omega),
    Memory.read_write_other _ _ (by omega), Memory.read_write_other _ _ (by omega)]

/-- A word write leaves the word's bytes, the least significant at the lowest address. -/
theorem Memory.read_writeWord_byte {m : Memory} (hm : m.wf = true) (a : Nat) (v : Word) {k : Nat} (hk : k < 4) :
    (m.writeWord a v).read (a + k) = byteOfWord v k := by
  have h1 := Memory.wf_write hm a (byteOfWord v 0)
  have h2 := Memory.wf_write h1 (a + 1) (byteOfWord v 1)
  have h3 := Memory.wf_write h2 (a + 2) (byteOfWord v 2)
  unfold Memory.writeWord
  have h4 : k = 0 ∨ k = 1 ∨ k = 2 ∨ k = 3 := by omega
  rcases h4 with rfl | rfl | rfl | rfl
  · rw [Memory.read_write_other _ _ (by omega), Memory.read_write_other _ _ (by omega),
      Memory.read_write_other _ _ (by omega), Nat.add_zero, Memory.read_write_same hm]
  · rw [Memory.read_write_other _ _ (by omega), Memory.read_write_other _ _ (by omega), Memory.read_write_same h1]
  · rw [Memory.read_write_other _ _ (by omega), Memory.read_write_same h2]
  · rw [Memory.read_write_same h3]

/-- The four bytes of a word make up the word. -/
@[simp] theorem wordOfBytes_byteOfWord (v : Word) :
    wordOfBytes (byteOfWord v 0) (byteOfWord v 1) (byteOfWord v 2) (byteOfWord v 3) = v := by
  apply BitVec.eq_of_getLsbD_eq
  intro i hi
  simp only [wordOfBytes, byteOfWord, BitVec.getLsbD_append, BitVec.getLsbD_extractLsb']
  split_ifs <;> rw [decide_eq_true (by omega), Bool.true_and] <;> congr 1 <;> omega

/-- Byte `k` of a word made of bytes is the `k`-th of them. -/
theorem byteOfWord_wordOfBytes (b0 b1 b2 b3 : Byte) :
    byteOfWord (wordOfBytes b0 b1 b2 b3) 0 = b0 ∧ byteOfWord (wordOfBytes b0 b1 b2 b3) 1 = b1 ∧
      byteOfWord (wordOfBytes b0 b1 b2 b3) 2 = b2 ∧ byteOfWord (wordOfBytes b0 b1 b2 b3) 3 = b3 := by
  refine ⟨?_, ?_, ?_, ?_⟩ <;>
  · ext i hi
    simp only [wordOfBytes, byteOfWord, BitVec.getElem_extractLsb', BitVec.getLsbD_append]
    split_ifs <;> first | omega | skip
    rw [← BitVec.getLsbD_eq_getElem]
    congr 1
    omega

/-- A word read after a word write at the same address gives the word. -/
@[simp] theorem Memory.readWord_writeWord {m : Memory} (hm : m.wf = true) (a : Nat) (v : Word) :
    (m.writeWord a v).readWord a = v := by
  have h := fun {k} hk => Memory.read_writeWord_byte (k := k) hm a v hk
  unfold Memory.readWord
  rw [show (m.writeWord a v).read a = byteOfWord v 0 from h (k := 0) (by omega), h (by omega), h (by omega),
    h (by omega), wordOfBytes_byteOfWord]

/-- A word write leaves a word it does not overlap alone. -/
theorem Memory.readWord_writeWord_other (m : Memory) {a a' : Nat} (v : Word) (h : a' + 4 ≤ a ∨ a + 4 ≤ a') :
    (m.writeWord a v).readWord a' = m.readWord a' := by
  unfold Memory.readWord
  rw [Memory.read_writeWord_other _ _ (by omega), Memory.read_writeWord_other _ _ (by omega),
    Memory.read_writeWord_other _ _ (by omega), Memory.read_writeWord_other _ _ (by omega)]

end Sys2Proof.Machine
end

