-- ==== Sys2Proof/Laws/Result.lean ====
section
/-! SUPPORT. How results chain: what a chain that ended well or badly went through. -/

namespace Sys2Proof.Machine

variable {α β : Type}

@[simp] theorem Res.bind_next (a : α) (f : α → Res β) : Res.bind (.next a) f = f a := rfl
@[simp] theorem Res.bind_fault (k : Fault) (f : α → Res β) : Res.bind (.fault k) f = .fault k := rfl
@[simp] theorem Res.bind_refused (r : Refusal) (f : α → Res β) : Res.bind (.refused r) f = .refused r := rfl
@[simp] theorem raise_eq (k : State → Fault) (s : State) : (raise k s : Res α) = .fault (k s) := rfl

/-- A chain answers only through an answer of its first part. -/
theorem Res.bind_eq_next {o : Res α} {f : α → Res β} {b : β} :
    Res.bind o f = .next b ↔ ∃ a, o = .next a ∧ f a = .next b := by
  cases o <;> simp

/-- A chain faults in its first part or after it. -/
theorem Res.bind_eq_fault {o : Res α} {f : α → Res β} {k : Fault} :
    Res.bind o f = .fault k ↔ o = .fault k ∨ ∃ a, o = .next a ∧ f a = .fault k := by
  cases o <;> simp

/-- A chain refuses in its first part or after it. -/
theorem Res.bind_eq_refused {o : Res α} {f : α → Res β} {r : Refusal} :
    Res.bind o f = .refused r ↔ o = .refused r ∨ ∃ a, o = .next a ∧ f a = .refused r := by
  cases o <;> simp

theorem Res.bind_assoc {γ : Type} (o : Res α) (f : α → Res β) (g : β → Res γ) :
    Res.bind (Res.bind o f) g = Res.bind o fun a => Res.bind (f a) g := by
  cases o <;> rfl

end Sys2Proof.Machine
end

