-- ==== Sys2Proof/Laws/State.lean ====
section
/-! SUPPORT. One lemma per field per update of the state: no later proof unfolds a record update. -/

namespace Sys2Proof.Machine

/-! ### `State.setPc` -/

@[simp] theorem State.setPc_regs (s : State) (v : Word) : (s.setPc v).regs = s.regs := rfl
@[simp] theorem State.setPc_pc (s : State) (v : Word) : (s.setPc v).pc = v := rfl
@[simp] theorem State.setPc_sp (s : State) (v : Word) : (s.setPc v).sp = s.sp := rfl
@[simp] theorem State.setPc_hp (s : State) (v : Word) : (s.setPc v).hp = s.hp := rfl
@[simp] theorem State.setPc_flags (s : State) (v : Word) : (s.setPc v).flags = s.flags := rfl
@[simp] theorem State.setPc_halt (s : State) (v : Word) : (s.setPc v).halt = s.halt := rfl
@[simp] theorem State.setPc_mem (s : State) (v : Word) : (s.setPc v).mem = s.mem := rfl
@[simp] theorem State.setPc_kbd (s : State) (v : Word) : (s.setPc v).kbd = s.kbd := rfl
@[simp] theorem State.setPc_con (s : State) (v : Word) : (s.setPc v).con = s.con := rfl
@[simp] theorem State.setPc_tmr (s : State) (v : Word) : (s.setPc v).tmr = s.tmr := rfl
@[simp] theorem State.setPc_schedule (s : State) (v : Word) : (s.setPc v).schedule = s.schedule := rfl
@[simp] theorem State.setPc_cfg (s : State) (v : Word) : (s.setPc v).cfg = s.cfg := rfl

/-! ### `State.setSp` -/

@[simp] theorem State.setSp_regs (s : State) (v : Word) : (s.setSp v).regs = s.regs := rfl
@[simp] theorem State.setSp_pc (s : State) (v : Word) : (s.setSp v).pc = s.pc := rfl
@[simp] theorem State.setSp_sp (s : State) (v : Word) : (s.setSp v).sp = v := rfl
@[simp] theorem State.setSp_hp (s : State) (v : Word) : (s.setSp v).hp = s.hp := rfl
@[simp] theorem State.setSp_flags (s : State) (v : Word) : (s.setSp v).flags = s.flags := rfl
@[simp] theorem State.setSp_halt (s : State) (v : Word) : (s.setSp v).halt = s.halt := rfl
@[simp] theorem State.setSp_mem (s : State) (v : Word) : (s.setSp v).mem = s.mem := rfl
@[simp] theorem State.setSp_kbd (s : State) (v : Word) : (s.setSp v).kbd = s.kbd := rfl
@[simp] theorem State.setSp_con (s : State) (v : Word) : (s.setSp v).con = s.con := rfl
@[simp] theorem State.setSp_tmr (s : State) (v : Word) : (s.setSp v).tmr = s.tmr := rfl
@[simp] theorem State.setSp_schedule (s : State) (v : Word) : (s.setSp v).schedule = s.schedule := rfl
@[simp] theorem State.setSp_cfg (s : State) (v : Word) : (s.setSp v).cfg = s.cfg := rfl

/-! ### `State.setHp` -/

@[simp] theorem State.setHp_regs (s : State) (v : Word) : (s.setHp v).regs = s.regs := rfl
@[simp] theorem State.setHp_pc (s : State) (v : Word) : (s.setHp v).pc = s.pc := rfl
@[simp] theorem State.setHp_sp (s : State) (v : Word) : (s.setHp v).sp = s.sp := rfl
@[simp] theorem State.setHp_hp (s : State) (v : Word) : (s.setHp v).hp = v := rfl
@[simp] theorem State.setHp_flags (s : State) (v : Word) : (s.setHp v).flags = s.flags := rfl
@[simp] theorem State.setHp_halt (s : State) (v : Word) : (s.setHp v).halt = s.halt := rfl
@[simp] theorem State.setHp_mem (s : State) (v : Word) : (s.setHp v).mem = s.mem := rfl
@[simp] theorem State.setHp_kbd (s : State) (v : Word) : (s.setHp v).kbd = s.kbd := rfl
@[simp] theorem State.setHp_con (s : State) (v : Word) : (s.setHp v).con = s.con := rfl
@[simp] theorem State.setHp_tmr (s : State) (v : Word) : (s.setHp v).tmr = s.tmr := rfl
@[simp] theorem State.setHp_schedule (s : State) (v : Word) : (s.setHp v).schedule = s.schedule := rfl
@[simp] theorem State.setHp_cfg (s : State) (v : Word) : (s.setHp v).cfg = s.cfg := rfl

/-! ### `State.setFlags` -/

@[simp] theorem State.setFlags_regs (s : State) (f : Flags) : (s.setFlags f).regs = s.regs := rfl
@[simp] theorem State.setFlags_pc (s : State) (f : Flags) : (s.setFlags f).pc = s.pc := rfl
@[simp] theorem State.setFlags_sp (s : State) (f : Flags) : (s.setFlags f).sp = s.sp := rfl
@[simp] theorem State.setFlags_hp (s : State) (f : Flags) : (s.setFlags f).hp = s.hp := rfl
@[simp] theorem State.setFlags_flags (s : State) (f : Flags) : (s.setFlags f).flags = f := rfl
@[simp] theorem State.setFlags_halt (s : State) (f : Flags) : (s.setFlags f).halt = s.halt := rfl
@[simp] theorem State.setFlags_mem (s : State) (f : Flags) : (s.setFlags f).mem = s.mem := rfl
@[simp] theorem State.setFlags_kbd (s : State) (f : Flags) : (s.setFlags f).kbd = s.kbd := rfl
@[simp] theorem State.setFlags_con (s : State) (f : Flags) : (s.setFlags f).con = s.con := rfl
@[simp] theorem State.setFlags_tmr (s : State) (f : Flags) : (s.setFlags f).tmr = s.tmr := rfl
@[simp] theorem State.setFlags_schedule (s : State) (f : Flags) : (s.setFlags f).schedule = s.schedule := rfl
@[simp] theorem State.setFlags_cfg (s : State) (f : Flags) : (s.setFlags f).cfg = s.cfg := rfl

/-! ### `State.setHalt` -/

@[simp] theorem State.setHalt_regs (s : State) (b : Bool) : (s.setHalt b).regs = s.regs := rfl
@[simp] theorem State.setHalt_pc (s : State) (b : Bool) : (s.setHalt b).pc = s.pc := rfl
@[simp] theorem State.setHalt_sp (s : State) (b : Bool) : (s.setHalt b).sp = s.sp := rfl
@[simp] theorem State.setHalt_hp (s : State) (b : Bool) : (s.setHalt b).hp = s.hp := rfl
@[simp] theorem State.setHalt_flags (s : State) (b : Bool) : (s.setHalt b).flags = s.flags := rfl
@[simp] theorem State.setHalt_halt (s : State) (b : Bool) : (s.setHalt b).halt = b := rfl
@[simp] theorem State.setHalt_mem (s : State) (b : Bool) : (s.setHalt b).mem = s.mem := rfl
@[simp] theorem State.setHalt_kbd (s : State) (b : Bool) : (s.setHalt b).kbd = s.kbd := rfl
@[simp] theorem State.setHalt_con (s : State) (b : Bool) : (s.setHalt b).con = s.con := rfl
@[simp] theorem State.setHalt_tmr (s : State) (b : Bool) : (s.setHalt b).tmr = s.tmr := rfl
@[simp] theorem State.setHalt_schedule (s : State) (b : Bool) : (s.setHalt b).schedule = s.schedule := rfl
@[simp] theorem State.setHalt_cfg (s : State) (b : Bool) : (s.setHalt b).cfg = s.cfg := rfl

/-! ### `State.setGpr` -/

@[simp] theorem State.setGpr_regs (s : State) (n : Fin 32) (v : Word) : (s.setGpr n v).regs = s.regs.set n v := rfl
@[simp] theorem State.setGpr_pc (s : State) (n : Fin 32) (v : Word) : (s.setGpr n v).pc = s.pc := rfl
@[simp] theorem State.setGpr_sp (s : State) (n : Fin 32) (v : Word) : (s.setGpr n v).sp = s.sp := rfl
@[simp] theorem State.setGpr_hp (s : State) (n : Fin 32) (v : Word) : (s.setGpr n v).hp = s.hp := rfl
@[simp] theorem State.setGpr_flags (s : State) (n : Fin 32) (v : Word) : (s.setGpr n v).flags = s.flags := rfl
@[simp] theorem State.setGpr_halt (s : State) (n : Fin 32) (v : Word) : (s.setGpr n v).halt = s.halt := rfl
@[simp] theorem State.setGpr_mem (s : State) (n : Fin 32) (v : Word) : (s.setGpr n v).mem = s.mem := rfl
@[simp] theorem State.setGpr_kbd (s : State) (n : Fin 32) (v : Word) : (s.setGpr n v).kbd = s.kbd := rfl
@[simp] theorem State.setGpr_con (s : State) (n : Fin 32) (v : Word) : (s.setGpr n v).con = s.con := rfl
@[simp] theorem State.setGpr_tmr (s : State) (n : Fin 32) (v : Word) : (s.setGpr n v).tmr = s.tmr := rfl
@[simp] theorem State.setGpr_schedule (s : State) (n : Fin 32) (v : Word) : (s.setGpr n v).schedule = s.schedule := rfl
@[simp] theorem State.setGpr_cfg (s : State) (n : Fin 32) (v : Word) : (s.setGpr n v).cfg = s.cfg := rfl

/-! ### `State.setMem` -/

@[simp] theorem State.setMem_regs (s : State) (m : Memory) : (s.setMem m).regs = s.regs := rfl
@[simp] theorem State.setMem_pc (s : State) (m : Memory) : (s.setMem m).pc = s.pc := rfl
@[simp] theorem State.setMem_sp (s : State) (m : Memory) : (s.setMem m).sp = s.sp := rfl
@[simp] theorem State.setMem_hp (s : State) (m : Memory) : (s.setMem m).hp = s.hp := rfl
@[simp] theorem State.setMem_flags (s : State) (m : Memory) : (s.setMem m).flags = s.flags := rfl
@[simp] theorem State.setMem_halt (s : State) (m : Memory) : (s.setMem m).halt = s.halt := rfl
@[simp] theorem State.setMem_mem (s : State) (m : Memory) : (s.setMem m).mem = m := rfl
@[simp] theorem State.setMem_kbd (s : State) (m : Memory) : (s.setMem m).kbd = s.kbd := rfl
@[simp] theorem State.setMem_con (s : State) (m : Memory) : (s.setMem m).con = s.con := rfl
@[simp] theorem State.setMem_tmr (s : State) (m : Memory) : (s.setMem m).tmr = s.tmr := rfl
@[simp] theorem State.setMem_schedule (s : State) (m : Memory) : (s.setMem m).schedule = s.schedule := rfl
@[simp] theorem State.setMem_cfg (s : State) (m : Memory) : (s.setMem m).cfg = s.cfg := rfl

/-! ### `State.setKbd` -/

@[simp] theorem State.setKbd_regs (s : State) (k : Keyboard) : (s.setKbd k).regs = s.regs := rfl
@[simp] theorem State.setKbd_pc (s : State) (k : Keyboard) : (s.setKbd k).pc = s.pc := rfl
@[simp] theorem State.setKbd_sp (s : State) (k : Keyboard) : (s.setKbd k).sp = s.sp := rfl
@[simp] theorem State.setKbd_hp (s : State) (k : Keyboard) : (s.setKbd k).hp = s.hp := rfl
@[simp] theorem State.setKbd_flags (s : State) (k : Keyboard) : (s.setKbd k).flags = s.flags := rfl
@[simp] theorem State.setKbd_halt (s : State) (k : Keyboard) : (s.setKbd k).halt = s.halt := rfl
@[simp] theorem State.setKbd_mem (s : State) (k : Keyboard) : (s.setKbd k).mem = s.mem := rfl
@[simp] theorem State.setKbd_kbd (s : State) (k : Keyboard) : (s.setKbd k).kbd = k := rfl
@[simp] theorem State.setKbd_con (s : State) (k : Keyboard) : (s.setKbd k).con = s.con := rfl
@[simp] theorem State.setKbd_tmr (s : State) (k : Keyboard) : (s.setKbd k).tmr = s.tmr := rfl
@[simp] theorem State.setKbd_schedule (s : State) (k : Keyboard) : (s.setKbd k).schedule = s.schedule := rfl
@[simp] theorem State.setKbd_cfg (s : State) (k : Keyboard) : (s.setKbd k).cfg = s.cfg := rfl

/-! ### `State.setCon` -/

@[simp] theorem State.setCon_regs (s : State) (c : Console) : (s.setCon c).regs = s.regs := rfl
@[simp] theorem State.setCon_pc (s : State) (c : Console) : (s.setCon c).pc = s.pc := rfl
@[simp] theorem State.setCon_sp (s : State) (c : Console) : (s.setCon c).sp = s.sp := rfl
@[simp] theorem State.setCon_hp (s : State) (c : Console) : (s.setCon c).hp = s.hp := rfl
@[simp] theorem State.setCon_flags (s : State) (c : Console) : (s.setCon c).flags = s.flags := rfl
@[simp] theorem State.setCon_halt (s : State) (c : Console) : (s.setCon c).halt = s.halt := rfl
@[simp] theorem State.setCon_mem (s : State) (c : Console) : (s.setCon c).mem = s.mem := rfl
@[simp] theorem State.setCon_kbd (s : State) (c : Console) : (s.setCon c).kbd = s.kbd := rfl
@[simp] theorem State.setCon_con (s : State) (c : Console) : (s.setCon c).con = c := rfl
@[simp] theorem State.setCon_tmr (s : State) (c : Console) : (s.setCon c).tmr = s.tmr := rfl
@[simp] theorem State.setCon_schedule (s : State) (c : Console) : (s.setCon c).schedule = s.schedule := rfl
@[simp] theorem State.setCon_cfg (s : State) (c : Console) : (s.setCon c).cfg = s.cfg := rfl

/-! ### `State.setTmr` -/

@[simp] theorem State.setTmr_regs (s : State) (t : Timer) : (s.setTmr t).regs = s.regs := rfl
@[simp] theorem State.setTmr_pc (s : State) (t : Timer) : (s.setTmr t).pc = s.pc := rfl
@[simp] theorem State.setTmr_sp (s : State) (t : Timer) : (s.setTmr t).sp = s.sp := rfl
@[simp] theorem State.setTmr_hp (s : State) (t : Timer) : (s.setTmr t).hp = s.hp := rfl
@[simp] theorem State.setTmr_flags (s : State) (t : Timer) : (s.setTmr t).flags = s.flags := rfl
@[simp] theorem State.setTmr_halt (s : State) (t : Timer) : (s.setTmr t).halt = s.halt := rfl
@[simp] theorem State.setTmr_mem (s : State) (t : Timer) : (s.setTmr t).mem = s.mem := rfl
@[simp] theorem State.setTmr_kbd (s : State) (t : Timer) : (s.setTmr t).kbd = s.kbd := rfl
@[simp] theorem State.setTmr_con (s : State) (t : Timer) : (s.setTmr t).con = s.con := rfl
@[simp] theorem State.setTmr_tmr (s : State) (t : Timer) : (s.setTmr t).tmr = t := rfl
@[simp] theorem State.setTmr_schedule (s : State) (t : Timer) : (s.setTmr t).schedule = s.schedule := rfl
@[simp] theorem State.setTmr_cfg (s : State) (t : Timer) : (s.setTmr t).cfg = s.cfg := rfl

/-! ### `State.agentStep` -/

@[simp] theorem State.agentStep_regs (s : State) (e : AgentEvent) : (s.agentStep e).regs = s.regs := rfl
@[simp] theorem State.agentStep_pc (s : State) (e : AgentEvent) : (s.agentStep e).pc = s.pc := rfl
@[simp] theorem State.agentStep_sp (s : State) (e : AgentEvent) : (s.agentStep e).sp = s.sp := rfl
@[simp] theorem State.agentStep_hp (s : State) (e : AgentEvent) : (s.agentStep e).hp = s.hp := rfl
@[simp] theorem State.agentStep_flags (s : State) (e : AgentEvent) : (s.agentStep e).flags = s.flags := rfl
@[simp] theorem State.agentStep_halt (s : State) (e : AgentEvent) : (s.agentStep e).halt = s.halt := rfl
@[simp] theorem State.agentStep_mem (s : State) (e : AgentEvent) : (s.agentStep e).mem = s.mem := rfl
@[simp] theorem State.agentStep_kbd (s : State) (e : AgentEvent) : (s.agentStep e).kbd = s.kbd.hear s.cfg.kbdCapacity e := rfl
@[simp] theorem State.agentStep_con (s : State) (e : AgentEvent) : (s.agentStep e).con = s.con := rfl
@[simp] theorem State.agentStep_tmr (s : State) (e : AgentEvent) : (s.agentStep e).tmr = s.tmr.hear e := rfl
@[simp] theorem State.agentStep_schedule (s : State) (e : AgentEvent) : (s.agentStep e).schedule = s.schedule := rfl
@[simp] theorem State.agentStep_cfg (s : State) (e : AgentEvent) : (s.agentStep e).cfg = s.cfg := rfl

/-! ### `State.agentsAct` -/

@[simp] theorem State.agentsAct_regs (s : State) : s.agentsAct.regs = s.regs := rfl
@[simp] theorem State.agentsAct_pc (s : State) : s.agentsAct.pc = s.pc := rfl
@[simp] theorem State.agentsAct_sp (s : State) : s.agentsAct.sp = s.sp := rfl
@[simp] theorem State.agentsAct_hp (s : State) : s.agentsAct.hp = s.hp := rfl
@[simp] theorem State.agentsAct_flags (s : State) : s.agentsAct.flags = s.flags := rfl
@[simp] theorem State.agentsAct_halt (s : State) : s.agentsAct.halt = s.halt := rfl
@[simp] theorem State.agentsAct_mem (s : State) : s.agentsAct.mem = s.mem := rfl
@[simp] theorem State.agentsAct_kbd (s : State) :
    s.agentsAct.kbd = (s.schedule.headD []).foldl (Keyboard.hear s.cfg.kbdCapacity) s.kbd := rfl
@[simp] theorem State.agentsAct_con (s : State) : s.agentsAct.con = s.con := rfl
@[simp] theorem State.agentsAct_tmr (s : State) : s.agentsAct.tmr = (s.schedule.headD []).foldl Timer.hear s.tmr := rfl
@[simp] theorem State.agentsAct_schedule (s : State) : s.agentsAct.schedule = s.schedule.tail := rfl
@[simp] theorem State.agentsAct_cfg (s : State) : s.agentsAct.cfg = s.cfg := rfl

/-! ### `State.setReg`: only registers change -/

@[simp] theorem State.setReg_flags (s : State) (r : Reg) (v : Word) : (s.setReg r v).flags = s.flags := by cases r <;> rfl
@[simp] theorem State.setReg_halt (s : State) (r : Reg) (v : Word) : (s.setReg r v).halt = s.halt := by cases r <;> rfl
@[simp] theorem State.setReg_mem (s : State) (r : Reg) (v : Word) : (s.setReg r v).mem = s.mem := by cases r <;> rfl
@[simp] theorem State.setReg_kbd (s : State) (r : Reg) (v : Word) : (s.setReg r v).kbd = s.kbd := by cases r <;> rfl
@[simp] theorem State.setReg_con (s : State) (r : Reg) (v : Word) : (s.setReg r v).con = s.con := by cases r <;> rfl
@[simp] theorem State.setReg_tmr (s : State) (r : Reg) (v : Word) : (s.setReg r v).tmr = s.tmr := by cases r <;> rfl
@[simp] theorem State.setReg_schedule (s : State) (r : Reg) (v : Word) : (s.setReg r v).schedule = s.schedule := by cases r <;> rfl
@[simp] theorem State.setReg_cfg (s : State) (r : Reg) (v : Word) : (s.setReg r v).cfg = s.cfg := by cases r <;> rfl

end Sys2Proof.Machine
end

