-- ==== Sys2Proof/Laws/Registers.lean ====
section
/-! SUPPORT. Registers: read after write, what reading, writing and committing can do, and the index of a register. -/

namespace Sys2Proof.Machine

/-! ### Which updates a register read sees -/

/-- Registers read alike in states that agree on the general registers, PC, SP and HP. -/
theorem State.reg?_congr {s t : State} (hr : t.regs = s.regs) (hp : t.pc = s.pc) (hs : t.sp = s.sp) (hh : t.hp = s.hp)
    (r : Reg) : t.reg? r = s.reg? r := by
  cases r <;> simp [State.reg?, *]

@[simp] theorem State.reg?_setFlags (s : State) (f : Flags) (r : Reg) : (s.setFlags f).reg? r = s.reg? r :=
  State.reg?_congr rfl rfl rfl rfl r

@[simp] theorem State.reg?_setHalt (s : State) (b : Bool) (r : Reg) : (s.setHalt b).reg? r = s.reg? r :=
  State.reg?_congr rfl rfl rfl rfl r

@[simp] theorem State.reg?_setMem (s : State) (m : Memory) (r : Reg) : (s.setMem m).reg? r = s.reg? r :=
  State.reg?_congr rfl rfl rfl rfl r

@[simp] theorem State.reg?_setKbd (s : State) (k : Keyboard) (r : Reg) : (s.setKbd k).reg? r = s.reg? r :=
  State.reg?_congr rfl rfl rfl rfl r

@[simp] theorem State.reg?_setCon (s : State) (c : Console) (r : Reg) : (s.setCon c).reg? r = s.reg? r :=
  State.reg?_congr rfl rfl rfl rfl r

@[simp] theorem State.reg?_setTmr (s : State) (t : Timer) (r : Reg) : (s.setTmr t).reg? r = s.reg? r :=
  State.reg?_congr rfl rfl rfl rfl r

@[simp] theorem State.reg?_agentsAct (s : State) (r : Reg) : s.agentsAct.reg? r = s.reg? r :=
  State.reg?_congr rfl rfl rfl rfl r

@[simp] theorem State.reg?_agentStep (s : State) (e : AgentEvent) (r : Reg) : (s.agentStep e).reg? r = s.reg? r :=
  State.reg?_congr rfl rfl rfl rfl r

/-! ### Read after write -/

/-- Whether an operand names a register does not depend on the state. -/
theorem State.reg?_isSome (s t : State) (r : Reg) : (s.reg? r).isSome = (t.reg? r).isSome := by cases r <;> rfl

/-- An operand that names a register in one state names one in every state. -/
theorem State.reg?_some_of_some {s : State} (t : State) {r : Reg} {v : Word} (h : s.reg? r = some v) :
    ∃ w, t.reg? r = some w := by
  rw [← Option.isSome_iff_exists, State.reg?_isSome t s r, h]
  rfl

/-- An operand that names no register in one state names none in any. -/
theorem State.reg?_none_of_none {s : State} (t : State) {r : Reg} (h : s.reg? r = none) : t.reg? r = none := by
  rw [← Option.isNone_iff_eq_none, ← Option.not_isSome, State.reg?_isSome t s r, h]
  rfl

/-- A register that is written reads as what was written (R14). -/
theorem State.reg?_setReg_same {s : State} {r : Reg} {w : Word} (h : s.reg? r = some w) (v : Word) :
    (s.setReg r v).reg? r = some v := by
  cases r with
  | gpr n =>
    simp only [State.setReg, State.reg?, State.setGpr_regs, Vector.get_eq_getElem]
    exact congrArg some (Vector.getElem_set_self n.isLt)
  | illegal i => cases h
  | _ => rfl

/-- Every other register keeps its value (R14). -/
theorem State.reg?_setReg_other (s : State) {r r' : Reg} (v : Word) (h : r' ≠ r) :
    (s.setReg r v).reg? r' = s.reg? r' := by
  cases r with
  | gpr n =>
    cases r' with
    | gpr m =>
      have hne : n.val ≠ m.val := fun e => h (by rw [Fin.ext e])
      simp only [State.setReg, State.reg?, State.setGpr_regs, Vector.get_eq_getElem]
      exact congrArg some (Vector.getElem_set_ne n.isLt m.isLt hne)
    | _ => rfl
  | illegal i => rfl
  | pc => cases r' <;> first | rfl | exact absurd rfl h
  | sp => cases r' <;> first | rfl | exact absurd rfl h
  | hp => cases r' <;> first | rfl | exact absurd rfl h

/-! ### Reading, writing, committing -/

theorem readReg_of_some {s : State} {r : Reg} {v : Word} (h : s.reg? r = some v) : readReg r s = .next v := by
  simp [readReg, h]

theorem readReg_of_none {s : State} {r : Reg} (h : s.reg? r = none) :
    readReg r s = .fault (.invalidRegister (r.index s.cfg.aliases) s) := by
  simp [readReg, h]

/-- All a register read can do. -/
theorem readReg_eq_next {s : State} {r : Reg} {v : Word} : readReg r s = .next v ↔ s.reg? r = some v := by
  unfold readReg
  cases s.reg? r <;> simp

theorem readReg_eq_fault {s : State} {r : Reg} {k : Fault} :
    readReg r s = .fault k ↔ s.reg? r = none ∧ k = .invalidRegister (r.index s.cfg.aliases) s := by
  unfold readReg
  cases s.reg? r <;> simp [eq_comm]

theorem readReg_ne_refused {s : State} {r : Reg} {x : Refusal} : readReg r s ≠ .refused x := by
  unfold readReg
  cases s.reg? r <;> simp

theorem writeReg_of_some {s : State} {r : Reg} {w : Word} (h : s.reg? r = some w) (v : Word) :
    writeReg r v s = .next (s.setReg r v) := by
  simp [writeReg, h]

theorem writeReg_of_none {s : State} {r : Reg} (h : s.reg? r = none) (v : Word) :
    writeReg r v s = .fault (.invalidRegister (r.index s.cfg.aliases) s) := by
  simp [writeReg, h]

theorem commit_of_some {s : State} {r : Reg} {w : Word} (h : s.reg? r = some w) (v : Word) (f : Flags) :
    commit r v f s = .next ((s.setReg r v).setFlags f) := by
  simp [commit, writeReg_of_some h]

theorem commit_of_none {s : State} {r : Reg} (h : s.reg? r = none) (v : Word) (f : Flags) :
    commit r v f s = .fault (.invalidRegister (r.index s.cfg.aliases) s) := by
  simp [commit, writeReg_of_none h]

/-- All a commit can do when it answers (R76). -/
theorem commit_eq_next {s t : State} {r : Reg} {v : Word} {f : Flags} :
    commit r v f s = .next t ↔ (∃ w, s.reg? r = some w) ∧ t = (s.setReg r v).setFlags f := by
  cases h : s.reg? r with
  | none => simp [commit_of_none h]
  | some w => simp [commit_of_some h, eq_comm]

/-- All a commit can do when it faults (R76): nothing was written. -/
theorem commit_eq_fault {s : State} {r : Reg} {v : Word} {f : Flags} {k : Fault} :
    commit r v f s = .fault k ↔ s.reg? r = none ∧ k = .invalidRegister (r.index s.cfg.aliases) s := by
  cases h : s.reg? r with
  | none => simp [commit_of_none h, eq_comm]
  | some w => simp [commit_of_some h]

theorem commit_ne_refused {s : State} {r : Reg} {v : Word} {f : Flags} {x : Refusal} : commit r v f s ≠ .refused x := by
  cases h : s.reg? r with
  | none => simp [commit_of_none h]
  | some w => simp [commit_of_some h]

/-- All that reading the operands of format `RR` can do (R73). -/
theorem readRR_eq_next {s : State} {d r : Reg} {p : Word × Word} :
    readRR d r s = .next p ↔ s.reg? d = some p.1 ∧ s.reg? r = some p.2 := by
  unfold readRR
  cases hd : s.reg? d <;> cases hr : s.reg? r <;> simp [readReg, hd, hr, Prod.ext_iff]

theorem readRR_eq_fault {s : State} {d r : Reg} {k : Fault} :
    readRR d r s = .fault k ↔
      (s.reg? d = none ∧ k = .invalidRegister (d.index s.cfg.aliases) s) ∨
        ((∃ a, s.reg? d = some a) ∧ s.reg? r = none ∧ k = .invalidRegister (r.index s.cfg.aliases) s) := by
  unfold readRR
  cases hd : s.reg? d <;> cases hr : s.reg? r <;> simp [readReg, hd, hr, eq_comm]

theorem readRR_ne_refused {s : State} {d r : Reg} {x : Refusal} : readRR d r s ≠ .refused x := by
  unfold readRR
  cases hd : s.reg? d <;> cases hr : s.reg? r <;> simp [readReg, hd, hr]

theorem readRI_eq_next {s : State} {d : Reg} {imm : Word} {p : Word × Word} :
    readRI d imm s = .next p ↔ s.reg? d = some p.1 ∧ imm = p.2 := by
  unfold readRI
  cases hd : s.reg? d <;> simp [readReg, hd, Prod.ext_iff]

theorem readRI_eq_fault {s : State} {d : Reg} {imm : Word} {k : Fault} :
    readRI d imm s = .fault k ↔ s.reg? d = none ∧ k = .invalidRegister (d.index s.cfg.aliases) s := by
  unfold readRI
  cases hd : s.reg? d <;> simp [readReg, hd, eq_comm]

theorem readRI_ne_refused {s : State} {d : Reg} {imm : Word} {x : Refusal} : readRI d imm s ≠ .refused x := by
  unfold readRI
  cases hd : s.reg? d <;> simp [readReg, hd]

end Sys2Proof.Machine
end

