-- ==== Sys2Proof/Laws/Bus.lean ====
section
/-! SUPPORT. The memory bus and the devices: what an access can do, said once. -/

namespace Sys2Proof.Machine

/-! ### The memory map (R31, R35) -/

theorem Bank.holds_iff {c : Config} {b : Bank} {a : Nat} :
    b.holds c a = true ↔ b.base c ≤ a ∧ a < b.base c + b.size c := by
  simp [Bank.holds]

/-- Routing in a legal map, as the four ranges of R31. -/
theorem route_eq {c : Config} (hc : c.mapWf) (a : Nat) :
    route c a =
      if a < c.ramBase then some (.bank .rom)
      else if a < c.ramEnd then some (.bank .ram)
      else if a < c.ioBase then some (.bank .vram)
      else if a < c.ioEnd then some .io
      else none := by
  obtain ⟨h0, -, h1, -⟩ := hc
  have e1 : c.ramEnd = c.ramBase + c.ramSize := rfl
  have e2 : c.vramBase = c.ramEnd := rfl
  have e3 : c.ioBase = c.vramBase + c.vramSize := rfl
  have e4 : c.ioEnd = c.ioBase + c.ioSize := rfl
  unfold route
  simp only [Bank.holds_iff, Bank.base, Bank.size]
  split_ifs <;> first | rfl | omega

/-- The ends of the regions, in order (R31). -/
theorem region_ends (c : Config) : c.ramBase ≤ c.ramEnd ∧ c.ramEnd ≤ c.ioBase ∧ c.ioBase ≤ c.ioEnd := by
  simp only [Config.ioEnd, Config.ioBase, Config.vramBase, Config.ramEnd]
  omega

/-- The I/O window starts on a word (R36). -/
theorem ioBase_mod {c : Config} (hc : c.mapWf) : c.ioBase % 4 = 0 := by
  obtain ⟨h0, h1, h2, h3, -, -, -, h7, -⟩ := hc
  simp only [Config.ioBase, Config.vramBase, Config.ramEnd]
  omega

/-- The whole map lies below 2^32, and below its end an address is a number of 32 bits (R17, R31). -/
theorem ioEnd_lt {c : Config} (hc : c.mapWf) : c.ioEnd + 4 < 2 ^ 32 := by
  obtain ⟨-, -, -, -, -, -, -, -, -, h, -⟩ := hc
  exact h

/-- ROM is the addresses below `RAM_BASE` (R30). -/
theorem rom_end {c : Config} (hc : c.mapWf) : c.romBase = 0 ∧ c.romBase + c.romSize = c.ramBase :=
  ⟨hc.1, hc.2.2.1.symm⟩

/-- An address lies in ROM when it lies below `RAM_BASE`. -/
theorem Bank.holds_rom {c : Config} (hc : c.mapWf) {a : Nat} : Bank.holds c .rom a = true ↔ a < c.ramBase := by
  have := rom_end hc
  rw [Bank.holds_iff]
  simp only [Bank.base, Bank.size]
  omega

/-- Nothing is routed at or above `IO_END`, and everything below it is (R35). -/
theorem route_eq_none {c : Config} (hc : c.mapWf) {a : Nat} : route c a = none ↔ c.ioEnd ≤ a := by
  have := region_ends c
  rw [route_eq hc]
  split_ifs <;> simp <;> omega

theorem route_eq_io {c : Config} (hc : c.mapWf) {a : Nat} : route c a = some .io ↔ c.ioBase ≤ a ∧ a < c.ioEnd := by
  have := region_ends c
  rw [route_eq hc]
  split_ifs <;> simp <;> omega

theorem route_eq_bank {c : Config} (hc : c.mapWf) {a : Nat} : (∃ b, route c a = some (.bank b)) ↔ a < c.ioBase := by
  have := region_ends c
  rw [route_eq hc]
  split_ifs <;> simp <;> omega

theorem route_eq_rom {c : Config} (hc : c.mapWf) {a : Nat} : route c a = some (.bank .rom) ↔ a < c.ramBase := by
  rw [route_eq hc]
  split_ifs <;> simp <;> omega

/-- RAM and VRAM: what a store through the bus may change. -/
theorem route_eq_writable {c : Config} (hc : c.mapWf) {a : Nat} :
    (∃ b, b ≠ Bank.rom ∧ route c a = some (.bank b)) ↔ c.ramBase ≤ a ∧ a < c.ioBase := by
  have := region_ends c
  rw [route_eq hc]
  split_ifs <;> simp <;> omega

/-! ### Devices in the I/O window (R148, R149) -/

/-- All that claiming an address can mean: the device is registered at a base not above it. -/
theorem deviceOffset_eq_some {c : Config} {a off : Nat} {d : Device} :
    deviceOffset c a d = some off ↔ ∃ b, c.deviceBase d = some b ∧ a = b + off ∧ off < d.size := by
  unfold deviceOffset
  cases h : c.deviceBase d with
  | none => simp
  | some b =>
    simp only [Option.some.injEq, exists_eq_left']
    split_ifs with h1
    · rw [Option.some.injEq]
      omega
    · simp
      omega

/-- A device that is registered at `b` claims the addresses from `b` up, in a legal configuration (R148). -/
theorem claimant_of_base {c : Config} (hc : c.devicesWf) {d : Device} {b off : Nat} (hb : c.deviceBase d = some b)
    (ho : off < d.size) : claimant c (b + off) = some (d, off) := by
  have hd : deviceOffset c (b + off) d = some off := deviceOffset_eq_some.mpr ⟨b, hb, rfl, ho⟩
  have hn : ∀ d' : Device, d' ≠ d → deviceOffset c (b + off) d' = none := by
    intro d' hne
    by_contra h
    obtain ⟨off', h⟩ := Option.ne_none_iff_exists'.mp h
    obtain ⟨b', hb', e, ho'⟩ := deviceOffset_eq_some.mp h
    have := hc.2 d (by cases d <;> decide) b hb d' (by cases d' <;> decide) b' hb' (Ne.symm hne)
    omega
  unfold claimant Device.all
  cases d
  · simp [hd]
  · simp [hd, hn .keyboard (by decide)]
  · simp [hd, hn .keyboard (by decide), hn .console (by decide)]

/-- An address outside the range of every registered device has no claimant (R148). -/
theorem claimant_eq_none {c : Config} {a : Nat} :
    claimant c a = none ↔ ∀ d b, c.deviceBase d = some b → a < b ∨ b + d.size ≤ a := by
  have h : claimant c a = none ↔ ∀ d, deviceOffset c a d = none := by
    unfold claimant Device.all
    constructor
    · intro h d
      simp only [List.findSome?_eq_none_iff, Option.map_eq_none_iff] at h
      exact h d (by cases d <;> decide)
    · intro h
      simp [h]
  rw [h]
  constructor
  · intro h d b hb
    by_contra hn
    have := deviceOffset_eq_some.mpr ⟨b, hb, show a = b + (a - b) by omega, by omega⟩
    rw [h d] at this
    cases this
  · intro h d
    by_contra hn
    obtain ⟨off, hn⟩ := Option.ne_none_iff_exists'.mp hn
    obtain ⟨b, hb, e, ho⟩ := deviceOffset_eq_some.mp hn
    have := h d b hb
    omega

/-! ### What a bus access leaves alone -/

theorem SameCpu.refl (s : State) : SameCpu s s := ⟨rfl, rfl, rfl, rfl, rfl, rfl, rfl⟩

theorem SameCpu.trans {s t u : State} (h : SameCpu s t) (h' : SameCpu t u) : SameCpu s u :=
  ⟨h'.regs.trans h.regs, h'.pc.trans h.pc, h'.sp.trans h.sp, h'.hp.trans h.hp, h'.flags.trans h.flags,
    h'.halt.trans h.halt, h'.cfg.trans h.cfg⟩

theorem SameCpu.reg? {s t : State} (h : SameCpu s t) (r : Reg) : t.reg? r = s.reg? r :=
  State.reg?_congr h.regs h.pc h.sp h.hp r

theorem SameCpu.agentsAct (s : State) : SameCpu s s.agentsAct := ⟨rfl, rfl, rfl, rfl, rfl, rfl, rfl⟩

/-- A device write changes a device and nothing else (R148). -/
theorem ioWriteWord_sameCpu (a v : Word) (s : State) : SameCpu s (ioWriteWord a v s) := by
  unfold ioWriteWord
  split <;> exact ⟨rfl, rfl, rfl, rfl, rfl, rfl, rfl⟩

@[simp] theorem ioWriteWord_mem (a v : Word) (s : State) : (ioWriteWord a v s).mem = s.mem := by
  unfold ioWriteWord
  split <;> rfl

@[simp] theorem ioWriteWord_schedule (a v : Word) (s : State) : (ioWriteWord a v s).schedule = s.schedule := by
  unfold ioWriteWord
  split <;> rfl

/-! ### The keyboard stays within its capacity -/

theorem Keyboard.length_enqueue {n : Nat} {k : Keyboard} (hn : 0 < n) (h : k.queue.length ≤ n) (c : Word) :
    (k.enqueue n c).queue.length ≤ n := by
  unfold Keyboard.enqueue
  split_ifs <;> simp only [List.length_append, List.length_tail, List.length_singleton] at * <;> omega

theorem Keyboard.length_hear {n : Nat} {k : Keyboard} (hn : 0 < n) (h : k.queue.length ≤ n) (e : AgentEvent) :
    (k.hear n e).queue.length ≤ n := by
  cases e
  · exact Keyboard.length_enqueue hn h _
  · exact h

theorem Keyboard.length_foldl_hear {n : Nat} {k : Keyboard} (hn : 0 < n) (h : k.queue.length ≤ n)
    (es : List AgentEvent) : (es.foldl (Keyboard.hear n) k).queue.length ≤ n := by
  induction es generalizing k with
  | nil => exact h
  | cons e es ih => exact ih (Keyboard.length_hear hn h e)

theorem Keyboard.length_writeWord (k : Keyboard) (off : Nat) (v : Word) :
    (k.writeWord off v).queue.length ≤ k.queue.length := by
  unfold Keyboard.writeWord
  split_ifs <;> simp

theorem ioWriteWord_keyboardWf {a v : Word} {s : State} (h : s.keyboardWf) : (ioWriteWord a v s).keyboardWf := by
  unfold ioWriteWord State.keyboardWf at *
  split
  · exact (Keyboard.length_writeWord _ _ _).trans h
  all_goals exact h

/-- Agent steps taken together are agent steps taken one by one (R160). -/
theorem State.agentsAct_eq_foldl (s : State) :
    s.agentsAct = { (s.schedule.headD []).foldl State.agentStep s with schedule := s.schedule.tail } := by
  have h : ∀ (es : List AgentEvent) (s : State),
      es.foldl State.agentStep s =
        { s with kbd := es.foldl (Keyboard.hear s.cfg.kbdCapacity) s.kbd, tmr := es.foldl Timer.hear s.tmr } := by
    intro es
    induction es with
    | nil => intro s; rfl
    | cons e es ih => intro s; simp [ih]
  rw [h]
  rfl

/-! ### What the invariant's memory part needs of an access -/

/-- What a store may do to the state besides the CPU's registers: it keeps the canonical memory, ROM and the keyboard's
capacity. -/
structure StoreSafe (s t : State) : Prop extends SameCpu s t where
  memoryWf : s.memoryWf → t.memoryWf
  rom : ∀ a < s.cfg.ramBase, t.mem.read a = s.mem.read a
  keyboardWf : 0 < s.cfg.kbdCapacity → s.keyboardWf → t.keyboardWf

theorem StoreSafe.refl (s : State) : StoreSafe s s := ⟨.refl s, id, fun _ _ => rfl, fun _ => id⟩

theorem StoreSafe.trans {s t u : State} (h : StoreSafe s t) (h' : StoreSafe t u) : StoreSafe s u :=
  ⟨h.toSameCpu.trans h'.toSameCpu, h'.memoryWf ∘ h.memoryWf,
    fun a ha => (h'.rom a (by rw [h.cfg]; exact ha)).trans (h.rom a ha),
    fun hk hs => h'.keyboardWf (by rw [h.cfg]; exact hk) (h.keyboardWf hk hs)⟩

theorem StoreSafe.agentsAct (s : State) : StoreSafe s s.agentsAct :=
  ⟨.agentsAct s, fun h => h, fun _ _ => rfl, fun hk h => Keyboard.length_foldl_hear hk h _⟩

theorem StoreSafe.ioWriteWord (a v : Word) (s : State) : StoreSafe s (Machine.ioWriteWord a v s) := by
  refine ⟨ioWriteWord_sameCpu a v s, fun h => ?_, fun _ _ => by rw [ioWriteWord_mem], fun _ => ioWriteWord_keyboardWf⟩
  unfold State.memoryWf at *
  rw [ioWriteWord_mem, (ioWriteWord_sameCpu a v s).cfg]
  exact h

theorem StoreSafe.writeByte {s : State} {a : Nat} (v : Byte) (h1 : s.cfg.ramBase ≤ a) (h2 : a < s.cfg.ioBase) :
    StoreSafe s (s.setMem (s.mem.write a v)) := by
  refine ⟨⟨rfl, rfl, rfl, rfl, rfl, rfl, rfl⟩, fun h => ⟨Memory.wf_write h.1 _ _, fun p hp => ?_⟩, fun b hb => ?_, fun _ => id⟩
  · rcases Memory.mem_write hp with e | hp
    · simpa [e] using h2
    · exact h.2 p hp
  · exact Memory.read_write_other _ _ (by omega)

theorem StoreSafe.writeWord {s : State} {a : Nat} (v : Word) (h1 : s.cfg.ramBase ≤ a) (h2 : a + 3 < s.cfg.ioBase) :
    StoreSafe s (s.setMem (s.mem.writeWord a v)) :=
  (((StoreSafe.writeByte (byteOfWord v 0) h1 (by omega)).trans
    (StoreSafe.writeByte (a := a + 1) (byteOfWord v 1) (by simp; omega) (by simp; omega))).trans
    (StoreSafe.writeByte (a := a + 2) (byteOfWord v 2) (by simp; omega) (by simp; omega))).trans
    (StoreSafe.writeByte (a := a + 3) (byteOfWord v 3) (by simp; omega) (by simp; omega))

/-! ### Reads -/

/-- A word read changes nothing but what the outside agents change (R36, R160). -/
theorem memRead_eq_next {a : Word} {s : State} {p : Word × State} :
    memRead a s = .next p ↔ busReadWord a s.agentsAct = .next p.1 ∧ p.2 = s.agentsAct := by
  unfold memRead
  rw [Res.bind_eq_next]
  constructor
  · rintro ⟨w, h, e⟩
    cases e
    exact ⟨h, rfl⟩
  · rintro ⟨h, e⟩
    exact ⟨p.1, h, by rw [← e]⟩

/-- A faulting word read leaves the state as the outside agents left it (R143). -/
theorem memRead_eq_fault {a : Word} {s : State} {k : Fault} :
    memRead a s = .fault k ↔ busReadWord a s.agentsAct = .fault k := by
  unfold memRead
  rw [Res.bind_eq_fault]
  simp

/-- An aligned word read below `IO_END` answers (R36). -/
theorem busReadWord_bank {a : Word} {s : State} (hc : s.cfg.mapWf) (ha : a.toNat % 4 = 0) (h : a.toNat < s.cfg.ioBase) :
    busReadWord a s = .next (s.mem.readWord a.toNat) := by
  obtain ⟨b, hb⟩ := (route_eq_bank hc).mpr h
  simp [busReadWord, busReadAligned, ha, hb]

theorem busReadWord_io {a : Word} {s : State} (hc : s.cfg.mapWf) (ha : a.toNat % 4 = 0) (h1 : s.cfg.ioBase ≤ a.toNat)
    (h2 : a.toNat < s.cfg.ioEnd) : busReadWord a s = .next (ioReadWord a s) := by
  simp [busReadWord, busReadAligned, ha, (route_eq_io hc).mpr ⟨h1, h2⟩]

theorem busReadWord_invalid {a : Word} {s : State} (hc : s.cfg.mapWf) (ha : a.toNat % 4 = 0) (h : s.cfg.ioEnd ≤ a.toNat) :
    busReadWord a s = .fault (.invalidAddress a s) := by
  simp [busReadWord, busReadAligned, ha, (route_eq_none hc).mpr h]

theorem busReadWord_misaligned {a : Word} {s : State} (hm : s.cfg.misaligned = .fault) (ha : a.toNat % 4 ≠ 0) :
    busReadWord a s = .fault (.misalignedAccess a s) := by
  simp [busReadWord, ha, hm]

/-- A word read over the bus from ROM, RAM or VRAM (R36). -/
theorem memRead_bank {a : Word} {s : State} (hc : s.cfg.mapWf) (ha : a.toNat % 4 = 0) (h : a.toNat < s.cfg.ioBase) :
    memRead a s = .next (s.mem.readWord a.toNat, s.agentsAct) :=
  memRead_eq_next.mpr ⟨busReadWord_bank (s := s.agentsAct) hc ha h, rfl⟩

/-! ### Writes -/

theorem busWriteWord_ram {a v : Word} {s : State} (hc : s.cfg.mapWf) (ha : a.toNat % 4 = 0) (h1 : s.cfg.ramBase ≤ a.toNat)
    (h2 : a.toNat < s.cfg.ioBase) : busWriteWord a v s = .next (s.setMem (s.mem.writeWord a.toNat v)) := by
  obtain ⟨b, hne, hb⟩ := (route_eq_writable hc).mpr ⟨h1, h2⟩
  cases b
  · exact absurd rfl hne
  all_goals simp [busWriteWord, busWriteAligned, ha, hb]

theorem busWriteWord_io {a v : Word} {s : State} (hc : s.cfg.mapWf) (ha : a.toNat % 4 = 0) (h1 : s.cfg.ioBase ≤ a.toNat)
    (h2 : a.toNat < s.cfg.ioEnd) : busWriteWord a v s = .next (ioWriteWord a v s) := by
  simp [busWriteWord, busWriteAligned, ha, (route_eq_io hc).mpr ⟨h1, h2⟩]

theorem busWriteWord_rom {a v : Word} {s : State} (hc : s.cfg.mapWf) (ha : a.toNat % 4 = 0) (h : a.toNat < s.cfg.ramBase) :
    busWriteWord a v s = .fault (.romWrite a s) := by
  simp [busWriteWord, busWriteAligned, ha, (route_eq_rom hc).mpr h]

theorem busWriteWord_invalid {a v : Word} {s : State} (hc : s.cfg.mapWf) (ha : a.toNat % 4 = 0) (h : s.cfg.ioEnd ≤ a.toNat) :
    busWriteWord a v s = .fault (.invalidAddress a s) := by
  simp [busWriteWord, busWriteAligned, ha, (route_eq_none hc).mpr h]

theorem busWriteWord_misaligned {a v : Word} {s : State} (hm : s.cfg.misaligned = .fault) (ha : a.toNat % 4 ≠ 0) :
    busWriteWord a v s = .fault (.misalignedAccess a s) := by
  simp [busWriteWord, ha, hm]

/-- All a routed byte write can do when it answers (R39). -/
theorem busWriteByte_eq_next {a : Word} {v : Byte} {s t : State} (hc : s.cfg.mapWf) (h : busWriteByte a v s = .next t) :
    (s.cfg.ramBase ≤ a.toNat ∧ a.toNat < s.cfg.ioBase ∧ t = s.setMem (s.mem.write a.toNat v)) ∨
      (s.cfg.ioBase ≤ a.toNat ∧ a.toNat < s.cfg.ioEnd ∧ t = ioWriteByte a v s) := by
  unfold busWriteByte at h
  split at h
  · cases h
  · cases h
  · next b hne hb =>
    cases h
    exact .inl ⟨((route_eq_writable hc).mp ⟨b, by rintro rfl; exact hne rfl, hb⟩).1,
      ((route_eq_writable hc).mp ⟨b, by rintro rfl; exact hne rfl, hb⟩).2, rfl⟩
  · next hb =>
    cases h
    exact .inr ⟨((route_eq_io hc).mp hb).1, ((route_eq_io hc).mp hb).2, rfl⟩

/-- All a routed aligned word write can do when it answers (R37). -/
theorem busWriteAligned_eq_next {a v : Word} {s t : State} (hc : s.cfg.mapWf) (h : busWriteAligned a v s = .next t) :
    (s.cfg.ramBase ≤ a.toNat ∧ a.toNat < s.cfg.ioBase ∧ t = s.setMem (s.mem.writeWord a.toNat v)) ∨
      (s.cfg.ioBase ≤ a.toNat ∧ a.toNat < s.cfg.ioEnd ∧ t = ioWriteWord a v s) := by
  unfold busWriteAligned at h
  split at h
  · cases h
  · cases h
  · next b hne hb =>
    cases h
    exact .inl ⟨((route_eq_writable hc).mp ⟨b, by rintro rfl; exact hne rfl, hb⟩).1,
      ((route_eq_writable hc).mp ⟨b, by rintro rfl; exact hne rfl, hb⟩).2, rfl⟩
  · next hb =>
    cases h
    exact .inr ⟨((route_eq_io hc).mp hb).1, ((route_eq_io hc).mp hb).2, rfl⟩

theorem busWriteByte_storeSafe {a : Word} {v : Byte} {s t : State} (hc : s.cfg.mapWf) (h : busWriteByte a v s = .next t) :
    StoreSafe s t := by
  rcases busWriteByte_eq_next hc h with ⟨h1, h2, rfl⟩ | ⟨-, -, rfl⟩
  · exact .writeByte v h1 h2
  · exact .ioWriteWord _ _ s

/-- Whatever a word write does, it is safe: the regions being whole numbers of words keeps it inside one. -/
theorem busWriteWord_storeSafe {a v : Word} {s t : State} (hc : s.cfg.mapWf)
    (h : busWriteWord a v s = .next t) : StoreSafe s t := by
  unfold busWriteWord at h
  split at h
  · next ha =>
    rcases busWriteAligned_eq_next hc h with ⟨h1, h2, rfl⟩ | ⟨-, -, rfl⟩
    · exact .writeWord v h1 (by have := ioBase_mod hc; omega)
    · exact .ioWriteWord _ _ s
  · split at h
    · cases h
    · obtain ⟨t1, h1, h⟩ := Res.bind_eq_next.mp h
      obtain ⟨t2, h2, h⟩ := Res.bind_eq_next.mp h
      obtain ⟨t3, h3, h⟩ := Res.bind_eq_next.mp h
      have s1 := busWriteByte_storeSafe hc h1
      have s2 := s1.trans (busWriteByte_storeSafe (by rw [s1.cfg]; exact hc) h2)
      have s3 := s2.trans (busWriteByte_storeSafe (by rw [s2.cfg]; exact hc) h3)
      exact s3.trans (busWriteByte_storeSafe (by rw [s3.cfg]; exact hc) h)

theorem memWrite_storeSafe {a v : Word} {s t : State} (hc : s.cfg.mapWf) (h : memWrite a v s = .next t) :
    StoreSafe s t :=
  (StoreSafe.agentsAct s).trans (busWriteWord_storeSafe (s := s.agentsAct) hc h)

/-- A word write over the bus to RAM or VRAM (R37). -/
theorem memWrite_ram {a v : Word} {s : State} (hc : s.cfg.mapWf) (ha : a.toNat % 4 = 0) (h1 : s.cfg.ramBase ≤ a.toNat)
    (h2 : a.toNat < s.cfg.ioBase) :
    memWrite a v s = .next (s.agentsAct.setMem (s.mem.writeWord a.toNat v)) :=
  busWriteWord_ram (s := s.agentsAct) hc ha h1 h2

/-- A byte write leaves the registers, the flags, the halt bit and the configuration alone. -/
theorem busWriteByte_sameCpu {a : Word} {v : Byte} {s t : State} (h : busWriteByte a v s = .next t) : SameCpu s t := by
  unfold busWriteByte at h
  split at h <;> cases h
  · exact ⟨rfl, rfl, rfl, rfl, rfl, rfl, rfl⟩
  · exact ioWriteWord_sameCpu _ _ s

/-- A word write leaves the registers, the flags, the halt bit and the configuration alone. -/
theorem busWriteWord_sameCpu {a v : Word} {s t : State} (h : busWriteWord a v s = .next t) : SameCpu s t := by
  unfold busWriteWord at h
  split at h
  · unfold busWriteAligned at h
    split at h <;> cases h
    · exact ⟨rfl, rfl, rfl, rfl, rfl, rfl, rfl⟩
    · exact ioWriteWord_sameCpu _ _ s
  · split at h
    · cases h
    · obtain ⟨t1, h1, h⟩ := Res.bind_eq_next.mp h
      obtain ⟨t2, h2, h⟩ := Res.bind_eq_next.mp h
      obtain ⟨t3, h3, h⟩ := Res.bind_eq_next.mp h
      exact (((busWriteByte_sameCpu h1).trans (busWriteByte_sameCpu h2)).trans
        (busWriteByte_sameCpu h3)).trans (busWriteByte_sameCpu h)

theorem memWrite_sameCpu {a v : Word} {s t : State} (h : memWrite a v s = .next t) : SameCpu s t :=
  (SameCpu.agentsAct s).trans (busWriteWord_sameCpu h)

/-! ### Faults and refusals of accesses -/

theorem busReadByte_eq_fault {a : Word} {s : State} {k : Fault} (h : busReadByte a s = .fault k) :
    k = .invalidAddress a s := by
  unfold busReadByte at h
  split at h <;> cases h
  rfl

theorem busReadByte_ne_refused {a : Word} {s : State} {x : Refusal} : busReadByte a s ≠ .refused x := by
  unfold busReadByte
  split <;> simp

theorem busWriteByte_ne_refused {a : Word} {v : Byte} {s : State} {x : Refusal} : busWriteByte a v s ≠ .refused x := by
  unfold busWriteByte
  split <;> simp

theorem busReadWord_ne_refused {a : Word} {s : State} {x : Refusal} : busReadWord a s ≠ .refused x := by
  unfold busReadWord busReadAligned busReadBytes
  split
  · split <;> simp
  · split
    · simp
    · simp [Res.bind_eq_refused, busReadByte_ne_refused]

theorem busWriteWord_ne_refused {a v : Word} {s : State} {x : Refusal} : busWriteWord a v s ≠ .refused x := by
  unfold busWriteWord busWriteAligned busWriteBytes
  split
  · split <;> simp
  · split
    · simp
    · simp [Res.bind_eq_refused, busWriteByte_ne_refused]

theorem memRead_ne_refused {a : Word} {s : State} {x : Refusal} : memRead a s ≠ .refused x := by
  simp [memRead, Res.bind_eq_refused, busReadWord_ne_refused]

theorem memWrite_ne_refused {a v : Word} {s : State} {x : Refusal} : memWrite a v s ≠ .refused x :=
  busWriteWord_ne_refused

end Sys2Proof.Machine
end

