-- ==== Sys2Proof/Laws/Stack.lean ====
section
/-! SUPPORT. The stack, the transfers built on it, and the blocks: what each can do, said once. -/

namespace Sys2Proof.Machine

/-! ### What a fault leaves behind -/

@[simp] theorem Fault.left_mapLeft (g : State → State) (k : Fault) : (k.mapLeft g).left = g k.left := by cases k <;> rfl

@[simp] theorem Fault.mapLeft_mapLeft (g h : State → State) (k : Fault) :
    (k.mapLeft g).mapLeft h = k.mapLeft (h ∘ g) := by cases k <;> rfl

/-- Two changes that agree on the state a fault left make the same fault of it. -/
theorem Fault.mapLeft_congr {g h : State → State} {k : Fault} (e : g k.left = h k.left) : k.mapLeft g = k.mapLeft h := by
  cases k <;> exact congrArg _ e

/-- A routed byte write that faults left the state as it found it. -/
theorem busWriteByte_left {a : Word} {v : Byte} {s : State} {k : Fault} (h : busWriteByte a v s = .fault k) :
    k.left = s := by
  unfold busWriteByte at h
  split at h <;> cases h <;> rfl

/-- A word write that faults left registers, flags, halt bit and configuration alone (R143). -/
theorem busWriteWord_left {a v : Word} {s : State} {k : Fault} (h : busWriteWord a v s = .fault k) :
    SameCpu s k.left := by
  have hl : ∀ {a : Word} {v : Byte} {s : State} {k : Fault}, busWriteByte a v s = .fault k → SameCpu s k.left :=
    fun h => busWriteByte_left h ▸ .refl _
  unfold busWriteWord at h
  split at h
  · unfold busWriteAligned at h
    split at h <;> cases h <;> exact .refl s
  · split at h
    · cases h
      exact .refl s
    · rcases Res.bind_eq_fault.mp h with h | ⟨t1, h1, h⟩
      · exact hl h
      rcases Res.bind_eq_fault.mp h with h | ⟨t2, h2, h⟩
      · exact (busWriteByte_sameCpu h1).trans (hl h)
      rcases Res.bind_eq_fault.mp h with h | ⟨t3, h3, h⟩
      · exact ((busWriteByte_sameCpu h1).trans (busWriteByte_sameCpu h2)).trans (hl h)
      · exact (((busWriteByte_sameCpu h1).trans (busWriteByte_sameCpu h2)).trans (busWriteByte_sameCpu h3)).trans (hl h)

theorem memWrite_left {a v : Word} {s : State} {k : Fault} (h : memWrite a v s = .fault k) : SameCpu s k.left :=
  (SameCpu.agentsAct s).trans (busWriteWord_left h)

/-- Whatever a word write had stored before it faulted, it was safe (R143). -/
theorem memWrite_left_storeSafe {a v : Word} {s : State} {k : Fault} (hc : s.cfg.mapWf) (h : memWrite a v s = .fault k) :
    StoreSafe s k.left := by
  refine (StoreSafe.agentsAct s).trans ?_
  have hl : ∀ {a : Word} {v : Byte} {s : State}, busWriteByte a v s = .fault k → StoreSafe s k.left :=
    fun h => busWriteByte_left h ▸ .refl _
  unfold memWrite busWriteWord at h
  split at h
  · unfold busWriteAligned at h
    split at h <;> cases h <;> exact .refl _
  · split at h
    · cases h
      exact .refl _
    · rcases Res.bind_eq_fault.mp h with h | ⟨t1, h1, h⟩
      · exact hl h
      have s1 := busWriteByte_storeSafe (s := s.agentsAct) hc h1
      rcases Res.bind_eq_fault.mp h with h | ⟨t2, h2, h⟩
      · exact s1.trans (hl h)
      have s2 := s1.trans (busWriteByte_storeSafe (by rw [s1.cfg]; exact hc) h2)
      rcases Res.bind_eq_fault.mp h with h | ⟨t3, h3, h⟩
      · exact s2.trans (hl h)
      · exact (s2.trans (busWriteByte_storeSafe (by rw [s2.cfg]; exact hc) h3)).trans (hl h)

/-- A word write faults for its address alone: misaligned, unmapped, or in ROM (R37). -/
theorem memWrite_ofPush {a v : Word} {s : State} {k : Fault} (h : memWrite a v s = .fault k) : k.ofPush = true := by
  have hb : ∀ {a : Word} {v : Byte} {s : State}, busWriteByte a v s = .fault k → k.ofPush = true := by
    intro a v s h
    unfold busWriteByte at h
    split at h <;> cases h <;> rfl
  unfold memWrite busWriteWord at h
  split at h
  · unfold busWriteAligned at h
    split at h <;> cases h <;> rfl
  · split at h
    · cases h
      rfl
    · unfold busWriteBytes at h
      simp only [Res.bind_eq_fault] at h
      rcases h with h | ⟨_, _, h | ⟨_, _, h | ⟨_, _, h⟩⟩⟩ <;> exact hb h

/-- A word read that faults left the state as it found it. -/
theorem busReadWord_left {a : Word} {s : State} {k : Fault} (h : busReadWord a s = .fault k) : k.left = s := by
  unfold busReadWord at h
  split at h
  · unfold busReadAligned at h
    split at h
    · cases h; rfl
    all_goals cases h
  · split at h
    · cases h; rfl
    · have hb : ∀ {a : Word}, busReadByte a s = .fault k → k.left = s :=
        fun h => by rw [busReadByte_eq_fault h]; rfl
      rcases Res.bind_eq_fault.mp h with h | ⟨t1, -, h⟩
      · exact hb h
      rcases Res.bind_eq_fault.mp h with h | ⟨t2, -, h⟩
      · exact hb h
      rcases Res.bind_eq_fault.mp h with h | ⟨t3, -, h⟩
      · exact hb h
      rcases Res.bind_eq_fault.mp h with h | ⟨t4, -, h⟩
      · exact hb h
      · cases h

/-- A word read that faults left what the outside agents left (R143). -/
theorem memRead_left {a : Word} {s : State} {k : Fault} (h : memRead a s = .fault k) : k.left = s.agentsAct :=
  busReadWord_left (memRead_eq_fault.mp h)

/-! ### push and pop (R74, R75) -/

/-- All a push can do when it answers: HP lies below the new SP, and the word is stored there. -/
theorem push_eq_next {v : Word} {s t : State} :
    push v s = .next t ↔
      s.hp.toNat < (s.sp - 4#32).toNat ∧ memWrite (s.sp - 4#32) v (s.setSp (s.sp - 4#32)) = .next t := by
  unfold push
  generalize s.sp - 4#32 = x
  split_ifs with h
  · simp [Nat.not_lt.mpr h]
  · simp [Nat.not_le.mp h]

/-- All a push can do when it faults: SP stays decremented. -/
theorem push_eq_fault {v : Word} {s : State} {k : Fault} :
    push v s = .fault k ↔
      ((s.sp - 4#32).toNat ≤ s.hp.toNat ∧
          k = .heapStackCollision (s.sp - 4#32).toNat (s.setSp (s.sp - 4#32))) ∨
        (s.hp.toNat < (s.sp - 4#32).toNat ∧ memWrite (s.sp - 4#32) v (s.setSp (s.sp - 4#32)) = .fault k) := by
  unfold push
  generalize s.sp - 4#32 = x
  split_ifs with h
  · simp [h, Nat.not_lt.mpr h, eq_comm]
  · simp [h, Nat.not_le.mp h]

/-- A push that faults leaves SP decremented and the rest of the CPU's state alone (R74, R143). -/
theorem push_left {v : Word} {s : State} {k : Fault} (h : push v s = .fault k) :
    SameCpu (s.setSp (s.sp - 4#32)) k.left ∧ k.ofPush = true := by
  rcases push_eq_fault.mp h with ⟨-, rfl⟩ | ⟨-, h⟩
  · exact ⟨.refl _, rfl⟩
  · exact ⟨memWrite_left h, memWrite_ofPush h⟩

theorem push_ne_refused {v : Word} {s : State} {x : Refusal} : push v s ≠ .refused x := by
  unfold push
  split_ifs
  · simp
  · exact memWrite_ne_refused

/-- All a pop can do when it answers. -/
theorem pop_eq_next {s : State} {p : Word × State} :
    pop s = .next p ↔ busReadWord s.sp s.agentsAct = .next p.1 ∧ p.2 = s.agentsAct.setSp (s.sp + 4#32) := by
  unfold pop
  rw [Res.bind_eq_next]
  constructor
  · rintro ⟨q, h, e⟩
    obtain ⟨h1, h2⟩ := memRead_eq_next.mp h
    cases e
    exact ⟨h1, by rw [h2]; rfl⟩
  · rintro ⟨h, e⟩
    refine ⟨(p.1, s.agentsAct), memRead_eq_next.mpr ⟨h, rfl⟩, ?_⟩
    rw [Host.Outcome.next.injEq, Prod.ext_iff]
    exact ⟨rfl, e.symm⟩

theorem pop_eq_fault {s : State} {k : Fault} : pop s = .fault k ↔ memRead s.sp s = .fault k := by
  simp [pop, Res.bind_eq_fault]

theorem pop_ne_refused {s : State} {x : Refusal} : pop s ≠ .refused x := by
  simp [pop, Res.bind_eq_refused, memRead_ne_refused]

/-- A push into RAM or VRAM below which HP lies (R74). -/
theorem push_ram {v : Word} {s : State} (hc : s.cfg.mapWf) (hh : s.hp.toNat < (s.sp - 4#32).toNat) (ha : (s.sp - 4#32).toNat % 4 = 0)
    (h1 : s.cfg.ramBase ≤ (s.sp - 4#32).toNat) (h2 : (s.sp - 4#32).toNat < s.cfg.ioBase) :
    push v s =
      .next ((s.setSp (s.sp - 4#32)).agentsAct.setMem (s.mem.writeWord (s.sp - 4#32).toNat v)) :=
  push_eq_next.mpr ⟨hh, memWrite_ram (s := s.setSp (s.sp - 4#32)) hc ha h1 h2⟩

/-- A pop from ROM, RAM or VRAM (R75). -/
theorem pop_bank {s : State} (hc : s.cfg.mapWf) (ha : s.sp.toNat % 4 = 0) (h : s.sp.toNat < s.cfg.ioBase) :
    pop s = .next (s.mem.readWord s.sp.toNat, s.agentsAct.setSp (s.sp + 4#32)) :=
  pop_eq_next.mpr ⟨busReadWord_bank (s := s.agentsAct) hc ha h, rfl⟩

/-! ### The host's push and pop (R174) -/

/-- Agents that have nothing to do do nothing. -/
theorem State.agentsAct_of_silent {s : State} (h : s.schedule = []) : s.agentsAct = s := by
  cases s
  cases h
  rfl

/-- The public push is the push of the instructions, on a machine whose outside agents are silent. -/
theorem hostPush_eq_push {v : Word} {s : State} (h : s.schedule = []) : hostPush v s = push v s := by
  unfold hostPush push memWrite
  rw [State.agentsAct_of_silent (s := s.setSp (s.sp - 4#32)) h]
  rfl

/-- The public pop is the pop of the instructions, on a machine whose outside agents are silent. -/
theorem hostPop_eq_pop {s : State} (h : s.schedule = []) : hostPop s = pop s := by
  unfold hostPop pop memRead
  rw [State.agentsAct_of_silent h, Res.bind_assoc]
  rfl

/-! ### The trap-like transfer and its return (R165) -/

/-- All that going to a handler or a subroutine can do when it answers (R133, R165). -/
theorem enter_eq_next {target : Word} {s t : State} :
    enter target s = .next t ↔ ∃ u, push s.pc s = .next u ∧ t = u.setPc target := by
  simp [enter, Res.bind_eq_next, eq_comm (a := t)]

theorem enter_eq_fault {target : Word} {s : State} {k : Fault} : enter target s = .fault k ↔ push s.pc s = .fault k := by
  simp [enter, Res.bind_eq_fault]

theorem enter_ne_refused {target : Word} {s : State} {x : Refusal} : enter target s ≠ .refused x := by
  simp [enter, Res.bind_eq_refused, push_ne_refused]

/-- All that returning can do when it answers (R134). -/
theorem leave_eq_next {s t : State} : leave s = .next t ↔ ∃ p, pop s = .next p ∧ t = p.2.setPc p.1 := by
  simp [leave, Res.bind_eq_next, eq_comm (a := t)]

theorem leave_eq_fault {s : State} {k : Fault} : leave s = .fault k ↔ memRead s.sp s = .fault k := by
  simp [leave, Res.bind_eq_fault, pop_eq_fault]

theorem leave_ne_refused {s : State} {x : Refusal} : leave s ≠ .refused x := by
  simp [leave, Res.bind_eq_refused, pop_ne_refused]

end Sys2Proof.Machine
end

