-- ==== Sys2Proof/Laws/Blocks.lean ====
section
/-! SUPPORT. MSET and MCPY element by element (R107, R108). -/

namespace Sys2Proof.Machine

/-! ### Whatever a block does, it is safe -/

theorem fillFrom_storeSafe {dst val : Word} {i n : Nat} {s t : State} (hc : s.cfg.mapWf)
    (h : fillFrom dst val i n s = .next t) : StoreSafe s t := by
  induction n generalizing i s with
  | zero =>
    cases h
    exact .refl _
  | succ n ih =>
    obtain ⟨u, hu, h⟩ := Res.bind_eq_next.mp h
    have hsu := memWrite_storeSafe hc hu
    exact hsu.trans (ih (by rw [hsu.cfg]; exact hc) h)

theorem copyElement_storeSafe {dst src : Word} {i : Nat} {s t : State} (hc : s.cfg.mapWf)
    (h : copyElement dst src i s = .next t) : StoreSafe s t := by
  obtain ⟨p, hp, h⟩ := Res.bind_eq_next.mp h
  have e := (memRead_eq_next.mp hp).2
  have ha : StoreSafe s p.2 := e ▸ .agentsAct s
  exact ha.trans (memWrite_storeSafe (by rw [ha.cfg]; exact hc) h)

theorem copyUp_storeSafe {dst src : Word} {i n : Nat} {s t : State} (hc : s.cfg.mapWf)
    (h : copyUp dst src i n s = .next t) : StoreSafe s t := by
  induction n generalizing i s with
  | zero =>
    cases h
    exact .refl _
  | succ n ih =>
    obtain ⟨u, hu, h⟩ := Res.bind_eq_next.mp h
    have hsu := copyElement_storeSafe hc hu
    exact hsu.trans (ih (by rw [hsu.cfg]; exact hc) h)

theorem copyDown_storeSafe {dst src : Word} {n : Nat} {s t : State} (hc : s.cfg.mapWf)
    (h : copyDown dst src n s = .next t) : StoreSafe s t := by
  induction n generalizing s with
  | zero =>
    cases h
    exact .refl _
  | succ n ih =>
    obtain ⟨u, hu, h⟩ := Res.bind_eq_next.mp h
    have hsu := copyElement_storeSafe hc hu
    exact hsu.trans (ih (by rw [hsu.cfg]; exact hc) h)

/-! ### … also when it faults: what it had stored before is safe (R143) -/

theorem fillFrom_left_storeSafe {dst val : Word} {i n : Nat} {s : State} {k : Fault} (hc : s.cfg.mapWf)
    (h : fillFrom dst val i n s = .fault k) : StoreSafe s k.left := by
  induction n generalizing i s with
  | zero => cases h
  | succ n ih =>
    rcases Res.bind_eq_fault.mp h with h | ⟨u, hu, h⟩
    · exact memWrite_left_storeSafe hc h
    · have hsu := memWrite_storeSafe hc hu
      exact hsu.trans (ih (by rw [hsu.cfg]; exact hc) h)

theorem copyElement_left_storeSafe {dst src : Word} {i : Nat} {s : State} {k : Fault} (hc : s.cfg.mapWf)
    (h : copyElement dst src i s = .fault k) : StoreSafe s k.left := by
  rcases Res.bind_eq_fault.mp h with h | ⟨p, hp, h⟩
  · rw [memRead_left h]
    exact .agentsAct s
  · have ha : StoreSafe s p.2 := (memRead_eq_next.mp hp).2 ▸ .agentsAct s
    exact ha.trans (memWrite_left_storeSafe (by rw [ha.cfg]; exact hc) h)

theorem copyUp_left_storeSafe {dst src : Word} {i n : Nat} {s : State} {k : Fault} (hc : s.cfg.mapWf)
    (h : copyUp dst src i n s = .fault k) : StoreSafe s k.left := by
  induction n generalizing i s with
  | zero => cases h
  | succ n ih =>
    rcases Res.bind_eq_fault.mp h with h | ⟨u, hu, h⟩
    · exact copyElement_left_storeSafe hc h
    · have hsu := copyElement_storeSafe hc hu
      exact hsu.trans (ih (by rw [hsu.cfg]; exact hc) h)

theorem copyDown_left_storeSafe {dst src : Word} {n : Nat} {s : State} {k : Fault} (hc : s.cfg.mapWf)
    (h : copyDown dst src n s = .fault k) : StoreSafe s k.left := by
  induction n generalizing s with
  | zero => cases h
  | succ n ih =>
    rcases Res.bind_eq_fault.mp h with h | ⟨u, hu, h⟩
    · exact copyElement_left_storeSafe hc h
    · have hsu := copyElement_storeSafe hc hu
      exact hsu.trans (ih (by rw [hsu.cfg]; exact hc) h)

/-! ### A block leaves the CPU's own state alone, also when it faults -/

theorem fillFrom_sameCpu {dst val : Word} {i n : Nat} {s : State} :
    (∀ {t}, fillFrom dst val i n s = .next t → SameCpu s t) ∧
      ∀ {k}, fillFrom dst val i n s = .fault k → SameCpu s k.left := by
  induction n generalizing i s with
  | zero =>
    refine ⟨fun h => ?_, fun h => ?_⟩ <;> cases h
    exact .refl _
  | succ n ih =>
    refine ⟨fun h => ?_, fun h => ?_⟩
    · obtain ⟨u, hu, h⟩ := Res.bind_eq_next.mp h
      exact (memWrite_sameCpu hu).trans (ih.1 h)
    · rcases Res.bind_eq_fault.mp h with h | ⟨u, hu, h⟩
      · exact memWrite_left h
      · exact (memWrite_sameCpu hu).trans (ih.2 h)

theorem copyElement_sameCpu {dst src : Word} {i : Nat} {s : State} :
    (∀ {t}, copyElement dst src i s = .next t → SameCpu s t) ∧
      ∀ {k}, copyElement dst src i s = .fault k → SameCpu s k.left := by
  refine ⟨fun h => ?_, fun h => ?_⟩
  · obtain ⟨p, hp, h⟩ := Res.bind_eq_next.mp h
    have ha : SameCpu s p.2 := (memRead_eq_next.mp hp).2 ▸ .agentsAct s
    exact ha.trans (memWrite_sameCpu h)
  · rcases Res.bind_eq_fault.mp h with h | ⟨p, hp, h⟩
    · rw [memRead_left h]
      exact .agentsAct s
    · have ha : SameCpu s p.2 := (memRead_eq_next.mp hp).2 ▸ .agentsAct s
      exact ha.trans (memWrite_left h)

theorem copyUp_sameCpu {dst src : Word} {i n : Nat} {s : State} :
    (∀ {t}, copyUp dst src i n s = .next t → SameCpu s t) ∧
      ∀ {k}, copyUp dst src i n s = .fault k → SameCpu s k.left := by
  induction n generalizing i s with
  | zero =>
    refine ⟨fun h => ?_, fun h => ?_⟩ <;> cases h
    exact .refl _
  | succ n ih =>
    refine ⟨fun h => ?_, fun h => ?_⟩
    · obtain ⟨u, hu, h⟩ := Res.bind_eq_next.mp h
      exact (copyElement_sameCpu.1 hu).trans (ih.1 h)
    · rcases Res.bind_eq_fault.mp h with h | ⟨u, hu, h⟩
      · exact copyElement_sameCpu.2 h
      · exact (copyElement_sameCpu.1 hu).trans (ih.2 h)

theorem copyDown_sameCpu {dst src : Word} {n : Nat} {s : State} :
    (∀ {t}, copyDown dst src n s = .next t → SameCpu s t) ∧
      ∀ {k}, copyDown dst src n s = .fault k → SameCpu s k.left := by
  induction n generalizing s with
  | zero =>
    refine ⟨fun h => ?_, fun h => ?_⟩ <;> cases h
    exact .refl _
  | succ n ih =>
    refine ⟨fun h => ?_, fun h => ?_⟩
    · obtain ⟨u, hu, h⟩ := Res.bind_eq_next.mp h
      exact (copyElement_sameCpu.1 hu).trans (ih.1 h)
    · rcases Res.bind_eq_fault.mp h with h | ⟨u, hu, h⟩
      · exact copyElement_sameCpu.2 h
      · exact (copyElement_sameCpu.1 hu).trans (ih.2 h)

/-! ### A block never refuses -/

theorem fillFrom_ne_refused {dst val : Word} {i n : Nat} {s : State} {x : Refusal} :
    fillFrom dst val i n s ≠ .refused x := by
  induction n generalizing i s with
  | zero => simp [fillFrom]
  | succ n ih => simp [fillFrom, Res.bind_eq_refused, memWrite_ne_refused, ih]

theorem copyElement_ne_refused {dst src : Word} {i : Nat} {s : State} {x : Refusal} :
    copyElement dst src i s ≠ .refused x := by
  simp [copyElement, Res.bind_eq_refused, memRead_ne_refused, memWrite_ne_refused]

theorem copyUp_ne_refused {dst src : Word} {i n : Nat} {s : State} {x : Refusal} : copyUp dst src i n s ≠ .refused x := by
  induction n generalizing i s with
  | zero => simp [copyUp]
  | succ n ih => simp [copyUp, Res.bind_eq_refused, copyElement_ne_refused, ih]

theorem copyDown_ne_refused {dst src : Word} {n : Nat} {s : State} {x : Refusal} : copyDown dst src n s ≠ .refused x := by
  induction n generalizing s with
  | zero => simp [copyDown]
  | succ n ih => simp [copyDown, Res.bind_eq_refused, copyElement_ne_refused, ih]

end Sys2Proof.Machine
end

