-- ==== Sys2Proof/Laws/Codec.lean ====
section
/-! SUPPORT. Fields, indices, opcode bytes and words survive being written out and read back. -/

namespace Sys2Proof

/-! ### The fields of word 0 (R46) -/

@[simp] theorem opcodeField_word0Of (d s o : Byte) : opcodeField (word0Of d s o) = o := by
  ext i hi
  simp only [opcodeField, word0Of, BitVec.getElem_extractLsb', BitVec.getLsbD_append]
  split_ifs <;> first | omega | skip
  simp [BitVec.getLsbD_eq_getElem hi]

@[simp] theorem rSField_word0Of (d s o : Byte) : rSField (word0Of d s o) = s := by
  ext i hi
  simp only [rSField, word0Of, BitVec.getElem_extractLsb', BitVec.getLsbD_append]
  split_ifs <;> first | omega | skip
  rw [← BitVec.getLsbD_eq_getElem]
  congr 1
  omega

@[simp] theorem rDField_word0Of (d s o : Byte) : rDField (word0Of d s o) = d := by
  ext i hi
  simp only [rDField, word0Of, BitVec.getElem_extractLsb', BitVec.getLsbD_append]
  split_ifs <;> first | omega | skip
  rw [← BitVec.getLsbD_eq_getElem]
  congr 1
  omega

/-! ### Register indices (R13) -/

/-- The index of the register an index names is that index. -/
@[simp] theorem Reg.index_ofIndex (al : Aliases) (i : Byte) : (Reg.ofIndex al i).index al = i := by
  unfold Reg.ofIndex
  split_ifs <;> simp_all [Reg.index]

/-- What an index names is a well-formed operand. -/
@[simp] theorem Reg.wf_ofIndex (al : Aliases) (i : Byte) : (Reg.ofIndex al i).wf al = true := by
  unfold Reg.ofIndex
  split_ifs <;> simp_all [Reg.wf, Reg.indexLegal]

/-- A well-formed operand is what its index names. -/
@[simp] theorem Reg.ofIndex_index {al : Aliases} {r : Reg} (ha : al.wf) (h : r.wf al = true) :
    Reg.ofIndex al (r.index al) = r := by
  obtain ⟨h1, h2, h3, h4, h5, h6⟩ := ha
  unfold Reg.ofIndex
  cases r with
  | gpr n =>
    have hn : n.val % 256 = n.val := Nat.mod_eq_of_lt (by omega)
    simp [Reg.index, hn]
  | pc => simp [Reg.index, Nat.not_lt.mpr h1]
  | sp => simp [Reg.index, Nat.not_lt.mpr h2, h4.symm]
  | hp => simp [Reg.index, Nat.not_lt.mpr h3, h5.symm, h6.symm]
  | illegal i =>
    simp only [Reg.wf, Reg.indexLegal, Bool.not_eq_true', Bool.or_eq_false_iff, decide_eq_false_iff_not] at h
    simp [Reg.index, h]

/-! ### Opcode bytes (R51) -/

/-- The opcode byte of a catalog number selects that number, under a map that gives every instruction a byte of its
own. -/
theorem catalogNumber_opcodeByte {map : List Byte} (hn : map.Nodup) {n : Nat} (h1 : 1 ≤ n) (h2 : n ≤ map.length) :
    catalogNumber map (opcodeByte map n) = some n := by
  have hlt : n - 1 < map.length := by omega
  have hget : opcodeByte map n = map[n - 1] := by simp [opcodeByte, List.getD, hlt]
  unfold catalogNumber
  have hidx : map.idxOf? map[n - 1] = some (n - 1) := by
    rw [List.idxOf?_eq_some_iff]
    refine ⟨hlt, rfl, fun j hj e => ?_⟩
    have := hn.getElem_inj_iff.mp e
    omega
  rw [hget, hidx, Option.map_some, Nat.sub_add_cancel h1]

/-! ### Words in memory order (R57) -/

@[simp] theorem takeWord_bytesOfWord (w : Word) (rest : List Byte) :
    takeWord (bytesOfWord w ++ rest) =
      some (wordOfBytes (byteOfWord w 0) (byteOfWord w 1) (byteOfWord w 2) (byteOfWord w 3), rest) := rfl

@[simp] theorem length_bytesOfWord (w : Word) : (bytesOfWord w).length = 4 := rfl

end Sys2Proof
end

