-- ==== Sys2Proof/Laws/PerInstr.lean ====
section
/-! SUPPORT. What holds of every instruction as a term, one lemma per constructor. -/

namespace Sys2Proof.Laws.EncodingLength

/-- An instruction has a catalog number from 1 to 59 (R51) and a second word exactly when R52 says so. -/
def Statement (i : Instr) : Prop :=
  ∀ al : Aliases, 1 ≤ (i.fields al).number ∧ (i.fields al).number ≤ Config.opcodeCount ∧
    (i.fields al).imm.isSome = Machine.twoWordNumber (i.fields al).number

theorem of_fields {i : Instr} (n : Nat) (b : Bool) (hn : ∀ al, (i.fields al).number = n)
    (hi : ∀ al, (i.fields al).imm.isSome = b) (h : 1 ≤ n ∧ n ≤ Config.opcodeCount ∧ b = Machine.twoWordNumber n) :
    Statement i := by
  intro al
  rw [hn, hi]
  exact h

theorem add (rD rS : Reg) : Statement (.add rD rS) := of_fields 1 false (fun _ => rfl) (fun _ => rfl) (by decide)
theorem sub (rD rS : Reg) : Statement (.sub rD rS) := of_fields 2 false (fun _ => rfl) (fun _ => rfl) (by decide)
theorem mul (rD rS : Reg) : Statement (.mul rD rS) := of_fields 3 false (fun _ => rfl) (fun _ => rfl) (by decide)
theorem div (rD rS : Reg) : Statement (.div rD rS) := of_fields 4 false (fun _ => rfl) (fun _ => rfl) (by decide)
theorem mod (rD rS : Reg) : Statement (.mod rD rS) := of_fields 5 false (fun _ => rfl) (fun _ => rfl) (by decide)
theorem addi (rD : Reg) (imm : Word) : Statement (.addi rD imm) := of_fields 6 true (fun _ => rfl) (fun _ => rfl) (by decide)
theorem subi (rD : Reg) (imm : Word) : Statement (.subi rD imm) := of_fields 7 true (fun _ => rfl) (fun _ => rfl) (by decide)
theorem muli (rD : Reg) (imm : Word) : Statement (.muli rD imm) := of_fields 8 true (fun _ => rfl) (fun _ => rfl) (by decide)
theorem divi (rD : Reg) (imm : Word) : Statement (.divi rD imm) := of_fields 9 true (fun _ => rfl) (fun _ => rfl) (by decide)
theorem modi (rD : Reg) (imm : Word) : Statement (.modi rD imm) := of_fields 10 true (fun _ => rfl) (fun _ => rfl) (by decide)
theorem inc (rD : Reg) : Statement (.inc rD) := of_fields 11 false (fun _ => rfl) (fun _ => rfl) (by decide)
theorem dec (rD : Reg) : Statement (.dec rD) := of_fields 12 false (fun _ => rfl) (fun _ => rfl) (by decide)
theorem neg (rD : Reg) : Statement (.neg rD) := of_fields 13 false (fun _ => rfl) (fun _ => rfl) (by decide)
theorem not (rD : Reg) : Statement (.not rD) := of_fields 14 false (fun _ => rfl) (fun _ => rfl) (by decide)
theorem clr (rD : Reg) : Statement (.clr rD) := of_fields 15 false (fun _ => rfl) (fun _ => rfl) (by decide)
theorem and (rD rS : Reg) : Statement (.and rD rS) := of_fields 16 false (fun _ => rfl) (fun _ => rfl) (by decide)
theorem or (rD rS : Reg) : Statement (.or rD rS) := of_fields 17 false (fun _ => rfl) (fun _ => rfl) (by decide)
theorem xor (rD rS : Reg) : Statement (.xor rD rS) := of_fields 18 false (fun _ => rfl) (fun _ => rfl) (by decide)
theorem andi (rD : Reg) (imm : Word) : Statement (.andi rD imm) := of_fields 19 true (fun _ => rfl) (fun _ => rfl) (by decide)
theorem ori (rD : Reg) (imm : Word) : Statement (.ori rD imm) := of_fields 20 true (fun _ => rfl) (fun _ => rfl) (by decide)
theorem xori (rD : Reg) (imm : Word) : Statement (.xori rD imm) := of_fields 21 true (fun _ => rfl) (fun _ => rfl) (by decide)
theorem shl (rD : Reg) (count : Byte) : Statement (.shl rD count) := of_fields 22 false (fun _ => rfl) (fun _ => rfl) (by decide)
theorem shr (rD : Reg) (count : Byte) : Statement (.shr rD count) := of_fields 23 false (fun _ => rfl) (fun _ => rfl) (by decide)
theorem load (rD rS : Reg) : Statement (.load rD rS) := of_fields 24 false (fun _ => rfl) (fun _ => rfl) (by decide)
theorem store (rD rS : Reg) : Statement (.store rD rS) := of_fields 25 false (fun _ => rfl) (fun _ => rfl) (by decide)
theorem loadi (rD : Reg) (imm : Word) : Statement (.loadi rD imm) := of_fields 26 true (fun _ => rfl) (fun _ => rfl) (by decide)
theorem stori (rD : Reg) (imm : Word) : Statement (.stori rD imm) := of_fields 27 true (fun _ => rfl) (fun _ => rfl) (by decide)
theorem mset (rD rS : Reg) : Statement (.mset rD rS) := of_fields 28 false (fun _ => rfl) (fun _ => rfl) (by decide)
theorem mcpy (rD rS : Reg) : Statement (.mcpy rD rS) := of_fields 29 false (fun _ => rfl) (fun _ => rfl) (by decide)
theorem mov (rD rS : Reg) : Statement (.mov rD rS) := of_fields 30 false (fun _ => rfl) (fun _ => rfl) (by decide)
theorem movi (rD : Reg) (imm : Word) : Statement (.movi rD imm) := of_fields 31 true (fun _ => rfl) (fun _ => rfl) (by decide)
theorem cmp (rD rS : Reg) : Statement (.cmp rD rS) := of_fields 32 false (fun _ => rfl) (fun _ => rfl) (by decide)
theorem cmpi (rD : Reg) (imm : Word) : Statement (.cmpi rD imm) := of_fields 33 true (fun _ => rfl) (fun _ => rfl) (by decide)
theorem test (rD rS : Reg) : Statement (.test rD rS) := of_fields 34 false (fun _ => rfl) (fun _ => rfl) (by decide)
theorem testi (rD : Reg) (imm : Word) : Statement (.testi rD imm) := of_fields 35 true (fun _ => rfl) (fun _ => rfl) (by decide)
theorem jmp (imm : Word) : Statement (.jmp imm) := of_fields 36 true (fun _ => rfl) (fun _ => rfl) (by decide)
theorem jz (imm : Word) : Statement (.jz imm) := of_fields 37 true (fun _ => rfl) (fun _ => rfl) (by decide)
theorem je (imm : Word) : Statement (.je imm) := of_fields 38 true (fun _ => rfl) (fun _ => rfl) (by decide)
theorem jnz (imm : Word) : Statement (.jnz imm) := of_fields 39 true (fun _ => rfl) (fun _ => rfl) (by decide)
theorem jne (imm : Word) : Statement (.jne imm) := of_fields 40 true (fun _ => rfl) (fun _ => rfl) (by decide)
theorem jn (imm : Word) : Statement (.jn imm) := of_fields 41 true (fun _ => rfl) (fun _ => rfl) (by decide)
theorem jp (imm : Word) : Statement (.jp imm) := of_fields 42 true (fun _ => rfl) (fun _ => rfl) (by decide)
theorem jg (imm : Word) : Statement (.jg imm) := of_fields 43 true (fun _ => rfl) (fun _ => rfl) (by decide)
theorem jge (imm : Word) : Statement (.jge imm) := of_fields 44 true (fun _ => rfl) (fun _ => rfl) (by decide)
theorem jl (imm : Word) : Statement (.jl imm) := of_fields 45 true (fun _ => rfl) (fun _ => rfl) (by decide)
theorem jle (imm : Word) : Statement (.jle imm) := of_fields 46 true (fun _ => rfl) (fun _ => rfl) (by decide)
theorem jc (imm : Word) : Statement (.jc imm) := of_fields 47 true (fun _ => rfl) (fun _ => rfl) (by decide)
theorem jnc (imm : Word) : Statement (.jnc imm) := of_fields 48 true (fun _ => rfl) (fun _ => rfl) (by decide)
theorem ja (imm : Word) : Statement (.ja imm) := of_fields 49 true (fun _ => rfl) (fun _ => rfl) (by decide)
theorem jae (imm : Word) : Statement (.jae imm) := of_fields 50 true (fun _ => rfl) (fun _ => rfl) (by decide)
theorem jb (imm : Word) : Statement (.jb imm) := of_fields 51 true (fun _ => rfl) (fun _ => rfl) (by decide)
theorem jbe (imm : Word) : Statement (.jbe imm) := of_fields 52 true (fun _ => rfl) (fun _ => rfl) (by decide)
theorem call (imm : Word) : Statement (.call imm) := of_fields 53 true (fun _ => rfl) (fun _ => rfl) (by decide)
theorem ret : Statement .ret := of_fields 54 false (fun _ => rfl) (fun _ => rfl) (by decide)
theorem push (rD : Reg) : Statement (.push rD) := of_fields 55 false (fun _ => rfl) (fun _ => rfl) (by decide)
theorem pop (rD : Reg) : Statement (.pop rD) := of_fields 56 false (fun _ => rfl) (fun _ => rfl) (by decide)
theorem syscall : Statement .syscall := of_fields 57 false (fun _ => rfl) (fun _ => rfl) (by decide)
theorem nop : Statement .nop := of_fields 58 false (fun _ => rfl) (fun _ => rfl) (by decide)
theorem hlt : Statement .hlt := of_fields 59 false (fun _ => rfl) (fun _ => rfl) (by decide)

end Sys2Proof.Laws.EncodingLength
end

