-- ==== Sys2Proof/Laws/Results.lean ====
section
/-! SUPPORT. What the shared operations of Operands.lean do, said once: commits, divisions, jumps, accesses that answer,
block elements. -/

namespace Sys2Proof.Machine

/-! ### Commits (R76) -/

/-- A commit to a register: that register and nothing else among the registers, the flags given, nothing beyond. -/
theorem commit_writes {s : State} {r : Reg} {w : Word} (h : s.reg? r = some w) (v : Word) (f : Flags) :
    ∃ t, commit r v f s = .next t ∧ WroteOnly s t r v ∧ t.flags = f ∧ SameBeyondRegisters s t := by
  refine ⟨_, commit_of_some h v f, ⟨?_, fun r' h' => ?_⟩, rfl, ?_⟩
  · simp [State.reg?_setReg_same h]
  · simp [State.reg?_setReg_other s v h']
  · cases r <;> exact ⟨rfl, rfl, rfl, rfl, rfl, rfl, rfl⟩

theorem divInto_of_ne {r : Reg} {a b : Word} {s : State} (h : b ≠ 0#32) :
    divInto r a b s = commitUpdate r (quotient s.cfg.divMode a b) s := if_neg h

theorem modInto_of_ne {r : Reg} {a b : Word} {s : State} (h : b ≠ 0#32) :
    modInto r a b s = commitUpdate r (remainder s.cfg.divMode a b) s := if_neg h

@[simp] theorem divInto_zero (r : Reg) (a : Word) (s : State) : divInto r a 0#32 s = .fault (.divByZero s) := rfl

@[simp] theorem modInto_zero (r : Reg) (a : Word) (s : State) : modInto r a 0#32 s = .fault (.divByZero s) := rfl

/-- All a unary instruction can do when it answers (R90 to R93). -/
theorem unaryInto_eq_next {f : Word → Word} {r : Reg} {s t : State} :
    unaryInto f r s = .next t ↔ ∃ a, s.reg? r = some a ∧ commitUpdate r (f a) s = .next t := by
  simp [unaryInto, Res.bind_eq_next, readReg_eq_next]

@[simp] theorem flagsOnly_eq (f : Flags) (s : State) : flagsOnly f s = .next (s.setFlags f) := rfl

@[simp] theorem jumpIf_true (a : Word) (s : State) : jumpIf true a s = .next (s.setPc a) := rfl

@[simp] theorem jumpIf_false (a : Word) (s : State) : jumpIf false a s = .next s := rfl

/-- The masked shift count (R49), as a remainder. -/
theorem shiftCount_eq (c : Byte) : shiftCount c = c.toNat % 32 := by
  rw [shiftCount, BitVec.toNat_and]
  exact Nat.and_two_pow_sub_one_eq_mod c.toNat 5

/-! ### Accesses that answer -/

/-- A word read at an aligned address below `IO_END` answers (R36). -/
theorem memRead_readable {s : State} {a : Word} (hc : s.cfg.mapWf) (h : s.readableWord a) :
    memRead a s = .next (s.agentsAct.wordAt a, s.agentsAct) := by
  obtain ⟨h1, h2⟩ := h
  unfold State.wordAt
  split_ifs with h3
  · exact memRead_bank hc h1 h3
  · exact memRead_eq_next.mpr ⟨busReadWord_io (s := s.agentsAct) hc h1 (Nat.le_of_not_lt h3) h2, rfl⟩

/-- A pop where SP reads a word (R75). -/
theorem pop_readable {s : State} (hc : s.cfg.mapWf) (h : s.readableWord s.sp) :
    pop s = .next (s.agentsAct.wordAt s.sp, s.agentsAct.setSp (s.sp + 4#32)) := by
  rw [pop, memRead_readable hc h]
  rfl

/-- A memory that got a word got it as `StoredWord` says (R37). -/
theorem StoredWord.of_mem {s t : State} {a : Nat} {v : Word} (h : t.mem = s.mem.writeWord a v) : StoredWord s t a v := by
  refine ⟨fun x hx => ?_, fun hm k hk => ?_, fun hm => ?_⟩ <;> rw [h]
  · exact Memory.read_writeWord_other _ _ hx
  · exact Memory.read_writeWord_byte hm _ _ hk
  · exact Memory.wf_writeWord hm _ _

/-- A word written at an aligned address of RAM, VRAM or the I/O window is stored, or reaches its device (R37). -/
theorem memWrite_storable {s : State} {a : Word} (hc : s.cfg.mapWf) (ha : a.toNat % 4 = 0)
    (h1 : s.cfg.ramBase ≤ a.toNat) (h2 : a.toNat < s.cfg.ioEnd) (v : Word) :
    memWrite a v s = .next (s.agentsAct.storeWord a v) := by
  unfold State.storeWord
  split_ifs with h
  · exact memWrite_ram hc ha h1 h
  · exact busWriteWord_io (s := s.agentsAct) hc ha (Nat.le_of_not_lt h) h2

/-- A store leaves the CPU's own state alone. -/
theorem State.storeWord_sameCpu (s : State) (a v : Word) : SameCpu s (s.storeWord a v) := by
  unfold State.storeWord
  split_ifs
  · exact ⟨rfl, rfl, rfl, rfl, rfl, rfl, rfl⟩
  · exact ioWriteWord_sameCpu a v s

/-- The syscall table stands on a word, and so does each of its entries, whatever the number (R32, R137). -/
theorem syscallEntryAt_mod {s : State} (hc : s.cfg.mapWf) : s.syscallEntryAt.toNat % 4 = 0 := by
  have h : s.cfg.syscallTableBase % 4 = 0 := hc.2.2.2.2.2.2.2.2.2.2.1
  simp only [State.syscallEntryAt, BitVec.toNat_add, BitVec.toNat_mul, BitVec.toNat_ofNat]
  omega

/-- A SYSCALL that passes its own checks is a transfer to the table's entry, after one read (R137, R165). -/
theorem execSyscall_of_passes {s : State} (hc : s.cfg.mapWf) (h : s.syscallPasses) :
    execSyscall s = enter s.syscallTarget s.agentsAct := by
  obtain ⟨-, h1, h2, h3⟩ := h
  have hr := rom_end hc
  have he := region_ends s.cfg
  have hx : execSyscall s =
      if Bank.holds s.cfg .rom s.syscallEntryAt.toNat = true then
        (memRead s.syscallEntryAt s).bind fun p =>
          if p.1 = 0#32 then raise (.syscallNotImplemented (s.regs.get 0)) p.2
          else if s.cfg.ioEnd ≤ p.1.toNat then raise (.syscallInvalidTarget p.1) p.2
          else enter p.1 p.2
      else raise (.syscallOutOfRange (s.regs.get 0)) s := rfl
  have hm : memRead s.syscallEntryAt s = .next (s.syscallTarget, s.agentsAct) :=
    memRead_bank hc (syscallEntryAt_mod hc) (by omega)
  rw [hx, if_pos ((Bank.holds_rom hc).mpr (by omega)), hm, Res.bind_next, if_neg h2, if_neg (Nat.not_le.mpr h3)]

/-- The outside agents never change the configuration. -/
@[simp] theorem State.iterate_agentsAct_cfg (n : Nat) (s : State) : (State.agentsAct^[n] s).cfg = s.cfg := by
  induction n generalizing s with
  | zero => rfl
  | succ n ih => rw [Function.iterate_succ_apply, ih]; rfl

/-- One more slot of the outside agents. -/
theorem AgentsOnly.succ {n : Nat} {s t u : State} (h : AgentsOnly n s t) (hc : t.cfg = s.cfg)
    (h1 : u.kbd = t.agentsAct.kbd) (h2 : u.tmr = t.agentsAct.tmr) (h3 : u.schedule = t.agentsAct.schedule)
    (h4 : u.con = t.con) : AgentsOnly (n + 1) s u := by
  have e : ∀ x y : State, x.cfg = y.cfg → x.kbd = y.kbd → x.tmr = y.tmr → x.schedule = y.schedule →
      x.agentsAct.kbd = y.agentsAct.kbd ∧ x.agentsAct.tmr = y.agentsAct.tmr ∧
        x.agentsAct.schedule = y.agentsAct.schedule := by
    intro x y hx hk ht hs
    simp [State.agentsAct, hx, hk, ht, hs]
  obtain ⟨e1, e2, e3⟩ := e _ _ (by simpa using hc) h.kbd h.tmr h.schedule
  refine ⟨?_, ?_, ?_, h4.trans h.con⟩ <;> rw [Function.iterate_succ_apply']
  · exact h1.trans e1
  · exact h2.trans e2
  · exact h3.trans e3

/-! ### Block elements (R107, R108) -/

/-- The address of an element, where the block does not wrap. -/
theorem elementAddress_toNat {base : Word} {i : Nat} (h : base.toNat + 4 * i < 2 ^ 32) :
    (elementAddress base i).toNat = base.toNat + 4 * i := by
  rw [elementAddress, BitVec.toNat_add, BitVec.toNat_ofNat]
  omega

/-- The bytes of a word read from memory are the bytes there (R36). -/
theorem byteOfWord_readWord (m : Memory) (a : Nat) {k : Nat} (hk : k < 4) : byteOfWord (m.readWord a) k = m.read (a + k) := by
  obtain ⟨h0, h1, h2, h3⟩ := byteOfWord_wordOfBytes (m.read a) (m.read (a + 1)) (m.read (a + 2)) (m.read (a + 3))
  interval_cases k
  · exact h0
  · exact h1
  · exact h2
  · exact h3

/-- One element of a copy between aligned words of memory (R108). -/
theorem copyElement_ram {s : State} {dst src : Word} {i : Nat} (hc : s.cfg.mapWf) (hs : (elementAddress src i).toNat % 4 = 0)
    (hs' : (elementAddress src i).toNat < s.cfg.ioBase) (hd : (elementAddress dst i).toNat % 4 = 0)
    (hd1 : s.cfg.ramBase ≤ (elementAddress dst i).toNat) (hd2 : (elementAddress dst i).toNat < s.cfg.ioBase) :
    copyElement dst src i s =
      .next (s.agentsAct.agentsAct.setMem
        (s.mem.writeWord (elementAddress dst i).toNat (s.mem.readWord (elementAddress src i).toNat))) := by
  rw [copyElement, memRead_bank hc hs hs', Res.bind_next]
  exact memWrite_ram (s := s.agentsAct) hc hd hd1 hd2

end Sys2Proof.Machine
end

