-- ==== Sys2Proof/Tests/Slice0.lean ====
section
/-! SUPPORT. The model's own tests. Expected values are those of spec/95_test_vectors.md, by part; the words are written
from R46, R47 and R51. The theorems `witness_<Obligation>` show states and operands that meet a statement's
hypotheses. -/

namespace Sys2Proof.Tests

open Sys2Proof Sys2Proof.Machine

/-! ### Helpers -/

/-- The step went on, to a state with the property. -/
def goes (o : Res State) (p : State → Bool) : Bool :=
  match o with
  | .next t => p t
  | _ => false

/-- The step raised this. -/
def raises (o : Res State) (k : Fault) : Bool :=
  match o with
  | .fault f => decide (f = k)
  | _ => false

/-- Flags in the order Z N C V. -/
def fl (z n c v : Bool) : Flags := ⟨z, n, c, v⟩

/-- No flag. -/
def f0 : Flags := fl false false false false

/-- C and V. -/
def f3 : Flags := fl false false true true

/-- The reset state with `r1`, `r2` and the flags given. -/
def base (a b : Word) (f : Flags) : State :=
  { State.reset with regs := (State.reset.regs.set 1 a).set 2 b, flags := f }

/-- A step from there with these two words at 0x2000. -/
def run (w0 w1 a b : Word) (f : Flags) : Res State :=
  step (placeAtPc (bytesOfWord w0 ++ bytesOfWord w1) (base a b f))

/-- `r1` and the flags after it. -/
def gives (o : Res State) (r : Word) (f : Flags) : Bool :=
  goes o fun t => decide (t.regs.get 1 = r) && decide (t.flags = f)

/-- Some words stored in memory. -/
def withWords (ws : List (Nat × Word)) (s : State) : State :=
  ws.foldl (fun t p => t.setMem (t.mem.writeWord p.1 p.2)) s

/-- The register indices of R13. -/
def std : Aliases := Aliases.standard

/-! ### Ill-formed terms (R13): `illegal` is for the indices that name no register -/

theorem test_wf_refuses_legal_index_in_rD : (Instr.add (.illegal 5#8) (.gpr 2)).wf std = false := by decide

theorem test_wf_refuses_legal_index_in_rS : (Instr.mov (.gpr 1) (.illegal 253#8)).wf std = false := by decide

theorem test_wf_refuses_legal_index_alone : (Instr.pop (.illegal 31#8)).wf std = false := by decide

theorem test_wf_takes_illegal_index : (Instr.add (.illegal 32#8) (.illegal 255#8)).wf std = true := by decide

/-- With an alias elsewhere, its old index names nothing. -/
theorem test_wf_other_alias : (Instr.add (.illegal 252#8) (.gpr 0)).wf { std with pc := 100#8 } = true ∧
    (Instr.add (.illegal 100#8) (.gpr 0)).wf { std with pc := 100#8 } = false := by decide

/-! ### Decoding: every constructor's word, written out from R46, R47 and R51 -/

theorem test_decode_arithmetic :
    decodeTableWord 32 0x03070001 = some (.add (.gpr 3) (.gpr 7)) ∧
      decodeTableWord 32 0xFC1F0002 = some (.sub .pc (.gpr 31)) ∧
      decodeTableWord 32 0x1FFD0003 = some (.mul (.gpr 31) .sp) ∧
      decodeTableWord 32 0xFD010004 = some (.div .sp (.gpr 1)) ∧
      decodeTableWord 32 0x00FC0005 = some (.mod (.gpr 0) .pc) ∧
      decodeTableWord 64 0x80000501FE000006 = some (.addi .hp 0x80000501#32) ∧
      decodeTableWord 64 0x8000060103000007 = some (.subi (.gpr 3) 0x80000601#32) ∧
      decodeTableWord 64 0x80000701FC000008 = some (.muli .pc 0x80000701#32) ∧
      decodeTableWord 64 0x800008011F000009 = some (.divi (.gpr 31) 0x80000801#32) ∧
      decodeTableWord 64 0x80000901FD00000A = some (.modi .sp 0x80000901#32) := by
  decide

theorem test_decode_unary :
    decodeTableWord 32 0x0000000B = some (.inc (.gpr 0)) ∧
      decodeTableWord 32 0xFE00000C = some (.dec .hp) ∧
      decodeTableWord 32 0x0300000D = some (.neg (.gpr 3)) ∧
      decodeTableWord 32 0xFC00000E = some (.not .pc) ∧
      decodeTableWord 32 0x1F00000F = some (.clr (.gpr 31)) := by
  decide

theorem test_decode_logic :
    decodeTableWord 32 0xFD010010 = some (.and .sp (.gpr 1)) ∧
      decodeTableWord 32 0x00FC0011 = some (.or (.gpr 0) .pc) ∧
      decodeTableWord 32 0xFE100012 = some (.xor .hp (.gpr 16)) ∧
      decodeTableWord 64 0x8000120103000013 = some (.andi (.gpr 3) 0x80001201#32) ∧
      decodeTableWord 64 0x80001301FC000014 = some (.ori .pc 0x80001301#32) ∧
      decodeTableWord 64 0x800014011F000015 = some (.xori (.gpr 31) 0x80001401#32) := by
  decide

theorem test_decode_shifts :
    decodeTableWord 32 0xFDA50016 = some (.shl .sp 0xA5#8) ∧
      decodeTableWord 32 0x00A50017 = some (.shr (.gpr 0) 0xA5#8) := by
  decide

theorem test_decode_memory :
    decodeTableWord 32 0xFE100018 = some (.load .hp (.gpr 16)) ∧
      decodeTableWord 32 0x03070019 = some (.store (.gpr 3) (.gpr 7)) ∧
      decodeTableWord 64 0x80001901FC00001A = some (.loadi .pc 0x80001901#32) ∧
      decodeTableWord 64 0x80001A011F00001B = some (.stori (.gpr 31) 0x80001A01#32) ∧
      decodeTableWord 32 0xFD01001C = some (.mset .sp (.gpr 1)) ∧
      decodeTableWord 32 0x00FC001D = some (.mcpy (.gpr 0) .pc) ∧
      decodeTableWord 32 0xFE10001E = some (.mov .hp (.gpr 16)) ∧
      decodeTableWord 64 0x80001E010300001F = some (.movi (.gpr 3) 0x80001E01#32) := by
  decide

theorem test_decode_compare :
    decodeTableWord 32 0xFC1F0020 = some (.cmp .pc (.gpr 31)) ∧
      decodeTableWord 64 0x800020011F000021 = some (.cmpi (.gpr 31) 0x80002001#32) ∧
      decodeTableWord 32 0xFD010022 = some (.test .sp (.gpr 1)) ∧
      decodeTableWord 64 0x8000220100000023 = some (.testi (.gpr 0) 0x80002201#32) := by
  decide

theorem test_decode_jumps_signed :
    decodeTableWord 64 0x8000230100000024 = some (.jmp 0x80002301#32) ∧
      decodeTableWord 64 0x8000240100000025 = some (.jz 0x80002401#32) ∧
      decodeTableWord 64 0x8000250100000026 = some (.je 0x80002501#32) ∧
      decodeTableWord 64 0x8000260100000027 = some (.jnz 0x80002601#32) ∧
      decodeTableWord 64 0x8000270100000028 = some (.jne 0x80002701#32) ∧
      decodeTableWord 64 0x8000280100000029 = some (.jn 0x80002801#32) ∧
      decodeTableWord 64 0x800029010000002A = some (.jp 0x80002901#32) ∧
      decodeTableWord 64 0x80002A010000002B = some (.jg 0x80002A01#32) ∧
      decodeTableWord 64 0x80002B010000002C = some (.jge 0x80002B01#32) ∧
      decodeTableWord 64 0x80002C010000002D = some (.jl 0x80002C01#32) ∧
      decodeTableWord 64 0x80002D010000002E = some (.jle 0x80002D01#32) := by
  decide

theorem test_decode_jumps_unsigned :
    decodeTableWord 64 0x80002E010000002F = some (.jc 0x80002E01#32) ∧
      decodeTableWord 64 0x80002F0100000030 = some (.jnc 0x80002F01#32) ∧
      decodeTableWord 64 0x8000300100000031 = some (.ja 0x80003001#32) ∧
      decodeTableWord 64 0x8000310100000032 = some (.jae 0x80003101#32) ∧
      decodeTableWord 64 0x8000320100000033 = some (.jb 0x80003201#32) ∧
      decodeTableWord 64 0x8000330100000034 = some (.jbe 0x80003301#32) := by
  decide

theorem test_decode_stack_system :
    decodeTableWord 64 0x8000340100000035 = some (.call 0x80003401#32) ∧
      decodeTableWord 32 0x00000036 = some .ret ∧
      decodeTableWord 32 0x03000037 = some (.push (.gpr 3)) ∧
      decodeTableWord 32 0xFC000038 = some (.pop .pc) ∧
      decodeTableWord 32 0x00000039 = some .syscall ∧
      decodeTableWord 32 0x0000003A = some .nop ∧
      decodeTableWord 32 0x0000003B = some .hlt := by
  decide

/-- Bit by bit (R46): rD 00000001, rS 00011111, reserved 00000000, opcode 00000001, ADD r1, r31. -/
theorem test_decode_bits_rr :
    decodeTableWord 32 0b00000001000111110000000000000001 = some (.add (.gpr 1) (.gpr 31)) := by decide

/-- SHL r31 by the literal 00100001 (R49). -/
theorem test_decode_bits_rs :
    decodeTableWord 32 0b00011111001000010000000000010110 = some (.shl (.gpr 31) 33#8) := by decide

/-- INC hp: rD 11111110. -/
theorem test_decode_bits_r : decodeTableWord 32 0b11111110000000000000000000001011 = some (.inc .hp) := by decide

/-- STORE r2, r3: opcode 00011001. -/
theorem test_decode_bits_memory :
    decodeTableWord 32 0b00000010000000110000000000011001 = some (.store (.gpr 2) (.gpr 3)) := by decide

/-- CMP r1, r2: opcode 00100000. -/
theorem test_decode_bits_compare :
    decodeTableWord 32 0b00000001000000100000000000100000 = some (.cmp (.gpr 1) (.gpr 2)) := by decide

/-- JBE: opcode 00110100, with its target in word 1. -/
theorem test_decode_bits_jump : decodeTableWord 64 (0x2018 * 2 ^ 32 + 0b00110100) = some (.jbe 0x2018#32) := by decide

/-- HLT with every unused bit set: opcode 00111011. -/
theorem test_decode_bits_none : decodeTableWord 32 0b11111111111111111111111100111011 = some .hlt := by decide

theorem test_decode_refuses : decodeTableWord 32 0 = none ∧ decodeTableWord 32 60 = none ∧
    decodeTableWord 32 0xFF = none ∧ decode [0x01#8, 0#8, 0#8] = .error .truncated ∧
    decode [0x06#8, 0#8, 0#8, 0#8, 1#8] = .error .truncated ∧ decode [0#8, 0#8, 0#8, 0#8] = .error (.unknownOpcode 0#8) := by
  refine ⟨by decide, by decide, by decide, rfl, rfl, rfl⟩

theorem test_encode_words :
    encode (.addi .sp 0xFFFFFFF0#32) = [0xFD000006#32, 0xFFFFFFF0#32] ∧ encode (.mov (.gpr 5) .pc) = [0x05FC001E#32] ∧
      encode .hlt = [0x0000003B#32] := by
  decide

/-! ### Steps: Parts 2.1 to 2.4 -/

theorem test_add_a : gives (run 0x01020001 0 0xFFFFFFFF 0x00000001 f0) 0x00000000 (fl true false true false) := by decide

theorem test_add_b : gives (run 0x01020001 0 0x7FFFFFFF 0x00000001 f0) 0x80000000 (fl false true false true) := by decide

theorem test_sub_a : gives (run 0x01020002 0 0x00000003 0x00000005 f0) 0xFFFFFFFE (fl false true true false) := by decide

theorem test_sub_b : gives (run 0x01020002 0 0x7FFFFFFF 0xFFFFFFFF f0) 0x80000000 (fl false true true true) := by decide

theorem test_mul_a : gives (run 0x01020003 0 0xFFFFFFFF 0xFFFFFFFF f3) 0x00000001 f3 := by decide

theorem test_mul_b : gives (run 0x01020003 0 0x7FFFFFFF 0x00000002 f3) 0xFFFFFFFE (fl false true true true) := by decide

theorem test_div_a : gives (run 0x01020004 0 0xFFFFFFF9 0x00000002 f3) 0xFFFFFFFD (fl false true true true) := by decide

theorem test_div_b : gives (run 0x01020004 0 0x80000000 0xFFFFFFFF f3) 0x80000000 (fl false true true true) := by decide

theorem test_mod_a : gives (run 0x01020005 0 0xFFFFFFF9 0x00000002 f3) 0xFFFFFFFF (fl false true true true) := by decide

theorem test_mod_b : gives (run 0x01020005 0 0x00000007 0xFFFFFFFE f3) 0x00000001 f3 := by decide

theorem test_addi_a : gives (run 0x01000006 0x00000001 0xFFFFFFFF 0x00000001 f0) 0x00000000 (fl true false true false) := by decide

theorem test_addi_b : gives (run 0x01000006 0x7FFFFFFF 0x7FFFFFFF 0x7FFFFFFF f0) 0xFFFFFFFE (fl false true false true) := by decide

theorem test_subi_a : gives (run 0x01000007 0x00000001 0x00000000 0x00000001 f0) 0xFFFFFFFF (fl false true true false) := by decide

theorem test_subi_b : gives (run 0x01000007 0x00000001 0x80000000 0x00000001 f0) 0x7FFFFFFF (fl false false false true) := by decide

theorem test_muli_a : gives (run 0x01000008 0x00000002 0xFFFFFFFF 0x00000002 f3) 0xFFFFFFFE (fl false true true true) := by decide

theorem test_divi_a : gives (run 0x01000009 0x0000000A 0xFFFFFF9C 0x0000000A (fl false false false true)) 0xFFFFFFF6 (fl false true false true) := by decide

theorem test_modi_a : gives (run 0x0100000A 0x00000007 0xFFFFFF9C 0x00000007 f0) 0xFFFFFFFE (fl false true false false) := by decide

theorem test_inc_a : gives (run 0x0100000B 0 0xFFFFFFFF 0 f3) 0x00000000 (fl true false true true) := by decide

theorem test_inc_b : gives (run 0x0100000B 0 0x7FFFFFFF 0 f3) 0x80000000 (fl false true true true) := by decide

theorem test_dec_a : gives (run 0x0100000C 0 0x00000000 0 f3) 0xFFFFFFFF (fl false true true true) := by decide

theorem test_dec_b : gives (run 0x0100000C 0 0x80000000 0 f3) 0x7FFFFFFF f3 := by decide

theorem test_neg_a : gives (run 0x0100000D 0 0x00000001 0 f3) 0xFFFFFFFF (fl false true true true) := by decide

theorem test_neg_b : gives (run 0x0100000D 0 0x80000000 0 f3) 0x80000000 (fl false true true true) := by decide

theorem test_not_a : gives (run 0x0100000E 0 0x00000000 0 f3) 0xFFFFFFFF (fl false true true true) := by decide

theorem test_not_b : gives (run 0x0100000E 0 0xFFFFFFFF 0 f3) 0x00000000 (fl true false true true) := by decide

theorem test_clr_a : gives (run 0x0100000F 0 0xDEADBEEF 0 f3) 0x00000000 (fl true false true true) := by decide

theorem test_and_a : gives (run 0x01020010 0 0xFF00FF00 0x0F0F0F0F f3) 0x0F000F00 f3 := by decide

theorem test_and_b : gives (run 0x01020010 0 0xAAAAAAAA 0x55555555 f3) 0x00000000 (fl true false true true) := by decide

theorem test_or_a : gives (run 0x01020011 0 0x00000000 0x00000000 f3) 0x00000000 (fl true false true true) := by decide

theorem test_or_b : gives (run 0x01020011 0 0x80000000 0x00000001 f3) 0x80000001 (fl false true true true) := by decide

theorem test_xor_a : gives (run 0x01020012 0 0xFFFFFFFF 0xFFFFFFFF f3) 0x00000000 (fl true false true true) := by decide

theorem test_xor_b : gives (run 0x01020012 0 0x0000FFFF 0xFFFF0000 f3) 0xFFFFFFFF (fl false true true true) := by decide

theorem test_andi_a : gives (run 0x01000013 0xFFFF0000 0x12345678 0xFFFF0000 f3) 0x12340000 f3 := by decide

theorem test_ori_a : gives (run 0x01000014 0x00000000 0x00000000 0x00000000 f3) 0x00000000 (fl true false true true) := by decide

theorem test_xori_a : gives (run 0x01000015 0xFFFFFFFF 0x7FFFFFFF 0xFFFFFFFF f3) 0x80000000 (fl false true true true) := by decide

theorem test_shl_a : gives (run 0x011F0016 0 0x00000003 0 f0) 0x80000000 (fl false true true false) := by decide

theorem test_shl_b : gives (run 0x01240016 0 0x12345678 0 f0) 0x23456780 (fl false false true false) := by decide

theorem test_shr_a : gives (run 0x01210017 0 0x00000001 0 f0) 0x00000000 (fl true false true false) := by decide

theorem test_shr_b : gives (run 0x01020017 0 0x00000002 0 f0) 0x00000000 (fl true false true false) := by decide

theorem test_cmp_a : gives (run 0x01020020 0 0x00000003 0x00000005 f0) 0x00000003 (fl false true true false) := by decide

theorem test_cmp_b : gives (run 0x01020020 0 0x00000001 0x80000000 f0) 0x00000001 (fl false true true true) := by decide

theorem test_cmpi_a : gives (run 0x01000021 0xFFFFFFFF 0x7FFFFFFF 0xFFFFFFFF f0) 0x7FFFFFFF (fl false true true true) := by decide

theorem test_test_a : gives (run 0x01020022 0 0x000000F0 0x0000000F f3) 0x000000F0 (fl true false true true) := by decide

theorem test_test_b : gives (run 0x01020022 0 0x80000000 0xFFFFFFFF f3) 0x80000000 (fl false true true true) := by decide

theorem test_testi_a : gives (run 0x01000023 0x00000002 0x00000006 0x00000002 f3) 0x00000006 f3 := by decide

theorem test_div_zero :
    raises (exec (.div (.gpr 1) (.gpr 2)) (base 5#32 0#32 f3)) (.divByZero (base 5#32 0#32 f3)) := by decide

theorem test_modi_zero :
    raises (exec (.modi (.gpr 1) 0#32) (base 5#32 0#32 f3)) (.divByZero (base 5#32 0#32 f3)) := by decide

/-! ### Jumps: the truth table of Part 2.5, its columns in order -/

/-- The flags Z N C of the table's six columns, V set. -/
def columns : List Flags :=
  [fl false false false true, fl false false true true, fl true false false true, fl true false true true,
    fl false true false true, fl false true true true]

/-- Which columns take the jump, PC being 0x2018 then and 0x2008 else. -/
def taken (op : Word) : List Bool :=
  columns.map fun f => goes (run op 0x2018#32 0#32 0#32 f) fun t => decide (t.pc = 0x2018#32) && decide (t.flags = f)

/-- Which columns go on at the next instruction. -/
def passed (op : Word) : List Bool :=
  columns.map fun f => goes (run op 0x2018#32 0#32 0#32 f) fun t => decide (t.pc = 0x2008#32) && decide (t.flags = f)

theorem test_jmp : taken 0x00000024#32 = [true, true, true, true, true, true] ∧ passed 0x00000024#32 = [false, false, false, false, false, false] := by decide

theorem test_jz : taken 0x00000025#32 = [false, false, true, true, false, false] ∧ passed 0x00000025#32 = [true, true, false, false, true, true] := by decide

theorem test_je : taken 0x00000026#32 = [false, false, true, true, false, false] ∧ passed 0x00000026#32 = [true, true, false, false, true, true] := by decide

theorem test_jnz : taken 0x00000027#32 = [true, true, false, false, true, true] ∧ passed 0x00000027#32 = [false, false, true, true, false, false] := by decide

theorem test_jne : taken 0x00000028#32 = [true, true, false, false, true, true] ∧ passed 0x00000028#32 = [false, false, true, true, false, false] := by decide

theorem test_jn : taken 0x00000029#32 = [false, false, false, false, true, true] ∧ passed 0x00000029#32 = [true, true, true, true, false, false] := by decide

theorem test_jp : taken 0x0000002A#32 = [true, true, true, true, false, false] ∧ passed 0x0000002A#32 = [false, false, false, false, true, true] := by decide

theorem test_jg : taken 0x0000002B#32 = [true, true, false, false, false, false] ∧ passed 0x0000002B#32 = [false, false, true, true, true, true] := by decide

theorem test_jge : taken 0x0000002C#32 = [true, true, true, true, false, false] ∧ passed 0x0000002C#32 = [false, false, false, false, true, true] := by decide

theorem test_jl : taken 0x0000002D#32 = [false, false, false, false, true, true] ∧ passed 0x0000002D#32 = [true, true, true, true, false, false] := by decide

theorem test_jle : taken 0x0000002E#32 = [false, false, true, true, true, true] ∧ passed 0x0000002E#32 = [true, true, false, false, false, false] := by decide

theorem test_jc : taken 0x0000002F#32 = [false, true, false, true, false, true] ∧ passed 0x0000002F#32 = [true, false, true, false, true, false] := by decide

theorem test_jnc : taken 0x00000030#32 = [true, false, true, false, true, false] ∧ passed 0x00000030#32 = [false, true, false, true, false, true] := by decide

theorem test_ja : taken 0x00000031#32 = [true, false, false, false, true, false] ∧ passed 0x00000031#32 = [false, true, true, true, false, true] := by decide

theorem test_jae : taken 0x00000032#32 = [true, false, true, false, true, false] ∧ passed 0x00000032#32 = [false, true, false, true, false, true] := by decide

theorem test_jb : taken 0x00000033#32 = [false, true, false, true, false, true] ∧ passed 0x00000033#32 = [true, false, true, false, true, false] := by decide

theorem test_jbe : taken 0x00000034#32 = [false, true, true, true, false, true] ∧ passed 0x00000034#32 = [true, false, false, false, true, false] := by decide
/-! ### Steps: memory, blocks, moves (Part 2.6) -/

/-- Bytes 44 33 22 11 at 0x4100. -/
theorem test_store_bytes :
    goes (run 0x01020019 0 0x11223344 0x4100 f3) (fun t => decide (t.mem.read 0x4100 = 0x44#8) &&
      decide (t.mem.read 0x4101 = 0x33#8) && decide (t.mem.read 0x4102 = 0x22#8) &&
      decide (t.mem.read 0x4103 = 0x11#8) && decide (t.mem.read 0x4104 = 0#8) && decide (t.flags = f3)) = true := by
  decide

/-- Item 1: the address register is the destination too. -/
theorem test_load_over_address :
    goes (exec (.load (.gpr 2) (.gpr 2)) (withWords [(0x4100, 0x11223344#32)] (base 0#32 0x4100#32 f3)))
      (fun t => decide (t.regs.get 2 = 0x11223344#32) && decide (t.flags = f3)) = true := by
  decide

/-- Part 2.8: `rS` is checked first. -/
theorem test_load_illegal :
    raises (exec (.load (.illegal 32#8) (.illegal 33#8)) State.reset) (.invalidRegister 33#8 State.reset) = true := by
  decide

/-- Item 2: the pixel at x = 5, y = 3. -/
theorem test_stori_pixel :
    goes (exec (.stori (.gpr 1) 0x22614#32) (base 0xFF0000FF#32 0#32 f0))
      (fun t => decide (pixel 5 3 t = (0xFF#8, 0x00#8, 0x00#8, 0xFF#8))) = true := by
  decide

/-- Part 2.8. -/
theorem test_stori_rom :
    raises (exec (.stori (.gpr 0) 0x10#32) State.reset) (.romWrite 0x10#32 State.reset) = true := by decide

/-- Item 4: the immediate itself. -/
theorem test_loadi_is_no_load :
    goes (exec (.loadi (.gpr 5) 0x4100#32) (withWords [(0x4100, 0xCAFEBABE#32)] State.reset))
      (fun t => decide (t.regs.get 5 = 0x4100#32) && decide (t.flags = f0)) = true := by
  decide

/-- Item 5: a count of 0 and a misaligned address. -/
theorem test_mset_count_zero :
    goes (exec (.mset (.gpr 2) (.gpr 2)) (base 0#32 2#32 f0)) (fun t => decide (t = base 0#32 2#32 f0)) = true := by
  decide

/-- Item 6: the third element lies at `IO_END`. -/
theorem test_mset_runs_off :
    raises (exec (.mset (.gpr 2) (.gpr 1)) (base 4#32 0x32FF8#32 f0)) (.invalidAddress 0x33000#32 (base 4#32 0x32FF8#32 f0))
      = true := by
  decide

/-- Item 8: backward, the destination ahead of the source. -/
theorem test_mcpy_backward :
    goes (exec (.mcpy (.gpr 2) (.gpr 3)) ((withWords [(0x4300, 1#32), (0x4304, 2#32), (0x4308, 3#32), (0x430C, 4#32)]
      (base 3#32 0x4304#32 f0)).setGpr 3 0x4300#32)) (fun t => decide ([t.mem.readWord 0x4300, t.mem.readWord 0x4304,
        t.mem.readWord 0x4308, t.mem.readWord 0x430C] = [1#32, 1#32, 2#32, 3#32])) = true := by
  decide

/-- Item 9: element 1 is copied, element 0 faults. -/
theorem test_mcpy_partial :
    (match exec (.mcpy (.gpr 2) (.gpr 3)) ((withWords [(0x1FF8, 0xAAAA0001#32), (0x1FFC, 0xBBBB0002#32)]
      (base 2#32 0x1FFC#32 f0)).setGpr 3 0x1FF8#32) with
    | .fault (.romWrite a t) => decide (a = 0x1FFC#32) && decide (t.mem.readWord 0x2000 = 0xBBBB0002#32)
    | _ => false) = true := by
  decide

/-- Item 11: `MOV r5, pc`. -/
theorem test_mov_pc :
    goes (run 0x05FC001E 0 0 0 f0) (fun t => decide (t.regs.get 5 = 0x2004#32) && decide (t.pc = 0x2004#32)) = true := by
  decide

/-- Item 11: `MOVI pc`. -/
theorem test_movi_pc : goes (run 0xFC00001F 0x2014 0 0 f0) (fun t => decide (t.pc = 0x2014#32)) = true := by decide

/-! ### Steps: calls, stack, system (Part 2.7) -/

/-- The return address is that of the next instruction (R133). -/
theorem test_call : goes (run 0x00000035 0x3000 0 0 f3) (fun t => decide (t.pc = 0x3000#32) &&
    decide (t.sp = 0x21FF8#32) && decide (t.mem.readWord 0x21FF8 = 0x2008#32) && decide (t.flags = f3)) = true := by
  decide

theorem test_ret : goes (exec .ret (withWords [(0x21FFC, 0x200C#32)] State.reset))
    (fun t => decide (t.pc = 0x200C#32) && decide (t.sp = 0x22000#32)) = true := by
  decide

/-- Item 2: `PUSH sp` stores the SP from before. -/
theorem test_push_sp : goes (exec (.push .sp) State.reset) (fun t => decide (t.mem.readWord 0x21FF8 = 0x21FFC#32) &&
    decide (t.sp = 0x21FF8#32)) = true := by
  decide

/-- Part 2.8: SP stays decremented. -/
theorem test_push_collision :
    raises (exec (.push (.gpr 0)) (State.reset.setHp 0x21FFC#32))
      (.heapStackCollision 0x21FF8 ((State.reset.setHp 0x21FFC#32).setSp 0x21FF8#32)) = true := by
  decide

/-- Item 3: `POP sp` leaves the word in SP. -/
theorem test_pop_sp : goes (exec (.pop .sp) (withWords [(0x21FFC, 0x3000#32)] State.reset))
    (fun t => decide (t.sp = 0x3000#32) && decide (t.flags = f0)) = true := by
  decide

/-- Scenario 4. -/
theorem test_syscall :
    goes (exec .syscall ((withWords [(0x14, 0x110#32)] State.reset).setGpr 0 1#32)) (fun t => decide (t.pc = 0x110#32) &&
      decide (t.sp = 0x21FF8#32) && decide (t.mem.readWord 0x21FF8 = 0x2000#32)) = true := by
  decide

/-- Item 5: the entry of 2044 is the first word past ROM. -/
theorem test_syscall_out_of_range :
    raises (exec .syscall (State.reset.setGpr 0 2044#32)) (.syscallOutOfRange 2044#32 (State.reset.setGpr 0 2044#32))
      = true := by
  decide

/-- Item 6: junk in the unused fields. -/
theorem test_nop_junk : goes (run 0xFFFFFF3A 0 0 0 f3) (fun t => decide (t.pc = 0x2004#32) && decide (t.flags = f3)) = true := by
  decide

theorem test_hlt : goes (run 0x0000003B 0 0 0 f0) (fun t => t.halt && decide (t.pc = 0x2004#32)) = true := by decide

/-! ### Devices (Scenario 6, Part 2.9) -/

/-- A typed C takes effect before the fetch of `LOAD`, the address being CURRENT_CHAR's. -/
theorem test_agent_before_fetch :
    goes (step { placeAtPc (bytesOfWord 0x01020018#32) (base 0#32 0x32008#32 f0) with schedule := [[.enqueue 0x43#32]] })
      (fun t => decide (t.regs.get 1 = 0x43#32) && decide (t.kbd.queue = [0x43#32])) = true := by
  decide

/-- Scenario 6's first row, and a consume. -/
theorem test_keyboard :
    let k := (((Keyboard.mk []).enqueue 32 0x41#32).enqueue 32 0x42#32).enqueue 32 0x43#32
    [k.readWord 0, k.readWord 4, k.readWord 8, k.readWord 12] = [0x41#32, 1#32, 0x43#32, 0#32] ∧
      (k.writeWord 12 1#32).queue = [0x42#32, 0x43#32] := by
  decide

theorem test_console :
    goes (exec (.stori (.gpr 1) 0x32010#32) (base 0x12345641#32 0#32 f0))
      (fun t => decide (t.con = ⟨0x12345641#32, [0x41#8]⟩)) = true := by
  decide

/-- Part 2.9: 5 is skipped, then the wrap. -/
theorem test_timer :
    (Timer.mk 0#32 5#32 false).tick 7 = ⟨7#32, 5#32, false⟩ ∧ (Timer.mk 0#32 5#32 false).tick 5 = ⟨5#32, 5#32, true⟩ ∧
      ((Timer.mk 0xFFFFFFFE#32 0#32 false).tick 5).time = 3#32 := by
  decide

/-- The host's word runs as the first instruction after reset (R172). -/
theorem test_withFetchWord :
    goes (step (State.reset.withFetchWord 64 0x00000005_0100001F)) (fun t => decide (t.regs.get 1 = 5#32)) = true := by
  decide

/-! ### Witnesses: states and operands that meet a statement's hypotheses -/

/-- A state to stand in: addresses in `r1` and `r2`, C and V set. -/
def here : State := base 0x4100#32 0x4200#32 f3

theorem layoutA_wf : Config.layoutA.wf := by decide

/-- R71: a configuration with a device in the last word below `IO_END`. -/
theorem test_device_at_end : { Config.layoutA with conBase := some 0x32FFC }.wf ∧
    claimant { Config.layoutA with conBase := some 0x32FFC } 0x32FFC = some (.console, 0) ∧
    claimant { Config.layoutA with conBase := some 0x32FFC } 0x32010 = none := by decide

/-- Two devices over the same word are no legal configuration. -/
theorem test_wf_refuses_overlap : ¬{ Config.layoutA with conBase := some 0x3200C }.wf := by decide

theorem witness_DecodeEncodeAgree :
    Config.layoutA.codecWf ∧ (Instr.add (.illegal 255#8) .hp).wf std = true ∧ (Instr.jbe 0xFFFFFFFF#32).wf std = true := by
  decide

theorem witness_DecodedInstructionReencodes :
    Config.layoutA.codecWf ∧
      decodeHead Config.layoutA 0xFFFFFF01#32 = .oneWord (.add (.illegal 255#8) (.illegal 255#8)) ∧
      decodeHead Config.layoutA 0x01FFFF06#32 = .twoWords (.addi (.gpr 1)) :=
  ⟨layoutA_wf.1, rfl, rfl⟩

/-- An `R` word with junk where `R` has no field, a `RI` word, and a word whose format has no field at all. -/
theorem witness_UnusedBitsAreIgnored :
    (opcodeField 0x05FFAA0B#32 = opcodeField 0x0500000B#32 ∧ rDField 0x05FFAA0B#32 = rDField 0x0500000B#32 ∧
      decodeHead Config.layoutA 0x0500000B#32 = .oneWord (.inc (.gpr 5))) ∧
    (opcodeField 0x01FFFF06#32 = opcodeField 0x01000006#32 ∧ rDField 0x01FFFF06#32 = rDField 0x01000006#32 ∧
      decodeHead Config.layoutA 0x01000006#32 = .twoWords (.addi (.gpr 1))) ∧
    (opcodeField 0xFFFFFF3A#32 = opcodeField 0x0000003A#32 ∧ decodeHead Config.layoutA 0x0000003A#32 = .oneWord .nop) :=
  ⟨⟨rfl, rfl, rfl⟩, ⟨rfl, rfl, rfl⟩, rfl, rfl⟩

/-- A one-word and a two-word instruction, and an unknown opcode, at 0x2000. -/
theorem witness_StepRunsFetchedInstruction :
    here.halt = false ∧
    (∃ t, fetchWord (placeAtPc [58#8] here) = .next (58#32, t) ∧ decodeHead t.cfg 58#32 = .oneWord .nop) ∧
    (∃ t u, fetchWord (placeAtPc [36#8] here) = .next (36#32, t) ∧ decodeHead t.cfg 36#32 = .twoWords .jmp ∧
      fetchWord t = .next (0#32, u)) ∧
    (∃ t, fetchWord here = .next (0#32, t) ∧ decodeHead t.cfg 0#32 = .unknown 0#8) :=
  ⟨rfl, ⟨_, rfl, rfl⟩, ⟨_, _, rfl, rfl, rfl⟩, _, rfl, rfl⟩

/-- A machine whose ADDI has opcode 0, which unclaimed I/O reads as. -/
def zeroOpcode : State :=
  (State.resetWith { Config.layoutA with opcodeMap := Config.catalogMap.set 5 0#8 }).setPc 0x32FFC#32

/-- The second word of an instruction in the last word below `IO_END`. -/
theorem witness_StepRunsFetchedInstruction_second_fault :
    zeroOpcode.cfg.wf ∧ zeroOpcode.halt = false ∧
    ∃ t f, fetchWord zeroOpcode = .next (0#32, t) ∧
      decodeHead t.cfg 0#32 = .twoWords (.addi (.gpr 0)) ∧ fetchWord t = .fault f :=
  ⟨by decide, rfl, _, _, rfl, rfl, rfl⟩

/-- One word in the last word of VRAM, and two words in the last two. -/
theorem witness_StepRunsBytesAtPc :
    (∃ s : State, ∃ i rest, s.cfg.wf ∧ s.halt = false ∧ s.pc.toNat % 4 = 0 ∧ s.pc.toNat + 4 = s.cfg.ioBase ∧
      decodeWith s.cfg ((List.range 8).map fun k => s.mem.read (s.pc.toNat + k)) = .ok (i, rest) ∧
      rest.length = 4) ∧
    (∃ s : State, ∃ i rest, s.cfg.wf ∧ s.halt = false ∧ s.pc.toNat % 4 = 0 ∧ s.pc.toNat + 8 = s.cfg.ioBase ∧
      decodeWith s.cfg ((List.range 8).map fun k => s.mem.read (s.pc.toNat + k)) = .ok (i, rest) ∧
      rest.length = 0) :=
  ⟨⟨placeAtPc [58#8] (here.setPc 0x31FFC#32), _, _, layoutA_wf, rfl, rfl, rfl, rfl, rfl⟩,
    ⟨placeAtPc [36#8] (here.setPc 0x31FF8#32), _, _, layoutA_wf, rfl, rfl, rfl, rfl, rfl⟩⟩

/-- Halted; PC one past and three past a word's address; the first and the last unmapped word; an unregistered byte in the
first word of RAM and the last of VRAM. -/
theorem witness_StepStopsBeforeExecution :
    (here.setHalt true).halt = true ∧ here.halt = false ∧ here.cfg.wf ∧
    ((here.setPc 0x2001#32).pc.toNat % 4 ≠ 0 ∧ (here.setPc 0xFFFFFFFF#32).pc.toNat % 4 ≠ 0 ∧
      here.cfg.misaligned = .fault) ∧
    ((here.setPc 0x33000#32).pc.toNat % 4 = 0 ∧ here.cfg.ioEnd = (here.setPc 0x33000#32).pc.toNat ∧
      (here.setPc 0xFFFFFFFC#32).pc.toNat % 4 = 0 ∧ here.cfg.ioEnd ≤ (here.setPc 0xFFFFFFFC#32).pc.toNat) ∧
    (here.pc.toNat % 4 = 0 ∧ here.pc.toNat < here.cfg.ioBase ∧ here.mem.read here.pc.toNat ∉ here.cfg.opcodeMap ∧
      (here.setPc 0x31FFC#32).pc.toNat + 4 = here.cfg.ioBase ∧ here.mem.read 0x31FFC ∉ here.cfg.opcodeMap) := by
  decide

theorem witness_RegisterIndexReads :
    here.cfg.aliases = Aliases.standard ∧ (∀ i ∈ [32#8, 251#8, 255#8], (32 ≤ i.toNat ∧ i.toNat ≤ 251) ∨ i.toNat = 255) ∧
      ∃ w t, fetchWord here = .next (w, t) :=
  ⟨rfl, by decide, _, _, rfl⟩

/-- The indices at the ends of the ranges. -/
theorem witness_RegisterIndexWrites :
    here.cfg.aliases = Aliases.standard ∧ (∀ i ∈ [0#8, 31#8, 252#8, 253#8, 254#8], i.toNat < 32 ∨ (252 ≤ i.toNat ∧ i.toNat ≤ 254)) ∧
      ∀ i ∈ [32#8, 251#8, 255#8], ¬(i.toNat < 32 ∨ (252 ≤ i.toNat ∧ i.toNat ≤ 254)) := by
  decide

/-- A general register, PC, SP and HP as destinations, one of them as both operands. -/
theorem witness_AddSubResults :
    here.reg? (.gpr 1) = some 0x4100#32 ∧ here.reg? (.gpr 2) = some 0x4200#32 ∧ here.reg? .pc = some 0x2000#32 ∧
      here.reg? .sp = some 0x21FFC#32 ∧ here.reg? .hp = some 0x4000#32 := by
  decide

theorem witness_MulLogicResults : here.reg? (.gpr 1) = some 0x4100#32 ∧ here.reg? (.gpr 1) = some 0x4100#32 := by decide

/-- -7 by 2, signed; the same words, unsigned. -/
theorem witness_DivModResults :
    (∃ (s : State) (q r : Word), s.reg? (.gpr 1) = some 0xFFFFFFF9#32 ∧ s.reg? (.gpr 2) = some 2#32 ∧ 2#32 ≠ 0#32 ∧
      s.cfg.divMode = .signed ∧ q = BitVec.ofInt 32 ((0xFFFFFFF9#32).toInt.tdiv (2#32).toInt) ∧
      r = BitVec.ofInt 32 ((0xFFFFFFF9#32).toInt.tmod (2#32).toInt) ∧ q = 0xFFFFFFFD#32 ∧ r = 0xFFFFFFFF#32) ∧
    (∃ (s : State) (q r : Word), s.reg? (.gpr 1) = some 0xFFFFFFF9#32 ∧ s.reg? (.gpr 2) = some 2#32 ∧ 2#32 ≠ 0#32 ∧
      s.cfg.divMode = .unsigned ∧ q.toNat = (0xFFFFFFF9#32).toNat / (2#32).toNat ∧
      r.toNat = (0xFFFFFFF9#32).toNat % (2#32).toNat) :=
  ⟨⟨base 0xFFFFFFF9#32 2#32 f0, 0xFFFFFFFD#32, 0xFFFFFFFF#32, by decide⟩,
    ⟨{ base 0xFFFFFFF9#32 2#32 f0 with cfg := { Config.layoutA with divMode := .unsigned } }, 0x7FFFFFFC#32, 1#32,
      by decide⟩⟩

theorem witness_QuotientAndRemainderAgree : 0xFFFFFFFF#32 ≠ 0#32 ∧ 0x80000000#32 = (0x80000000#32 : Word) := by decide

theorem witness_ZeroDivisorRaises :
    (base 5#32 0#32 f0).reg? (.gpr 1) = some 5#32 ∧ (base 5#32 0#32 f0).reg? (.gpr 2) = some 0#32 := by
  decide

theorem witness_UnaryResults : here.reg? .hp = some 0x4000#32 ∧ here.reg? (.gpr 31) = some 0#32 := by decide

theorem witness_ShiftResults : here.reg? (.gpr 1) = some 0x4100#32 ∧ here.reg? .sp = some 0x21FFC#32 := by decide

theorem witness_MoveResults : here.reg? .sp = some 0x21FFC#32 ∧ here.reg? .pc = some 0x2000#32 := by decide

/-- The first and the last illegal index, beside a legal operand that is an address. -/
theorem witness_IllegalIndexRaises :
    here.reg? (.illegal 32#8) = none ∧ here.reg? (.illegal 255#8) = none ∧ here.reg? (.gpr 1) = some 0x4100#32 ∧
      here.cfg.wf ∧ here.readableWord 0x4100#32 := by
  unfold State.readableWord
  decide

/-- The first word of ROM, the last of VRAM, the first and the last of the I/O window. -/
theorem witness_LoadResults :
    here.cfg.wf ∧ here.reg? .pc = some 0x2000#32 ∧ here.reg? (.gpr 1) = some 0x4100#32 ∧ here.readableWord 0x4100#32 ∧
      here.readableWord 0#32 ∧ here.readableWord 0x31FFC#32 ∧ here.readableWord 0x32000#32 ∧
      here.readableWord 0x32FFC#32 := by
  unfold State.readableWord
  decide

/-- The first word of RAM, the last of VRAM. -/
theorem witness_StoreResults :
    here.cfg.wf ∧ here.reg? (.gpr 1) = some 0x4100#32 ∧ here.reg? (.gpr 2) = some 0x4200#32 ∧
      here.writableWord 0x4200#32 ∧
      here.writableWord 0x2000#32 ∧ here.writableWord 0x31FFC#32 := by
  unfold State.writableWord
  decide

/-- The first and the last word of the I/O window. -/
theorem witness_StoreToDeviceResults :
    here.cfg.wf ∧ (base 7#32 0x32000#32 f0).reg? (.gpr 1) = some 7#32 ∧ (base 7#32 0x32000#32 f0).reg? (.gpr 2) = some 0x32000#32 ∧
      (base 7#32 0x32000#32 f0).ioWord 0x32000#32 ∧ (base 7#32 0x32000#32 f0).ioWord 0x32FFC#32 := by
  unfold State.ioWord
  decide

/-- A misaligned address next to a legal one, the first unmapped word, the last word of ROM; the same for SP. -/
theorem witness_MemoryFaults :
    (∀ a, (base 7#32 a f0).reg? (.gpr 1) = some 7#32 ∧ (base 7#32 a f0).reg? (.gpr 2) = some a) ∧
    ((0x4101#32).toNat % 4 ≠ 0 ∧ (0x4103#32).toNat % 4 ≠ 0 ∧ here.cfg.misaligned = .fault) ∧
    ((0x33000#32).toNat % 4 = 0 ∧ here.cfg.ioEnd = (0x33000#32).toNat) ∧
    ((0x1FFC#32).toNat % 4 = 0 ∧ (0x1FFC#32).toNat + 4 = here.cfg.romBase + here.cfg.romSize ∧ here.cfg.wf) ∧
    (here.setSp 0x21FFD#32).sp.toNat % 4 ≠ 0 ∧
    ((here.setSp 0x33000#32).sp.toNat % 4 = 0 ∧ here.cfg.ioEnd ≤ (here.setSp 0x33000#32).sp.toNat) :=
  ⟨fun _ => ⟨rfl, rfl⟩, by decide⟩

theorem witness_StoredWordReadsBack :
    here.mem.wf = true ∧ here.cfg.wf ∧ here.writableWord 0x2000#32 ∧ here.writableWord 0x31FFC#32 := by
  unfold State.writableWord
  decide

/-- No word, two words that end where VRAM ends, and the whole I/O window. -/
theorem witness_MsetFillsBlock :
    (∃ s : State, s.reg? (.gpr 2) = some 2#32 ∧ s.reg? (.gpr 3) = some 0#32 ∧ (s.regs.get 1).toNat = 0) ∧
    (∃ s : State, s.reg? (.gpr 2) = some 0x31FF8#32 ∧ s.reg? (.gpr 3) = some 0#32 ∧ (s.regs.get 1).toNat = 2 ∧ s.cfg.wf ∧
      (0x31FF8#32).toNat % 4 = 0 ∧ s.cfg.ramBase ≤ (0x31FF8#32).toNat ∧ (0x31FF8#32).toNat + 4 * 2 = s.cfg.ioBase ∧
      s.mem.wf = true) ∧
    (∃ s : State, s.reg? (.gpr 2) = some 0x32000#32 ∧ s.reg? (.gpr 3) = some 0#32 ∧ (s.regs.get 1).toNat = 0x400 ∧
      s.cfg.wf ∧ (0x32000#32).toNat % 4 = 0 ∧ s.cfg.ramBase ≤ (0x32000#32).toNat ∧
      (0x32000#32).toNat + 4 * 0x400 = s.cfg.ioEnd) :=
  ⟨⟨base 0#32 2#32 f0, by decide⟩, ⟨base 2#32 0x31FF8#32 f0, by decide⟩, ⟨base 0x400#32 0x32000#32 f0, by decide⟩⟩

/-- No word; three words that overlap their source, which starts in ROM; three that end at `IO_END`, overlapping theirs. -/
theorem witness_McpyMovesBlock :
    (∃ s : State, s.reg? (.gpr 2) = some 2#32 ∧ s.reg? (.gpr 3) = some 0#32 ∧ (s.regs.get 1).toNat = 0) ∧
    (∃ s : State, s.reg? (.gpr 2) = some 0x2000#32 ∧ s.reg? (.gpr 3) = some 0x1FFC#32 ∧ (s.regs.get 1).toNat = 3 ∧
      s.cfg.wf ∧ (0x2000#32).toNat % 4 = 0 ∧ (0x1FFC#32).toNat % 4 = 0 ∧ s.cfg.ramBase = (0x2000#32).toNat ∧
      (0x2000#32).toNat + 4 * 3 ≤ s.cfg.ioBase ∧ (0x1FFC#32).toNat + 4 * 3 ≤ s.cfg.ioBase ∧ s.mem.wf = true) ∧
    (∃ s : State, s.reg? (.gpr 2) = some 0x32FF4#32 ∧ s.reg? (.gpr 3) = some 0x32FF0#32 ∧ (s.regs.get 1).toNat = 3 ∧
      s.cfg.wf ∧ (0x32FF4#32).toNat % 4 = 0 ∧ (0x32FF0#32).toNat % 4 = 0 ∧ s.cfg.ramBase ≤ (0x32FF4#32).toNat ∧
      (0x32FF4#32).toNat + 4 * 3 = s.cfg.ioEnd ∧ (0x32FF0#32).toNat + 4 * 3 ≤ s.cfg.ioEnd) :=
  ⟨⟨base 0#32 2#32 f0, by decide⟩, ⟨(base 3#32 0x2000#32 f0).setGpr 3 0x1FFC#32, by decide⟩,
    ⟨(base 3#32 0x32FF4#32 f0).setGpr 3 0x32FF0#32, by decide⟩⟩

/-- MSET up to `IO_END` from two words below it; MCPY up to it, its source in RAM; MCPY down into ROM. -/
theorem witness_BlockStopsAtFirstFault :
    (∃ (s t : State) (f : Fault), s.reg? (.gpr 2) = some 0x32FF8#32 ∧ s.reg? (.gpr 3) = some 0#32 ∧
      (s.regs.get 1).toNat = 2 + 1 + 1 ∧ fillFrom 0x32FF8#32 0#32 0 2 s = .next t ∧
      memWrite (elementAddress 0x32FF8#32 2) 0#32 t = .fault f) ∧
    (∃ (s t : State) (f : Fault), s.reg? (.gpr 2) = some 0x32FFC#32 ∧ s.reg? (.gpr 3) = some 0x32FF8#32 ∧
      (s.regs.get 1).toNat = 0 + 1 + 1 ∧ backward 0x32FFC#32 0x32FF8#32 (0 + 1 + 1) = true ∧
      copyTop 0x32FFC#32 0x32FF8#32 (0 + 1 + 1) 0 s = .next t ∧ copyElement 0x32FFC#32 0x32FF8#32 1 t = .fault f) ∧
    (∃ (s t : State) (f : Fault), s.reg? (.gpr 2) = some 0x1FFC#32 ∧ s.reg? (.gpr 3) = some 0x1FF8#32 ∧
      (s.regs.get 1).toNat = 1 + 1 + 0 ∧ backward 0x1FFC#32 0x1FF8#32 (1 + 1 + 0) = true ∧
      copyTop 0x1FFC#32 0x1FF8#32 (1 + 1 + 0) 1 s = .next t ∧ copyElement 0x1FFC#32 0x1FF8#32 0 t = .fault f) ∧
    (∃ (s t : State) (f : Fault), s.reg? (.gpr 2) = some 0x32FFC#32 ∧ s.reg? (.gpr 3) = some 0x4100#32 ∧
      (s.regs.get 1).toNat = 1 + 1 + 0 ∧ backward 0x32FFC#32 0x4100#32 (1 + 1 + 0) = false ∧
      copyUp 0x32FFC#32 0x4100#32 0 1 s = .next t ∧ copyElement 0x32FFC#32 0x4100#32 1 t = .fault f) :=
  ⟨⟨base 4#32 0x32FF8#32 f0, _, _, rfl, rfl, rfl, rfl, rfl⟩,
    ⟨(base 2#32 0x32FFC#32 f0).setGpr 3 0x32FF8#32, _, _, rfl, rfl, rfl, rfl, rfl, rfl⟩,
    ⟨(base 2#32 0x1FFC#32 f0).setGpr 3 0x1FF8#32, _, _, rfl, rfl, rfl, rfl, rfl, rfl⟩,
    ⟨(base 2#32 0x32FFC#32 f0).setGpr 3 0x4100#32, _, _, rfl, rfl, rfl, rfl, rfl, rfl⟩⟩

theorem witness_CompareResults : here.reg? (.gpr 1) = some 0x4100#32 ∧ here.reg? .sp = some 0x21FFC#32 := by decide

/-- Each predicate of R115 holds in some state and fails in some. -/
theorem witness_JumpResults :
    (State.reset.setFlags (fl true true true false)).flags.z = true ∧
      (State.reset.setFlags (fl true true true false)).flags.n = true ∧
      (State.reset.setFlags (fl true true true false)).flags.c = true ∧
      ¬(State.reset.flags.z = true ∨ State.reset.flags.n = true ∨ State.reset.flags.c = true) := by
  decide

/-- A compare that answers, without overflow at the edges -2^31 and 2^31 - 1. -/
theorem witness_JumpsAfterCompareOrder :
    (∃ t, here.reg? (.gpr 1) = some 0x4100#32 ∧ here.reg? (.gpr 2) = some 0x4200#32 ∧
      exec (.cmp (.gpr 1) (.gpr 2)) here = .next t) ∧
    (-2 ^ 31 ≤ (0x80000000#32).toInt - (0#32).toInt ∧ (0x80000000#32).toInt - (0#32).toInt < 2 ^ 31) ∧
    (-2 ^ 31 ≤ (0x7FFFFFFF#32).toInt - (0#32).toInt ∧ (0x7FFFFFFF#32).toInt - (0#32).toInt < 2 ^ 31) :=
  ⟨⟨_, rfl, rfl, rfl⟩, by decide, by decide⟩

/-- HP at the new SP and one byte below it; a new SP that is misaligned, the first unmapped word, the last word of ROM;
stores that answer; a SYSCALL that passes its checks. -/
theorem witness_PushChecksThenStores :
    (here.cfg.wf ∧ here.reg? (.gpr 1) = some 0x4100#32) ∧
    (((here.setHp 0x21FF8#32).sp - 4#32).toNat ≤ (here.setHp 0x21FF8#32).hp.toNat ∧
      (here.setHp 0x21FF7#32).hp.toNat < (here.sp - 4#32).toNat) ∧
    ((here.setSp 0x21FFD#32).hp.toNat < ((here.setSp 0x21FFD#32).sp - 4#32).toNat ∧
      ((here.setSp 0x21FFD#32).sp - 4#32).toNat % 4 ≠ 0 ∧ here.cfg.misaligned = .fault) ∧
    ((here.setSp 0x33004#32).hp.toNat < ((here.setSp 0x33004#32).sp - 4#32).toNat ∧
      ((here.setSp 0x33004#32).sp - 4#32).toNat = here.cfg.ioEnd) ∧
    (((here.setSp 0x2000#32).setHp 0x100#32).hp.toNat < ((here.setSp 0x2000#32).sp - 4#32).toNat ∧
      ((here.setSp 0x2000#32).sp - 4#32).toNat + 4 = here.cfg.romBase + here.cfg.romSize) ∧
    (∃ t, memWrite (here.sp - 4#32) here.pc (here.setSp (here.sp - 4#32)) = .next t) ∧
    (∃ f, memWrite 0x33000#32 here.pc ((here.setSp 0x33004#32).setSp 0x33000#32) = .fault f) ∧
    (withWords [(0x10, 0x110#32)] here).syscallPasses := by
  refine ⟨by decide, by decide, by decide, by decide, by decide, ⟨_, rfl⟩, ⟨_, rfl⟩, ?_⟩
  unfold State.syscallPasses State.syscallTarget State.syscallEntryAt
  decide

/-- The stack at reset, in the first word of RAM with HP below it, and in the last word of VRAM. -/
theorem witness_PushResults :
    here.cfg.wf ∧ here.reg? .sp = some 0x21FFC#32 ∧ here.roomToPush ∧ here.writableWord (here.sp - 4#32) ∧
    ((here.setSp 0x2004#32).setHp 0x1FFF#32).roomToPush ∧
    (here.setSp 0x2004#32).writableWord ((here.setSp 0x2004#32).sp - 4#32) ∧
    (here.setSp 0x32000#32).roomToPush ∧ (here.setSp 0x32000#32).writableWord ((here.setSp 0x32000#32).sp - 4#32) := by
  unfold State.roomToPush State.writableWord
  decide

theorem witness_PopResults :
    here.cfg.wf ∧ here.readableWord here.sp ∧ (∃ a, here.reg? .sp = some a) ∧ here.reg? (.illegal 32#8) = none ∧
      (here.setSp 0x32FFC#32).readableWord (here.setSp 0x32FFC#32).sp := by
  refine ⟨layoutA_wf, by unfold State.readableWord; decide, ⟨_, rfl⟩, rfl, by unfold State.readableWord; decide⟩

theorem witness_CallAndReturnResults :
    here.cfg.wf ∧ here.roomToPush ∧ here.writableWord (here.sp - 4#32) ∧ here.readableWord here.sp := by
  unfold State.roomToPush State.writableWord State.readableWord
  decide

theorem witness_CallReturnsAndPushPops :
    here.cfg.wf ∧ here.mem.wf = true ∧ here.roomToPush ∧ here.writableWord (here.sp - 4#32) ∧
    (∃ t, exec (.call 0x3000#32) here = .next t) ∧
    (∃ t, here.reg? .sp = some 0x21FFC#32 ∧ here.reg? .pc = some 0x2000#32 ∧ Reg.pc ≠ .sp ∧
      exec (.push .sp) here = .next t) := by
  refine ⟨layoutA_wf, rfl, by unfold State.roomToPush; decide, by unfold State.writableWord; decide, ⟨_, rfl⟩, ⟨_, rfl, rfl, by decide, rfl⟩⟩

/-- The address of a syscall's table entry. -/
def entryOf (s : State) : Word := BitVec.ofNat 32 s.cfg.syscallTableBase + 4#32 * s.regs.get 0

/-- The last word of ROM as the entry, and its target in the last word below `IO_END`. -/
theorem witness_SyscallEntersHandler :
    ∃ s : State, s.cfg.wf ∧ (entryOf s).toNat + 4 = s.cfg.romBase + s.cfg.romSize ∧
      s.mem.readWord (entryOf s).toNat ≠ 0#32 ∧ (s.mem.readWord (entryOf s).toNat).toNat + 4 = s.cfg.ioEnd ∧
      s.roomToPush ∧ s.writableWord (s.sp - 4#32) := by
  refine ⟨(withWords [(0x1FFC, 0x32FFC#32)] here).setGpr 0 2043#32, ?_⟩
  unfold State.roomToPush State.writableWord
  decide

/-- The first entry past ROM; an empty entry; the first unpopulated target; HP at the new SP; an unmapped stack. -/
theorem witness_SyscallFaults :
    here.cfg.wf ∧ here.cfg.romBase + here.cfg.romSize = (entryOf (here.setGpr 0 2044#32)).toNat ∧
    ((entryOf here).toNat < here.cfg.romBase + here.cfg.romSize ∧ here.mem.readWord 0x10 = 0#32) ∧
    ((withWords [(0x10, 0x33000#32)] here).mem.readWord 0x10 ≠ 0#32 ∧
      here.cfg.ioEnd = ((withWords [(0x10, 0x33000#32)] here).mem.readWord 0x10).toNat) ∧
    ((withWords [(0x10, 0x110#32)] here).mem.readWord 0x10 = 0x110#32 ∧ (0x110#32).toNat < here.cfg.ioEnd) ∧
    (∃ f, push here.pc (here.setHp 0x21FF8#32).agentsAct = .fault f) ∧
    ∃ f, push here.pc (here.setSp 0x33004#32).agentsAct = .fault f :=
  ⟨by decide, by decide, by decide, by decide, by decide, ⟨_, rfl⟩, ⟨_, rfl⟩⟩

theorem witness_KeyboardRegisterReads :
    (∃ q c, (Keyboard.mk [0x41#32, 0x42#32]).queue = q ++ [c]) ∧ (Keyboard.mk []).queue = [] ∧ here.cfg.wf ∧
      here.cfg.kbdBase = some 0x32000 :=
  ⟨⟨[0x41#32], 0x42#32, rfl⟩, rfl, layoutA_wf, rfl⟩

/-- Words that are no command; a buffer of 31 and one of 32 characters. -/
theorem witness_KeyboardCommandsAndTyping :
    ((0#32).toNat = 0 ∧ 3 < (4#32).toNat ∧ 8 ≠ 12) ∧ (Keyboard.mk (List.replicate 31 1#32)).queue.length < 32 ∧
    (Keyboard.mk (List.replicate 32 1#32)).queue.length ≤ 32 ∧
      (Keyboard.mk (List.replicate 32 1#32)).queue = 1#32 :: List.replicate 31 1#32 ∧
      (List.replicate 31 1#32).length = 31 :=
  ⟨by decide, by simp, by simp, rfl, rfl⟩

theorem witness_ConsolePrints : here.cfg.wf ∧ here.cfg.conBase = some 0x32010 := by decide

theorem witness_TimerRegistersAndTick : (0#32).toNat = 0 ∧ 2 < (3#32).toNat := by decide

/-- A legal configuration with the three devices registered; the first unclaimed word and the last. -/
theorem witness_DeviceMap :
    here.cfg.wf ∧ here.cfg.kbdBase = some 0x32000 ∧ here.cfg.conBase = some 0x32010 ∧ here.cfg.tmrBase = some 0x32014 ∧
    (here.ioWord 0x32024#32 ∧ here.ioWord 0x32FFC#32) ∧
    ∀ d b, here.cfg.deviceBase d = some b →
      ((0x32024#32).toNat < b ∨ b + d.size ≤ (0x32024#32).toNat) ∧
        ((0x32FFC#32).toNat < b ∨ b + d.size ≤ (0x32FFC#32).toNat) := by
  refine ⟨layoutA_wf, rfl, rfl, rfl, by unfold State.ioWord; decide, ?_⟩
  intro d b hb
  cases d <;> cases hb <;> decide

theorem witness_DeviceByteLanes : 3 < 4 ∧ here.ioWord 0x32000#32 ∧ here.ioWord 0x32FFC#32 ∧ here.cfg.wf := by
  unfold State.ioWord
  decide

/-- The largest success from reset and the smallest failure, and a size that is rounded up (Scenario 3). -/
theorem witness_AllocateHeapResults :
    (0x1DFF8 % 4 = 0 ∧ State.reset.hp.toNat + 0x1DFF8 < State.reset.sp.toNat) ∧
    (0x1DFFC % 4 = 0 ∧ State.reset.sp.toNat = State.reset.hp.toNat + 0x1DFFC) ∧ (5 ≤ 8 ∧ 8 < 5 + 4 ∧ 8 % 4 = 0) := by
  have h : State.reset.hp.toNat = 0x4000 ∧ State.reset.sp.toNat = 0x21FFC := by decide
  rw [h.1, h.2]
  norm_num

theorem witness_BootPlacesImages :
    Config.layoutA.wf ∧ [1#8, 2#8].length ≤ Config.layoutA.romSize ∧ [3#8].length ≤ Config.layoutA.ramSize := by
  decide

theorem witness_StoredPixel :
    here.cfg.wf ∧ here.mem.wf = true ∧ here.reg? (.gpr 1) = some 0x4100#32 ∧
      127 < here.cfg.vramWidth ∧ 127 < here.cfg.vramHeight := by
  decide

theorem witness_inv : here.Inv :=
  ⟨layoutA_wf, ⟨rfl, by simp [here, base, State.reset, State.resetWith]⟩, by unfold State.keyboardWf; decide,
    by unfold State.flagsWf; decide⟩

theorem witness_StepKeepsInvariant : (placeAtPc [58#8] here).Inv ∧ ∃ t, step (placeAtPc [58#8] here) = .next t := by
  refine ⟨⟨layoutA_wf, ⟨rfl, ?_⟩, ?_, ?_⟩, _, rfl⟩
  · intro p hp
    have e : (placeAtPc [58#8] here).mem = [(0x2000, 58#8)] := rfl
    rw [e] at hp
    simp only [List.mem_singleton] at hp
    subst hp
    decide
  · unfold State.keyboardWf
    decide
  · unfold State.flagsWf
    decide

/-- A store answers, and a MSET faults on its second word; the first and the last byte of ROM. -/
theorem witness_StepKeepsRom :
    here.cfg.wf ∧ (∃ t, step (placeAtPc (bytesOfWord 0x01020019#32) here) = .next t) ∧
      (∃ f, step (placeAtPc (bytesOfWord 0x0201001C#32) (base 2#32 0x32FFC#32 f0)) = .fault f) ∧
      here.cfg.romBase = 0 ∧ 0x1FFF + 1 = here.cfg.romBase + here.cfg.romSize :=
  ⟨layoutA_wf, ⟨_, rfl⟩, ⟨_, rfl⟩, rfl, rfl⟩

/-- `POP sp`, whose destination is the stack pointer, and a register instruction. -/
theorem witness_OnlyTheDestinationChanges :
    (∃ t, exec (.inc (.gpr 1)) here = .next t ∧ t.reg? (.gpr 1) ≠ here.reg? (.gpr 1) ∧ registerOnly (.inc (.gpr 1)) = true) ∧
    (∃ t, exec (.mov .sp (.gpr 1)) here = .next t ∧ t.reg? .sp ≠ here.reg? .sp ∧ movesSp (.mov .sp (.gpr 1)) = false) ∧
    (∃ t, exec .hlt here = .next t) :=
  ⟨⟨_, rfl, by decide, rfl⟩, ⟨_, rfl, by decide, rfl⟩, ⟨_, rfl⟩⟩

theorem witness_FlagsChangeByTable :
    (∃ t, exec (.store (.gpr 1) (.gpr 2)) here = .next t ∧ flagEffect (.store (.gpr 1) (.gpr 2)) = .keepsAll) ∧
    (∃ t, exec (.mul (.gpr 1) (.gpr 2)) here = .next t ∧ flagEffect (.mul (.gpr 1) (.gpr 2)) = .zeroNegative) ∧
    (∃ t, exec (.shl (.gpr 1) 31#8) here = .next t ∧ flagEffect (.shl (.gpr 1) 31#8) = .shift) :=
  ⟨⟨_, rfl, rfl⟩, ⟨_, rfl, rfl⟩, ⟨_, rfl, rfl⟩⟩

/-- A fault of each of the three ways SP is left. -/
theorem witness_FaultLeavesRegistersAndFlags : here.cfg.wf ∧
    (∃ f, exec (.divi (.gpr 1) 0#32) here = .fault f) ∧
    (∃ f, exec (.push (.gpr 1)) (here.setHp 0x21FFC#32) = .fault f) ∧
    (∃ f, exec (.pop (.illegal 32#8)) here = .fault f) :=
  ⟨layoutA_wf, ⟨_, rfl⟩, ⟨_, rfl⟩, ⟨_, rfl⟩⟩

theorem witness_NoInstructionReadsOverflow :
    (∃ t, exec (.jg 0x3000#32) here = .next t) ∧ (∃ f, exec (.mod (.gpr 1) (.gpr 3)) here = .fault f) :=
  ⟨⟨_, rfl⟩, ⟨_, rfl⟩⟩

end Sys2Proof.Tests
end

section
/-! PROOF. Every step keeps the invariant: a postcondition for results, one rule per shared operation, and the step put
together from them. -/

namespace Sys2Proof.Machine

/-! ### Postconditions of results -/

/-- Every answer of `o` satisfies `P`; a fault or a refusal is no answer. -/
def Res.Ensures {α : Type} (P : α → Prop) (o : Res α) : Prop := ∀ a, o = .next a → P a

section
variable {α β : Type} {P : α → Prop} {Q : β → Prop}

theorem Res.Ensures.next {a : α} (h : P a) : Res.Ensures P (.next a) := by
  rintro _ ⟨⟩
  exact h

theorem Res.Ensures.raise (k : State → Fault) (s : State) : Res.Ensures P (Machine.raise k s) := nofun

/-- A chain ensures what its second part ensures from what its first part does. -/
theorem Res.Ensures.bind {o : Res α} {f : α → Res β} (ho : Res.Ensures P o) (hf : ∀ a, P a → Res.Ensures Q (f a)) :
    Res.Ensures Q (Res.bind o f) := by
  intro b hb
  obtain ⟨a, ha, hb⟩ := Res.bind_eq_next.mp hb
  exact hf a (ho a ha) b hb

/-- A chain whose second part ensures `Q` from any value, as after reading an operand. -/
theorem Res.Ensures.after {o : Res α} {f : α → Res β} (hf : ∀ a, Res.Ensures Q (f a)) : Res.Ensures Q (Res.bind o f) :=
  Res.Ensures.bind (P := fun _ => True) (fun _ _ => trivial) fun a _ => hf a

end

/-! ### No update function sets both Z and N (R20 to R22) -/

/-- Z and N are not both set. -/
def Flags.Exclusive (f : Flags) : Prop := ¬(f.z = true ∧ f.n = true)

theorem State.flagsWf_iff {s : State} : s.flagsWf ↔ s.flags.Exclusive := Iff.rfl

/-- Z and N as every update function takes them from its result: zero has no sign bit. -/
theorem Flags.exclusive_of_result {f : Flags} {r : Word} (hz : f.z = (r == 0#32)) (hn : f.n = r.msb) : f.Exclusive := by
  rintro ⟨z, n⟩
  rw [hz, beq_iff_eq] at z
  subst z
  simp [hn] at n

theorem Flags.exclusive_update (f : Flags) (r : Word) : (f.update r).Exclusive := exclusive_of_result rfl rfl

theorem Flags.exclusive_updateAdd (a b r : Word) : (Flags.updateAdd a b r).Exclusive := exclusive_of_result rfl rfl

theorem Flags.exclusive_updateSub (a b r : Word) : (Flags.updateSub a b r).Exclusive := exclusive_of_result rfl rfl

theorem Flags.exclusive_updateShift (f : Flags) (sh : Nat) (o : Bool) (r : Word) : (f.updateShift sh o r).Exclusive := by
  unfold Flags.updateShift
  split
  · exact exclusive_update f r
  · exact exclusive_of_result rfl rfl

/-! ### The invariant in a fixed configuration, and the updates that keep it -/

/-- `s` meets the invariant and has the configuration `c`. -/
structure InvIn (c : Config) (s : State) : Prop where
  inv : s.Inv
  cfg : s.cfg = c

section
variable {c : Config} {s t : State}

theorem InvIn.mapWf (h : InvIn c s) : s.cfg.mapWf := h.inv.config.2.1

/-- Only memory, keyboard, flags and configuration matter to the invariant. -/
theorem InvIn.congr (h : InvIn c s) (hm : t.mem = s.mem) (hk : t.kbd = s.kbd) (hf : t.flags.Exclusive)
    (hc : t.cfg = s.cfg) : InvIn c t := by
  obtain ⟨⟨hw, hmem, hkbd, -⟩, e⟩ := h
  refine ⟨⟨?_, ?_, ?_, hf⟩, hc.trans e⟩
  · rwa [hc]
  · rwa [State.memoryWf, hm, hc]
  · rwa [State.keyboardWf, hk, hc]

theorem InvIn.setPc (h : InvIn c s) (v : Word) : InvIn c (s.setPc v) := h.congr rfl rfl h.inv.flags rfl

theorem InvIn.setSp (h : InvIn c s) (v : Word) : InvIn c (s.setSp v) := h.congr rfl rfl h.inv.flags rfl

theorem InvIn.setHalt (h : InvIn c s) (b : Bool) : InvIn c (s.setHalt b) := h.congr rfl rfl h.inv.flags rfl

theorem InvIn.setFlags (h : InvIn c s) {f : Flags} (hf : f.Exclusive) : InvIn c (s.setFlags f) := h.congr rfl rfl hf rfl

theorem InvIn.setReg (h : InvIn c s) (r : Reg) (v : Word) : InvIn c (s.setReg r v) :=
  h.congr (by simp) (by simp) (by rw [State.setReg_flags]; exact h.inv.flags) (by simp)

/-- A safe store keeps the invariant. -/
theorem InvIn.storeSafe (h : InvIn c s) (hs : StoreSafe s t) : InvIn c t := by
  obtain ⟨⟨hw, hmem, hkbd, hf⟩, e⟩ := h
  have ⟨_, _, _, hcapacity⟩ := hw
  refine ⟨⟨?_, hs.memoryWf hmem, hs.keyboardWf hcapacity hkbd, ?_⟩, hs.cfg.trans e⟩
  · rwa [hs.cfg]
  · rwa [State.flagsWf, hs.flags]

end

/-! ### The shared operations keep the invariant -/

section
variable {c : Config} {s : State} (h : InvIn c s)
include h

theorem memRead_keepsInv (a : Word) : (memRead a s).Ensures fun p => InvIn c p.2 := by
  intro p hp
  rw [(memRead_eq_next.mp hp).2]
  exact h.storeSafe (.agentsAct s)

theorem memWrite_keepsInv (a v : Word) : (memWrite a v s).Ensures (InvIn c) :=
  fun _ ht => h.storeSafe (memWrite_storeSafe h.mapWf ht)

theorem fillFrom_keepsInv (dst val : Word) (i n : Nat) : (fillFrom dst val i n s).Ensures (InvIn c) :=
  fun _ ht => h.storeSafe (fillFrom_storeSafe h.mapWf ht)

theorem copyUp_keepsInv (dst src : Word) (i n : Nat) : (copyUp dst src i n s).Ensures (InvIn c) :=
  fun _ ht => h.storeSafe (copyUp_storeSafe h.mapWf ht)

theorem copyDown_keepsInv (dst src : Word) (n : Nat) : (copyDown dst src n s).Ensures (InvIn c) :=
  fun _ ht => h.storeSafe (copyDown_storeSafe h.mapWf ht)

theorem push_keepsInv (v : Word) : (push v s).Ensures (InvIn c) :=
  fun t ht => memWrite_keepsInv (h.setSp _) _ _ t (push_eq_next.mp ht).2

theorem pop_keepsInv : (pop s).Ensures fun p => InvIn c p.2 :=
  (memRead_keepsInv h _).bind fun _ hp => .next (hp.setSp _)

theorem enter_keepsInv (target : Word) : (enter target s).Ensures (InvIn c) :=
  (push_keepsInv h _).bind fun _ ht => .next (ht.setPc _)

theorem leave_keepsInv : (leave s).Ensures (InvIn c) :=
  (pop_keepsInv h).bind fun _ hp => .next (hp.setPc _)

theorem commit_keepsInv (r : Reg) (v : Word) {f : Flags} (hf : f.Exclusive) : (commit r v f s).Ensures (InvIn c) := by
  intro t ht
  rw [(commit_eq_next.mp ht).2]
  exact (h.setReg r v).setFlags hf

theorem commitUpdate_keepsInv (r : Reg) (v : Word) : (commitUpdate r v s).Ensures (InvIn c) :=
  commit_keepsInv h r v (Flags.exclusive_update _ _)

theorem divInto_keepsInv (r : Reg) (a b : Word) : (divInto r a b s).Ensures (InvIn c) := by
  unfold divInto
  split
  · exact .raise _ s
  · exact commitUpdate_keepsInv h r _

theorem modInto_keepsInv (r : Reg) (a b : Word) : (modInto r a b s).Ensures (InvIn c) := by
  unfold modInto
  split
  · exact .raise _ s
  · exact commitUpdate_keepsInv h r _

theorem flagsOnly_keepsInv {f : Flags} (hf : f.Exclusive) : (flagsOnly f s).Ensures (InvIn c) :=
  .next (h.setFlags hf)

theorem jumpIf_keepsInv (taken : Bool) (target : Word) : (jumpIf taken target s).Ensures (InvIn c) := by
  cases taken
  · exact .next h
  · exact .next (h.setPc target)

theorem execMcpy_keepsInv (rD rS : Reg) : (execMcpy rD rS s).Ensures (InvIn c) := by
  refine .after fun p => ?_
  split
  · exact copyDown_keepsInv h _ _ _
  · exact copyUp_keepsInv h _ _ _ _

theorem execSyscall_keepsInv : (execSyscall s).Ensures (InvIn c) := by
  simp only [execSyscall]
  split
  · refine (memRead_keepsInv h _).bind fun p hp => ?_
    split_ifs
    · exact .raise _ p.2
    · exact .raise _ p.2
    · exact enter_keepsInv hp p.1
  · exact .raise _ s

/-! ### Execution, fetch, step -/

/-- The instructions by what they do last: commit a result, set flags, jump, or go over the bus. -/
theorem exec_keepsInv (i : Instr) : Res.Ensures (InvIn c) (exec i s) := by
  cases i with
  | add | addi => exact .after fun _ => commit_keepsInv h _ _ (Flags.exclusive_updateAdd _ _ _)
  | sub | subi => exact .after fun _ => commit_keepsInv h _ _ (Flags.exclusive_updateSub _ _ _)
  | div | divi => exact .after fun _ => divInto_keepsInv h _ _ _
  | mod | modi => exact .after fun _ => modInto_keepsInv h _ _ _
  | mul | muli | and | or | xor | andi | ori | xori | inc | dec | neg | not | mov =>
    exact .after fun _ => commitUpdate_keepsInv h _ _
  | clr | loadi | movi => exact commitUpdate_keepsInv h _ _
  | shl | shr => exact .after fun _ => commit_keepsInv h _ _ (Flags.exclusive_updateShift _ _ _ _)
  | cmp | cmpi => exact .after fun _ => flagsOnly_keepsInv h (Flags.exclusive_updateSub _ _ _)
  | test | testi => exact .after fun _ => flagsOnly_keepsInv h (Flags.exclusive_update _ _)
  | jmp | jz | je | jnz | jne | jn | jp | jg | jge | jl | jle | jc | jnc | ja | jae | jb | jbe =>
    exact jumpIf_keepsInv h _ _
  | load => exact .after fun _ => (memRead_keepsInv h _).bind fun _ hp => commitUpdate_keepsInv hp _ _
  | store | stori => exact .after fun _ => memWrite_keepsInv h _ _
  | mset => exact .after fun _ => fillFrom_keepsInv h _ _ _ _
  | mcpy => exact execMcpy_keepsInv h _ _
  | call => exact enter_keepsInv h _
  | ret => exact leave_keepsInv h
  | push => exact .after fun _ => push_keepsInv h _
  | pop => exact (pop_keepsInv h).bind fun _ hp => commitUpdate_keepsInv hp _ _
  | syscall => exact execSyscall_keepsInv h
  | nop => exact .next h
  | hlt => exact .next (h.setHalt true)

theorem fetchWord_keepsInv : (fetchWord s).Ensures fun p => InvIn c p.2 :=
  (memRead_keepsInv h _).bind fun _ hp => .next (hp.setPc _)

theorem fetch_keepsInv : (fetch s).Ensures fun p => InvIn c p.2 := by
  refine (fetchWord_keepsInv h).bind fun p hp => ?_
  split
  · exact .raise _ p.2
  · exact .next hp
  · exact (fetchWord_keepsInv hp).bind fun _ hq => .next hq

theorem step_keepsInv : Res.Ensures (InvIn c) (step s) := by
  unfold step
  split
  · exact .raise _ s
  · exact (fetch_keepsInv h).bind fun _ hp => exec_keepsInv hp _

end

/-- Settles O54: the step lemma over the fetch and every instruction, in the configuration the state has. -/
theorem stepKeepsInvariant : Obligations.StepKeepsInvariant := by
  intro s t hs ht
  obtain ⟨hinv, hcfg⟩ := step_keepsInv ⟨hs, rfl⟩ t ht
  exact ⟨hinv, hcfg⟩

end Sys2Proof.Machine
end

section
/-! PROOF. Registers by their index (R13, R14), and the flags of sums and differences (R20 to R22). -/

namespace Sys2Proof

/-! ### What each index names under R13's aliases -/

theorem Reg.ofIndex_of_lt (al : Aliases) {i : Byte} (h : i.toNat < 32) : Reg.ofIndex al i = .gpr ⟨i.toNat, h⟩ :=
  dif_pos h

/-- The index of a general register names it, whatever the aliases are. -/
theorem Reg.ofIndex_ofNat (al : Aliases) (n : Fin 32) : Reg.ofIndex al (BitVec.ofNat 8 n.val) = .gpr n := by
  have hn : (BitVec.ofNat 8 n.val).toNat = n.val := by
    rw [BitVec.toNat_ofNat]
    omega
  rw [Reg.ofIndex_of_lt al (by omega)]
  simp only [hn]

/-- Past the general registers the standard aliases name three indices and no other (R13). -/
theorem Reg.ofIndex_standard_illegal {i : Byte} (h : (32 ≤ i.toNat ∧ i.toNat ≤ 251) ∨ i.toNat = 255) :
    Reg.ofIndex .standard i = .illegal i := by
  have hne : ∀ j : Byte, 252 ≤ j.toNat → j.toNat ≤ 254 → i ≠ j := by
    rintro j h1 h2 rfl
    omega
  have h32 : ¬i.toNat < 32 := by omega
  simp [Reg.ofIndex, Aliases.standard, h32, hne]

end Sys2Proof

namespace Sys2Proof.Machine

/-- The indices that name a register under the standard aliases do so in every state (R13). -/
theorem State.exists_reg?_ofIndex_standard {i : Byte} (h : i.toNat < 32 ∨ (252 ≤ i.toNat ∧ i.toNat ≤ 254)) (s : State) :
    ∃ w, s.reg? (Reg.ofIndex .standard i) = some w := by
  rcases h with h | ⟨h1, h2⟩
  · rw [Reg.ofIndex_of_lt _ h]
    exact ⟨_, rfl⟩
  · obtain h | h | h : i = 252#8 ∨ i = 253#8 ∨ i = 254#8 := by bv_omega
    all_goals
      subst h
      exact ⟨_, rfl⟩

/-! ### Reads and writes by index -/

/-- Fetching a word advances PC by 4 and keeps the configuration (R16). -/
theorem fetchWord_pc_cfg {s t : State} {w : Word} (h : fetchWord s = .next (w, t)) :
    t.pc = s.pc + 4#32 ∧ t.cfg = s.cfg := by
  obtain ⟨p, hp, h⟩ := Res.bind_eq_next.mp h
  cases h
  rw [(memRead_eq_next.mp hp).2]
  exact ⟨rfl, rfl⟩

theorem registerRead_of_standard {s : State} (h : s.cfg.aliases = .standard) (i : Byte) :
    registerRead i s = readReg (Reg.ofIndex .standard i) s := by
  rw [registerRead, h]

/-- Settles O9: each index through what it names. -/
theorem registerIndexReads : Obligations.RegisterIndexReads := by
  intro s hal
  simp only [registerRead_of_standard hal]
  refine ⟨fun n => ?_, rfl, rfl, rfl, fun i hi => ?_, fun w t h => ?_⟩
  · rw [Reg.ofIndex_ofNat]
    exact readReg_of_some rfl
  · rw [Reg.ofIndex_standard_illegal hi]
    exact readReg_of_none rfl
  · obtain ⟨hpc, hcfg⟩ := fetchWord_pc_cfg h
    rw [registerRead_of_standard (by rw [hcfg]; exact hal), ← hpc]
    rfl

/-- A register write writes that register alone, unchecked (R14). -/
theorem writeReg_writes {s : State} {r : Reg} {w : Word} (h : s.reg? r = some w) (v : Word) :
    ∃ t, writeReg r v s = .next t ∧ WroteOnly s t r v ∧ t.flags = s.flags ∧ SameBeyondRegisters s t := by
  refine ⟨_, writeReg_of_some h v, ⟨State.reg?_setReg_same h v, fun _ => State.reg?_setReg_other s v⟩, ?_, ?_⟩
  · exact State.setReg_flags s r v
  · constructor <;> simp

/-- Settles O10: a legal index is a register write, and every other index names no register. -/
theorem registerIndexWrites : Obligations.RegisterIndexWrites := by
  intro s i v hal
  rw [registerWrite, hal]
  split_ifs with h
  · obtain ⟨w, hw⟩ := State.exists_reg?_ofIndex_standard h s
    obtain ⟨t, ht, hwrote, hflags, hbeyond⟩ := writeReg_writes hw v
    refine ⟨t, ht, hwrote, hflags, hbeyond, ?_, ?_, ?_⟩
    all_goals
      rintro rfl
      exact Option.some.inj hwrote.1
  · rw [Reg.ofIndex_standard_illegal (by omega)]
    exact writeReg_of_none rfl v

/-! ### Flags (R20 to R22) -/

/-- Settles O11: Z and N through the equations of `update`. -/
theorem updateSetsZeroAndNegative : Obligations.UpdateSetsZeroAndNegative := by
  intro f r
  have hz : (f.update r).z = (r == 0#32) := rfl
  have hn : (f.update r).n = r.msb := rfl
  refine ⟨?_, ?_, ?_, rfl, rfl⟩
  · rw [hz, beq_iff_eq]
  · rw [hn, BitVec.msb_eq_toInt, decide_eq_true_iff]
  · rw [hn, BitVec.msb_eq_getLsbD_last]

/-- A word masked to its sign bit is not 0 exactly when that bit is set: how R21 and R22 write the overflow. -/
theorem and_signBit_ne_zero (x : Word) : x &&& 0x80000000#32 ≠ 0#32 ↔ x.msb = true := by
  have h : (0x80000000#32 : Word) = BitVec.twoPow 32 31 := rfl
  rw [h, BitVec.and_twoPow, BitVec.msb_eq_getLsbD_last]
  cases x.getLsbD 31 <;> decide

/-- V after an addition, by the sign bits (R21). -/
theorem updateAdd_v_iff (a b r : Word) : (Flags.updateAdd a b r).v = true ↔ a.msb = b.msb ∧ r.msb ≠ a.msb := by
  rw [Flags.updateAdd, bne_iff_ne, and_signBit_ne_zero, BitVec.msb_and, BitVec.msb_xor, BitVec.msb_xor]
  cases a.msb <;> cases b.msb <;> cases r.msb <;> decide

/-- V after a subtraction, by the sign bits (R22). -/
theorem updateSub_v_iff (a b r : Word) : (Flags.updateSub a b r).v = true ↔ a.msb ≠ b.msb ∧ r.msb ≠ a.msb := by
  rw [Flags.updateSub, bne_iff_ne, and_signBit_ne_zero, BitVec.msb_and, BitVec.msb_xor, BitVec.msb_xor]
  cases a.msb <;> cases b.msb <;> cases r.msb <;> decide

/-- The signed sum leaves the range of a word exactly when the sign bits say so (R21). -/
theorem add_overflow_iff (a b : Word) :
    (a.msb = b.msb ∧ (a + b).msb ≠ a.msb) ↔ a.toInt + b.toInt < -2 ^ 31 ∨ 2 ^ 31 ≤ a.toInt + b.toInt := by
  have h := BitVec.saddOverflow_eq a b
  rw [BitVec.saddOverflow, Bool.eq_iff_iff] at h
  simp only [Bool.or_eq_true, decide_eq_true_iff, Bool.and_eq_true, beq_iff_eq, Bool.not_eq_true',
    beq_eq_false_iff_ne] at h
  rw [or_comm]
  exact h.symm

/-- The signed difference leaves the range of a word exactly when the sign bits say so (R22). -/
theorem sub_overflow_iff (a b : Word) :
    (a.msb ≠ b.msb ∧ (a - b).msb ≠ a.msb) ↔ a.toInt - b.toInt < -2 ^ 31 ∨ 2 ^ 31 ≤ a.toInt - b.toInt := by
  have h := BitVec.ssubOverflow_eq a b
  have hsign : (!a.msb && b.msb && (a - b).msb || a.msb && !b.msb && !(a - b).msb) = true ↔
      a.msb ≠ b.msb ∧ (a - b).msb ≠ a.msb := by
    cases a.msb <;> cases b.msb <;> cases (a - b).msb <;> decide
  rw [← hsign, ← h, BitVec.ssubOverflow, Bool.or_eq_true, decide_eq_true_iff, decide_eq_true_iff, or_comm]

/-- Settles O12: V by the sign bits, and those by the range of the signed sum. -/
theorem additionFlags : Obligations.AdditionFlags := by
  intro a b
  refine ⟨beq_iff_eq, BitVec.msb_eq_getLsbD_last (a + b), decide_eq_true_iff, bne_iff_ne, updateAdd_v_iff a b _, ?_⟩
  exact (updateAdd_v_iff a b _).trans (add_overflow_iff a b)

/-- Settles O13: V by the sign bits, and those by the range of the signed difference. -/
theorem subtractionFlags : Obligations.SubtractionFlags := by
  intro a b
  refine ⟨beq_iff_eq, BitVec.msb_eq_getLsbD_last (a - b), decide_eq_true_iff, bne_iff_ne, updateSub_v_iff a b _, ?_⟩
  exact (updateSub_v_iff a b _).trans (sub_overflow_iff a b)

end Sys2Proof.Machine
end

section
/-! PROOF. The step from the bytes at PC, and the faults of register indices that name no register. -/

namespace Sys2Proof

/-! ### What bytes that decode hold (R52, R57) -/

/-- The first word of eight bytes of memory, and the four bytes after it. -/
theorem takeWord_memory (m : Machine.Memory) (a : Nat) :
    takeWord ((List.range 8).map fun k => m.read (a + k)) =
      some (m.readWord a, (List.range 4).map fun k => m.read (a + 4 + k)) := rfl

theorem takeWord_memory_four (m : Machine.Memory) (a : Nat) :
    takeWord ((List.range 4).map fun k => m.read (a + k)) = some (m.readWord a, []) := rfl

/-- Eight bytes of memory that decode are a one-word instruction with four bytes after it, or a two-word one (R52). -/
theorem decodeWith_memory {c : Config} {m : Machine.Memory} {a : Nat} {i : Instr} {rest : List Byte}
    (h : decodeWith c ((List.range 8).map fun k => m.read (a + k)) = .ok (i, rest)) :
    (decodeHead c (m.readWord a) = .oneWord i ∧ rest.length = 4) ∨
      ∃ k, decodeHead c (m.readWord a) = .twoWords k ∧ i = k (m.readWord (a + 4)) ∧ rest.length = 0 := by
  rw [decodeWith, takeWord_memory] at h
  cases hd : decodeHead c (m.readWord a) with
  | unknown op => simp [hd] at h
  | oneWord j =>
    simp only [hd, Except.ok.injEq, Prod.mk.injEq] at h
    obtain ⟨rfl, rfl⟩ := h
    exact .inl ⟨rfl, rfl⟩
  | twoWords k =>
    simp only [hd, takeWord_memory_four, Except.ok.injEq, Prod.mk.injEq] at h
    obtain ⟨rfl, rfl⟩ := h
    exact .inr ⟨k, rfl, rfl, rfl⟩

end Sys2Proof

namespace Sys2Proof.Machine

/-! ### The step, word by word (R70) -/

/-- Fetching a word from ROM, RAM or VRAM (R36, R70). -/
theorem fetchWord_bank {s : State} (hc : s.cfg.mapWf) (ha : s.pc.toNat % 4 = 0) (h : s.pc.toNat < s.cfg.ioBase) :
    fetchWord s = .next (s.mem.readWord s.pc.toNat, s.agentsAct.setPc (s.pc + 4#32)) := by
  rw [fetchWord, memRead_bank hc ha h]
  rfl

/-- The step of a one-word instruction (R70). -/
theorem step_of_oneWord {s t : State} {w : Word} {i : Instr} (hh : s.halt = false) (hf : fetchWord s = .next (w, t))
    (hd : decodeHead t.cfg w = .oneWord i) : step s = exec i t := by
  simp [step, hh, fetch, hf, hd]

/-- The step of a two-word instruction (R70). -/
theorem step_of_twoWords {s t u : State} {w w' : Word} {k : Word → Instr} (hh : s.halt = false)
    (hf : fetchWord s = .next (w, t)) (hd : decodeHead t.cfg w = .twoWords k) (hf' : fetchWord t = .next (w', u)) :
    step s = exec (k w') u := by
  simp [step, hh, fetch, hf, hd, hf']

/-- Settles O7: the decoder tells how many words to fetch, and each is a read of memory at PC. -/
theorem stepRunsBytesAtPc : Obligations.StepRunsBytesAtPc := by
  intro s i rest hwf hh ha hdec
  have hmap : s.cfg.mapWf := hwf.2.1
  have hend := ioEnd_lt hmap
  have hregions := region_ends s.cfg
  obtain ⟨hd, hlen⟩ | ⟨k, hd, rfl, hlen⟩ := decodeWith_memory hdec
  · refine ⟨fun _ hio => ?_, fun h0 => by omega⟩
    exact step_of_oneWord hh (fetchWord_bank hmap ha hio) hd
  · refine ⟨fun h4 => by omega, fun _ hio => ?_⟩
    have hpc : (s.pc + 4#32).toNat = s.pc.toNat + 4 :=
      BitVec.toNat_add_of_lt (show s.pc.toNat + 4 < 2 ^ 32 by omega)
    have hsecond : fetchWord (s.agentsAct.setPc (s.pc + 4#32)) =
        .next (s.mem.readWord (s.pc.toNat + 4), s.agentsAct.agentsAct.setPc (s.pc + 8#32)) := by
      rw [fetchWord_bank (s := s.agentsAct.setPc _) hmap (by rw [State.setPc_pc]; omega)
        (by rw [State.setPc_pc, hpc]; exact hio), State.setPc_pc, hpc, BitVec.add_assoc]
      rfl
    exact step_of_twoWords hh (fetchWord_bank hmap ha (by omega)) hd hsecond

/-! ### Register indices that name no register (R50, R73, R103) -/

section
variable {s : State} {rD rS : Reg}

theorem readRR_bind_illegal_left (h : s.reg? rD = none) (f : Word × Word → Res State) :
    (readRR rD rS s).bind f = .fault (.invalidRegister (rD.index s.cfg.aliases) s) := by
  rw [readRR_eq_fault.mpr (.inl ⟨h, rfl⟩), Res.bind_fault]

theorem readRR_bind_illegal_right (h : ∃ a, s.reg? rD = some a) (h' : s.reg? rS = none) (f : Word × Word → Res State) :
    (readRR rD rS s).bind f = .fault (.invalidRegister (rS.index s.cfg.aliases) s) := by
  rw [readRR_eq_fault.mpr (.inr ⟨h, h', rfl⟩), Res.bind_fault]

theorem readRI_bind_illegal (h : s.reg? rD = none) (imm : Word) (f : Word × Word → Res State) :
    (readRI rD imm s).bind f = .fault (.invalidRegister (rD.index s.cfg.aliases) s) := by
  rw [readRI_eq_fault.mpr ⟨h, rfl⟩, Res.bind_fault]

theorem readReg_bind_illegal (h : s.reg? rD = none) (f : Word → Res State) :
    (readReg rD s).bind f = .fault (.invalidRegister (rD.index s.cfg.aliases) s) := by
  rw [readReg_of_none h, Res.bind_fault]

end

/-- The two-register instructions that read `rD` and then `rS` before they do anything else (R73). -/
theorem exec_reads_both {op : Reg → Reg → Instr}
    (h : op ∈ [Instr.add, Instr.sub, Instr.mul, Instr.div, Instr.mod, Instr.and, Instr.or, Instr.xor, Instr.store,
      Instr.mset, Instr.mcpy, Instr.cmp, Instr.test]) (rD rS : Reg) (s : State) :
    ∃ f, exec (op rD rS) s = (readRR rD rS s).bind f := by
  simp only [List.mem_cons, List.not_mem_nil, or_false] at h
  rcases h with rfl | rfl | rfl | rfl | rfl | rfl | rfl | rfl | rfl | rfl | rfl | rfl | rfl <;> exact ⟨_, rfl⟩

/-- Settles O22: where each form first meets its illegal index, in a read or in the commit. -/
theorem illegalIndexRaises : Obligations.IllegalIndexRaises := by
  intro s rD rS d r
  refine ⟨fun op hop => ?_, fun hS => ?_, fun hD => ⟨fun hS => ?_, fun addr hwf hS haddr => ?_, ?_, ?_, ?_⟩⟩
  · obtain ⟨f, hf⟩ := exec_reads_both hop rD rS s
    rw [hf]
    exact ⟨fun hD => readRR_bind_illegal_left hD f, fun hD hS => readRR_bind_illegal_right hD hS f⟩
  · exact ⟨readReg_bind_illegal hS _, readReg_bind_illegal hS _⟩
  · obtain ⟨b, hb⟩ := hS
    have hmov : exec (.mov rD rS) s = commitUpdate rD b s := by
      rw [exec, execMov, readReg_of_some hb, Res.bind_next]
    rw [hmov]
    exact commit_of_none hD _ _
  · have hload : exec (.load rD rS) s = commitUpdate rD (s.agentsAct.wordAt addr) s.agentsAct := by
      rw [exec, execLoad, readReg_of_some hS, Res.bind_next, memRead_readable hwf.2.1 haddr, Res.bind_next]
    rw [hload]
    exact commit_of_none (State.reg?_none_of_none _ hD) _ _
  · have hread := fun imm => readRI_bind_illegal hD imm
    have hcommit := fun imm => commit_of_none hD imm (s.flags.update imm)
    simp only [List.forall_mem_cons, List.not_mem_nil, false_implies, implies_true, and_true]
    exact ⟨fun _ => hread _ _, fun _ => hread _ _, fun _ => hread _ _, fun _ => hread _ _, fun _ => hread _ _,
      fun _ => hread _ _, fun _ => hread _ _, fun _ => hread _ _, hcommit, fun _ => readReg_bind_illegal hD _, hcommit,
      fun _ => hread _ _, fun _ => hread _ _⟩
  · have hread := readReg_bind_illegal hD
    simp only [List.forall_mem_cons, List.not_mem_nil, false_implies, implies_true, and_true]
    exact ⟨fun _ => hread _, fun _ => hread _⟩
  · have hread := readReg_bind_illegal hD
    simp only [List.forall_mem_cons, List.not_mem_nil, false_implies, implies_true, and_true]
    exact ⟨hread _, hread _, hread _, hread _, commit_of_none hD _ _, hread _⟩

end Sys2Proof.Machine
end

section
/-! PROOF. What an instruction may change: a relation that the shared operations build up, and each
instruction by them. -/

namespace Sys2Proof.Machine

/-! ### The table of R23 as a relation on flags -/

/-- The flags `g` may follow the flags `f` under an effect of R23's table. -/
def FlagEffect.Allows : FlagEffect → Flags → Flags → Prop
  | .keepsAll, f, g => g = f
  | .zeroNegative, f, g => g.c = f.c ∧ g.v = f.v
  | .shift, f, g => g.v = f.v
  | .all, _, _ => True

theorem FlagEffect.Allows.refl (e : FlagEffect) (f : Flags) : e.Allows f f := by
  cases e
  case keepsAll | shift => exact rfl
  case zeroNegative => exact ⟨rfl, rfl⟩
  case all => trivial

theorem FlagEffect.Allows.trans {e : FlagEffect} {f g h : Flags} (h1 : e.Allows f g) (h2 : e.Allows g h) :
    e.Allows f h := by
  cases e
  case keepsAll | shift => exact Eq.trans h2 h1
  case zeroNegative => exact ⟨h2.1.trans h1.1, h2.2.trans h1.2⟩
  case all => trivial

/-- A shift leaves V (R23). -/
theorem Flags.updateShift_v (f : Flags) (sh : Nat) (lastOut : Bool) (r : Word) :
    (f.updateShift sh lastOut r).v = f.v := by
  unfold Flags.updateShift
  split <;> rfl

/-! ### What an instruction may change -/

/-- Memory, devices and the outside agents' schedule are the same. -/
structure SameOutside (s t : State) : Prop where
  mem : t.mem = s.mem
  kbd : t.kbd = s.kbd
  con : t.con = s.con
  tmr : t.tmr = s.tmr
  schedule : t.schedule = s.schedule

/-- From `s` to `t` nothing has changed but what the instruction `i` may change: PC, its destination, SP if it moves it,
the flags its row of R23's table names, `halt` by HLT, and what lies on the bus if it accesses the bus. -/
structure MayChange (i : Instr) (s t : State) : Prop where
  registers : ∀ r, r ≠ .pc → (r = .sp → movesSp i = false) → i.regs.head? ≠ some r → t.reg? r = s.reg? r
  flags : (flagEffect i).Allows s.flags t.flags
  halt : i ≠ .hlt → t.halt = s.halt
  cfg : t.cfg = s.cfg
  outside : registerOnly i = true → SameOutside s t

namespace MayChange
variable {i : Instr} {s t u : State}

theorem refl (i : Instr) (s : State) : MayChange i s s :=
  ⟨fun _ _ _ _ => rfl, .refl _ _, fun _ => rfl, rfl, fun _ => ⟨rfl, rfl, rfl, rfl, rfl⟩⟩

/-- A change of registers alone, of those that `i` may change. -/
theorem ofRegisters (h : MayChange i s u) (hb : SameBeyondRegisters u t) (hf : t.flags = u.flags)
    (hr : ∀ r, r ≠ .pc → (r = .sp → movesSp i = false) → i.regs.head? ≠ some r → t.reg? r = u.reg? r) :
    MayChange i s t where
  registers r h1 h2 h3 := (hr r h1 h2 h3).trans (h.registers r h1 h2 h3)
  flags := hf ▸ h.flags
  halt hi := hb.halt.trans (h.halt hi)
  cfg := hb.cfg.trans h.cfg
  outside hi :=
    have o := h.outside hi
    ⟨hb.mem.trans o.mem, hb.kbd.trans o.kbd, hb.con.trans o.con, hb.tmr.trans o.tmr, hb.schedule.trans o.schedule⟩

theorem setPc (h : MayChange i s u) (v : Word) : MayChange i s (u.setPc v) :=
  h.ofRegisters ⟨rfl, rfl, rfl, rfl, rfl, rfl, rfl⟩ rfl fun _ hr _ _ => State.reg?_setReg_other u (r := .pc) v hr

theorem setSp (h : MayChange i s u) (hi : movesSp i = true) (v : Word) : MayChange i s (u.setSp v) := by
  refine h.ofRegisters ⟨rfl, rfl, rfl, rfl, rfl, rfl, rfl⟩ rfl fun _ _ hr _ => State.reg?_setReg_other u (r := .sp) v ?_
  rintro rfl
  simp [hi] at hr

theorem setReg (h : MayChange i s u) {d : Reg} (hd : i.regs.head? = some d) (v : Word) :
    MayChange i s (u.setReg d v) := by
  refine h.ofRegisters (by constructor <;> simp) (by simp) fun _ _ _ hr => State.reg?_setReg_other u v ?_
  rintro rfl
  exact hr hd

theorem setFlags (h : MayChange i s u) {f : Flags} (hf : (flagEffect i).Allows u.flags f) :
    MayChange i s (u.setFlags f) where
  registers r h1 h2 h3 := (State.reg?_setFlags u f r).trans (h.registers r h1 h2 h3)
  flags := h.flags.trans hf
  halt := h.halt
  cfg := h.cfg
  outside hi :=
    have ⟨hm, hk, hc, ht, hs⟩ := h.outside hi
    ⟨hm, hk, hc, ht, hs⟩

/-- A bus access changes nothing of the CPU. -/
theorem sameCpu (h : MayChange i s u) (hi : registerOnly i = false) (hu : SameCpu u t) : MayChange i s t where
  registers r h1 h2 h3 := (hu.reg? r).trans (h.registers r h1 h2 h3)
  flags := hu.flags ▸ h.flags
  halt hne := hu.halt.trans (h.halt hne)
  cfg := hu.cfg.trans h.cfg
  outside ho := absurd ho (by simp [hi])

theorem setHalt (b : Bool) (s : State) : MayChange .hlt s (s.setHalt b) where
  registers r _ _ _ := State.reg?_setHalt s b r
  flags := rfl
  halt h := absurd rfl h
  cfg := rfl
  outside _ := ⟨rfl, rfl, rfl, rfl, rfl⟩

end MayChange

/-! ### The shared operations change no more than the instruction that uses them may -/

section
variable {i : Instr} {s u : State} (h : MayChange i s u)
include h

theorem commit_mayChange {d : Reg} (hd : i.regs.head? = some d) (v : Word) {f : Flags}
    (hf : (flagEffect i).Allows u.flags f) : (commit d v f u).Ensures (MayChange i s) := by
  intro t ht
  rw [(commit_eq_next.mp ht).2]
  exact (h.setReg hd v).setFlags (by rwa [State.setReg_flags])

theorem commitUpdate_mayChange {d : Reg} (hd : i.regs.head? = some d) (he : flagEffect i = .zeroNegative) (v : Word) :
    (commitUpdate d v u).Ensures (MayChange i s) :=
  commit_mayChange h hd v (by rw [he]; exact ⟨rfl, rfl⟩)

theorem divInto_mayChange {d : Reg} (hd : i.regs.head? = some d) (he : flagEffect i = .zeroNegative) (a b : Word) :
    (divInto d a b u).Ensures (MayChange i s) := by
  unfold divInto
  split
  · exact .raise _ u
  · exact commitUpdate_mayChange h hd he _

theorem modInto_mayChange {d : Reg} (hd : i.regs.head? = some d) (he : flagEffect i = .zeroNegative) (a b : Word) :
    (modInto d a b u).Ensures (MayChange i s) := by
  unfold modInto
  split
  · exact .raise _ u
  · exact commitUpdate_mayChange h hd he _

theorem flagsOnly_mayChange {f : Flags} (hf : (flagEffect i).Allows u.flags f) :
    (flagsOnly f u).Ensures (MayChange i s) :=
  .next (h.setFlags hf)

theorem jumpIf_mayChange (taken : Bool) (target : Word) : (jumpIf taken target u).Ensures (MayChange i s) := by
  cases taken
  · exact .next h
  · exact .next (h.setPc target)

theorem memRead_mayChange (hb : registerOnly i = false) (a : Word) :
    (memRead a u).Ensures fun p => MayChange i s p.2 := by
  intro p hp
  rw [(memRead_eq_next.mp hp).2]
  exact h.sameCpu hb (.agentsAct u)

theorem memWrite_mayChange (hb : registerOnly i = false) (a v : Word) : (memWrite a v u).Ensures (MayChange i s) :=
  fun _ ht => h.sameCpu hb (memWrite_sameCpu ht)

theorem fillFrom_mayChange (hb : registerOnly i = false) (dst val : Word) (k n : Nat) :
    (fillFrom dst val k n u).Ensures (MayChange i s) :=
  fun _ ht => h.sameCpu hb (fillFrom_sameCpu.1 ht)

theorem push_mayChange (hb : registerOnly i = false) (hm : movesSp i = true) (v : Word) :
    (push v u).Ensures (MayChange i s) :=
  fun t ht => memWrite_mayChange (h.setSp hm _) hb _ _ t (push_eq_next.mp ht).2

theorem pop_mayChange (hb : registerOnly i = false) (hm : movesSp i = true) :
    (pop u).Ensures fun p => MayChange i s p.2 :=
  (memRead_mayChange h hb _).bind fun _ hp => .next (hp.setSp hm _)

theorem enter_mayChange (hb : registerOnly i = false) (hm : movesSp i = true) (target : Word) :
    (enter target u).Ensures (MayChange i s) :=
  (push_mayChange h hb hm _).bind fun _ ht => .next (ht.setPc _)

theorem leave_mayChange (hb : registerOnly i = false) (hm : movesSp i = true) : (leave u).Ensures (MayChange i s) :=
  (pop_mayChange h hb hm).bind fun _ hp => .next (hp.setPc _)

end

theorem execMcpy_mayChange (rD rS : Reg) (s : State) : (execMcpy rD rS s).Ensures (MayChange (.mcpy rD rS) s) := by
  refine .after fun p => ?_
  split
  · exact fun _ ht => (MayChange.refl _ s).sameCpu rfl (copyDown_sameCpu.1 ht)
  · exact fun _ ht => (MayChange.refl _ s).sameCpu rfl (copyUp_sameCpu.1 ht)

theorem execSyscall_mayChange (s : State) : (execSyscall s).Ensures (MayChange .syscall s) := by
  simp only [execSyscall]
  split
  · refine (memRead_mayChange (.refl .syscall s) rfl _).bind fun p hp => ?_
    split_ifs
    · exact .raise _ p.2
    · exact .raise _ p.2
    · exact enter_mayChange hp rfl rfl p.1
  · exact .raise _ s

/-! ### Every instruction -/

/-- The instructions by what they do last: commit a result, set flags, jump, or go over the bus. -/
theorem exec_mayChange (i : Instr) (s : State) : Res.Ensures (MayChange i s) (exec i s) := by
  have h := MayChange.refl i s
  cases i with
  | add | addi | sub | subi => exact .after fun _ => commit_mayChange h rfl _ trivial
  | div | divi => exact .after fun _ => divInto_mayChange h rfl rfl _ _
  | mod | modi => exact .after fun _ => modInto_mayChange h rfl rfl _ _
  | mul | muli | and | or | xor | andi | ori | xori | inc | dec | neg | not | mov =>
    exact .after fun _ => commitUpdate_mayChange h rfl rfl _
  | clr | loadi | movi => exact commitUpdate_mayChange h rfl rfl _
  | shl | shr => exact .after fun _ => commit_mayChange h rfl _ (Flags.updateShift_v _ _ _ _)
  | cmp | cmpi => exact .after fun _ => flagsOnly_mayChange h trivial
  | test | testi => exact .after fun _ => flagsOnly_mayChange h ⟨rfl, rfl⟩
  | jmp | jz | je | jnz | jne | jn | jp | jg | jge | jl | jle | jc | jnc | ja | jae | jb | jbe =>
    exact jumpIf_mayChange h _ _
  | load => exact .after fun _ => (memRead_mayChange h rfl _).bind fun _ hp => commitUpdate_mayChange hp rfl rfl _
  | store | stori => exact .after fun _ => memWrite_mayChange h rfl _ _
  | mset => exact .after fun _ => fillFrom_mayChange h rfl _ _ _ _
  | mcpy => exact execMcpy_mayChange _ _ s
  | call => exact enter_mayChange h rfl rfl _
  | ret => exact leave_mayChange h rfl rfl
  | push => exact .after fun _ => push_mayChange h rfl rfl _
  | pop => exact (pop_mayChange h rfl rfl).bind fun _ hp => commitUpdate_mayChange hp rfl rfl _
  | syscall => exact execSyscall_mayChange s
  | nop => exact .next h
  | hlt => exact .next (.setHalt true s)

/-- Settles O57: what every instruction may change, and that HLT halts. -/
theorem onlyTheDestinationChanges : Obligations.OnlyTheDestinationChanges := by
  intro i s t ht
  obtain ⟨hregisters, -, hhalt, hcfg, houtside⟩ := exec_mayChange i s t ht
  refine ⟨fun r hpc hsp hne => ?_, ?_, hhalt, hcfg, fun hi => ?_⟩
  · by_contra hd
    exact hne (hregisters r hpc hsp hd)
  · rintro rfl
    cases ht
    rfl
  · obtain ⟨hm, hk, hc, ht, hs⟩ := houtside hi
    exact ⟨hm, hk, hc, ht, hs⟩

/-- Settles O58: R23's table is what every instruction may change of the flags. -/
theorem flagsChangeByTable : Obligations.FlagsChangeByTable := by
  intro i s t ht
  have hflags := (exec_mayChange i s t ht).flags
  refine ⟨fun he => ?_, fun he => ?_, fun he => ?_⟩
  all_goals
    rw [he] at hflags
    exact hflags

end Sys2Proof.Machine
end

section
/-! PROOF. No instruction reads V (R19): what differs in V alone ends alike, operation by operation. -/

namespace Sys2Proof.Machine

/-! ### States and results that differ in V alone -/

/-- The flags with another V. -/
def Flags.withV (f : Flags) (w : Bool) : Flags := { f with v := w }

/-- The state with another V. -/
def State.withV (s : State) (w : Bool) : State := s.setFlags (s.flags.withV w)

/-- The same state but for V. -/
def SameButV (s t : State) : Prop := ∃ w, t = s.withV w

/-- The same flags but for V. -/
def Flags.SameButV (f g : Flags) : Prop := ∃ w, g = f.withV w

/-- Two results end alike: with values that `R` relates, or with the same fault and information on states that differ
in V alone. -/
inductive Res.Alike {α : Type} (R : α → α → Prop) : Res α → Res α → Prop
  | next {a b : α} (h : R a b) : Res.Alike R (.next a) (.next b)
  | fault (k : Fault) (w : Bool) : Res.Alike R (.fault k) (.fault (k.mapLeft (·.withV w)))
  | refused (x : Refusal) : Res.Alike R (.refused x) (.refused x)

@[simp] theorem State.withV_regs (s : State) (w : Bool) : (s.withV w).regs = s.regs := rfl
@[simp] theorem State.withV_sp (s : State) (w : Bool) : (s.withV w).sp = s.sp := rfl
@[simp] theorem State.withV_hp (s : State) (w : Bool) : (s.withV w).hp = s.hp := rfl
@[simp] theorem State.withV_cfg (s : State) (w : Bool) : (s.withV w).cfg = s.cfg := rfl

theorem Flags.SameButV.refl (f : Flags) : Flags.SameButV f f := ⟨f.v, rfl⟩

theorem Flags.SameButV.update {f g : Flags} (h : f.SameButV g) (r : Word) : (f.update r).SameButV (g.update r) := by
  obtain ⟨w, rfl⟩ := h
  exact ⟨w, rfl⟩

theorem Flags.SameButV.updateShift {f g : Flags} (h : f.SameButV g) (sh : Nat) (lastOut : Bool) (r : Word) :
    (f.updateShift sh lastOut r).SameButV (g.updateShift sh lastOut r) := by
  obtain ⟨w, rfl⟩ := h
  unfold Flags.updateShift
  split <;> exact ⟨w, rfl⟩

theorem SameButV.flags {s t : State} (h : SameButV s t) : s.flags.SameButV t.flags := by
  obtain ⟨w, rfl⟩ := h
  exact ⟨w, rfl⟩

section
variable {α β : Type} {R : α → α → Prop} {Q : β → β → Prop}

/-- What ends like an answer is an answer. -/
theorem Res.Alike.of_next {a : α} {o : Res α} (h : Res.Alike R (.next a) o) : ∃ b, o = .next b ∧ R a b := by
  cases h with
  | next h => exact ⟨_, rfl, h⟩

/-- What ends like a fault is the same fault, with the same information. -/
theorem Res.Alike.of_fault {k : Fault} {o : Res α} (h : Res.Alike R (.fault k) o) :
    ∃ w, o = .fault (k.mapLeft (·.withV w)) := by
  cases h with
  | fault _ w => exact ⟨w, rfl⟩

/-- Chains end alike whose parts do. -/
theorem Res.Alike.bind {o o' : Res α} {f f' : α → Res β} (ho : Res.Alike R o o')
    (hf : ∀ a b, R a b → Res.Alike Q (f a) (f' b)) : Res.Alike Q (Res.bind o f) (Res.bind o' f') := by
  cases ho with
  | next h => exact hf _ _ h
  | fault k w => exact .fault k w
  | refused x => exact .refused x

/-- `Res.Alike.bind` where the first parts answer equal values, such as operands. -/
theorem Res.Alike.bind_eq {o o' : Res α} {f f' : α → Res β} (ho : Res.Alike Eq o o')
    (hf : ∀ a, Res.Alike Q (f a) (f' a)) : Res.Alike Q (Res.bind o f) (Res.bind o' f') :=
  ho.bind fun a _ e => e ▸ hf a

end

/-! ### Registers -/

section
variable {s t : State} (h : SameButV s t)
include h

theorem readReg_alike (r : Reg) : Res.Alike Eq (readReg r s) (readReg r t) := by
  obtain ⟨w, rfl⟩ := h
  cases r with
  | illegal i => exact .fault _ w
  | _ => exact .next rfl

theorem readRR_alike (rD rS : Reg) : Res.Alike Eq (readRR rD rS s) (readRR rD rS t) :=
  (readReg_alike h rD).bind_eq fun _ => (readReg_alike h rS).bind_eq fun _ => .next rfl

theorem readRI_alike (rD : Reg) (imm : Word) : Res.Alike Eq (readRI rD imm s) (readRI rD imm t) :=
  (readReg_alike h rD).bind_eq fun _ => .next rfl

theorem commit_alike (r : Reg) (v : Word) {f g : Flags} (hf : f.SameButV g) :
    Res.Alike SameButV (commit r v f s) (commit r v g t) := by
  obtain ⟨w, rfl⟩ := h
  obtain ⟨x, rfl⟩ := hf
  cases r with
  | illegal i => exact .fault _ w
  | _ => exact .next ⟨x, rfl⟩

theorem commitUpdate_alike (r : Reg) (v : Word) : Res.Alike SameButV (commitUpdate r v s) (commitUpdate r v t) :=
  commit_alike h r v (h.flags.update v)

theorem commitShift_alike (r : Reg) (sh : Nat) (lastOut : Bool) (v : Word) :
    Res.Alike SameButV (commitShift r sh lastOut v s) (commitShift r sh lastOut v t) :=
  commit_alike h r v (h.flags.updateShift sh lastOut v)

theorem flagsOnly_alike {f g : Flags} (hf : f.SameButV g) : Res.Alike SameButV (flagsOnly f s) (flagsOnly g t) := by
  obtain ⟨w, rfl⟩ := h
  obtain ⟨x, rfl⟩ := hf
  exact .next ⟨x, rfl⟩

theorem divInto_alike (r : Reg) (a b : Word) : Res.Alike SameButV (divInto r a b s) (divInto r a b t) := by
  have hcommit := commitUpdate_alike h r (quotient s.cfg.divMode a b)
  obtain ⟨w, rfl⟩ := h
  unfold divInto
  rw [State.withV_cfg]
  split
  · exact .fault _ w
  · exact hcommit

theorem modInto_alike (r : Reg) (a b : Word) : Res.Alike SameButV (modInto r a b s) (modInto r a b t) := by
  have hcommit := commitUpdate_alike h r (remainder s.cfg.divMode a b)
  obtain ⟨w, rfl⟩ := h
  unfold modInto
  rw [State.withV_cfg]
  split
  · exact .fault _ w
  · exact hcommit

theorem jumpIf_alike (taken : Bool) (target : Word) :
    Res.Alike SameButV (jumpIf taken target s) (jumpIf taken target t) := by
  obtain ⟨w, rfl⟩ := h
  cases taken
  · exact .next ⟨w, rfl⟩
  · exact .next ⟨w, rfl⟩

/-! ### The bus -/

theorem SameButV.agentsAct : SameButV s.agentsAct t.agentsAct := by
  obtain ⟨w, rfl⟩ := h
  exact ⟨w, rfl⟩

theorem SameButV.setPc (v : Word) : SameButV (s.setPc v) (t.setPc v) := by
  obtain ⟨w, rfl⟩ := h
  exact ⟨w, rfl⟩

theorem SameButV.setSp (v : Word) : SameButV (s.setSp v) (t.setSp v) := by
  obtain ⟨w, rfl⟩ := h
  exact ⟨w, rfl⟩

theorem SameButV.setHalt (b : Bool) : SameButV (s.setHalt b) (t.setHalt b) := by
  obtain ⟨w, rfl⟩ := h
  exact ⟨w, rfl⟩

theorem SameButV.ioWriteWord (a v : Word) : SameButV (ioWriteWord a v s) (ioWriteWord a v t) := by
  obtain ⟨w, rfl⟩ := h
  refine ⟨w, ?_⟩
  unfold Machine.ioWriteWord
  rw [State.withV_cfg]
  split <;> rfl

theorem busReadByte_alike (a : Word) : Res.Alike Eq (busReadByte a s) (busReadByte a t) := by
  obtain ⟨w, rfl⟩ := h
  unfold busReadByte
  rw [State.withV_cfg]
  split
  · exact .fault _ w
  · exact .next rfl
  · exact .next rfl

theorem busReadAligned_alike (a : Word) : Res.Alike Eq (busReadAligned a s) (busReadAligned a t) := by
  obtain ⟨w, rfl⟩ := h
  unfold busReadAligned
  rw [State.withV_cfg]
  split
  · exact .fault _ w
  · exact .next rfl
  · exact .next rfl

theorem busReadBytes_alike (a : Word) : Res.Alike Eq (busReadBytes a s) (busReadBytes a t) :=
  (busReadByte_alike h _).bind_eq fun _ => (busReadByte_alike h _).bind_eq fun _ =>
    (busReadByte_alike h _).bind_eq fun _ => (busReadByte_alike h _).bind_eq fun _ => .next rfl

theorem busReadWord_alike (a : Word) : Res.Alike Eq (busReadWord a s) (busReadWord a t) := by
  have hbytes := busReadBytes_alike h a
  have haligned := busReadAligned_alike h a
  obtain ⟨w, rfl⟩ := h
  unfold busReadWord
  rw [State.withV_cfg]
  split
  · exact haligned
  · split
    · exact .fault _ w
    · exact hbytes

theorem busWriteByte_alike (a : Word) (v : Byte) : Res.Alike SameButV (busWriteByte a v s) (busWriteByte a v t) := by
  obtain ⟨w, rfl⟩ := h
  unfold busWriteByte
  rw [State.withV_cfg]
  split
  · exact .fault _ w
  · exact .fault _ w
  · exact .next ⟨w, rfl⟩
  · exact .next (SameButV.ioWriteWord ⟨w, rfl⟩ _ _)

theorem busWriteAligned_alike (a v : Word) : Res.Alike SameButV (busWriteAligned a v s) (busWriteAligned a v t) := by
  obtain ⟨w, rfl⟩ := h
  unfold busWriteAligned
  rw [State.withV_cfg]
  split
  · exact .fault _ w
  · exact .fault _ w
  · exact .next ⟨w, rfl⟩
  · exact .next (SameButV.ioWriteWord ⟨w, rfl⟩ _ _)

theorem busWriteBytes_alike (a v : Word) : Res.Alike SameButV (busWriteBytes a v s) (busWriteBytes a v t) :=
  (busWriteByte_alike h _ _).bind fun _ _ h => (busWriteByte_alike h _ _).bind fun _ _ h =>
    (busWriteByte_alike h _ _).bind fun _ _ h => busWriteByte_alike h _ _

theorem busWriteWord_alike (a v : Word) : Res.Alike SameButV (busWriteWord a v s) (busWriteWord a v t) := by
  have hbytes := busWriteBytes_alike h a v
  have haligned := busWriteAligned_alike h a v
  obtain ⟨w, rfl⟩ := h
  unfold busWriteWord
  rw [State.withV_cfg]
  split
  · exact haligned
  · split
    · exact .fault _ w
    · exact hbytes

end

/-- The same word, and states that differ in V alone: what a read over the bus answers. -/
def SameWordButV (p q : Word × State) : Prop := p.1 = q.1 ∧ SameButV p.2 q.2

section
variable {s t : State} (h : SameButV s t)
include h

theorem memRead_alike (a : Word) : Res.Alike SameWordButV (memRead a s) (memRead a t) :=
  (busReadWord_alike h.agentsAct a).bind_eq fun _ => .next ⟨rfl, h.agentsAct⟩

theorem memWrite_alike (a v : Word) : Res.Alike SameButV (memWrite a v s) (memWrite a v t) :=
  busWriteWord_alike h.agentsAct a v

theorem fillFrom_alike (dst val : Word) (i n : Nat) :
    Res.Alike SameButV (fillFrom dst val i n s) (fillFrom dst val i n t) := by
  induction n generalizing i s t with
  | zero => exact .next h
  | succ n ih => exact (memWrite_alike h _ _).bind fun _ _ h => ih h (i + 1)

theorem copyElement_alike (dst src : Word) (i : Nat) :
    Res.Alike SameButV (copyElement dst src i s) (copyElement dst src i t) := by
  refine (memRead_alike h _).bind ?_
  rintro ⟨v, s'⟩ ⟨-, t'⟩ ⟨rfl, h'⟩
  exact memWrite_alike h' _ _

theorem copyUp_alike (dst src : Word) (i n : Nat) :
    Res.Alike SameButV (copyUp dst src i n s) (copyUp dst src i n t) := by
  induction n generalizing i s t with
  | zero => exact .next h
  | succ n ih => exact (copyElement_alike h _ _ _).bind fun _ _ h => ih h (i + 1)

theorem copyDown_alike (dst src : Word) (n : Nat) :
    Res.Alike SameButV (copyDown dst src n s) (copyDown dst src n t) := by
  induction n generalizing s t with
  | zero => exact .next h
  | succ n ih => exact (copyElement_alike h _ _ _).bind fun _ _ h => ih h

/-! ### The stack -/

theorem push_alike (v : Word) : Res.Alike SameButV (push v s) (push v t) := by
  have hstore := memWrite_alike (h.setSp (s.sp - 4#32)) (s.sp - 4#32) v
  obtain ⟨w, rfl⟩ := h
  unfold push
  rw [State.withV_sp, State.withV_hp]
  split
  · exact .fault _ w
  · exact hstore

theorem pop_alike : Res.Alike SameWordButV (pop s) (pop t) := by
  have hread := memRead_alike h s.sp
  obtain ⟨w, rfl⟩ := h
  refine hread.bind ?_
  rintro ⟨v, _⟩ ⟨-, _⟩ ⟨rfl, x, rfl⟩
  exact .next ⟨rfl, x, rfl⟩

theorem enter_alike (target : Word) : Res.Alike SameButV (enter target s) (enter target t) := by
  have hpush := push_alike h s.pc
  obtain ⟨w, rfl⟩ := h
  exact hpush.bind fun _ _ h => .next (h.setPc target)

theorem leave_alike : Res.Alike SameButV (leave s) (leave t) := by
  refine (pop_alike h).bind ?_
  rintro ⟨v, _⟩ ⟨-, _⟩ ⟨rfl, h'⟩
  exact .next (h'.setPc v)

/-! ### Every instruction -/

theorem execMset_alike (rD rS : Reg) : Res.Alike SameButV (execMset rD rS s) (execMset rD rS t) := by
  refine (readRR_alike h rD rS).bind_eq fun p => ?_
  have hfill := fillFrom_alike h p.1 p.2 0 (s.regs.get 1).toNat
  obtain ⟨w, rfl⟩ := h
  exact hfill

theorem execMcpy_alike (rD rS : Reg) : Res.Alike SameButV (execMcpy rD rS s) (execMcpy rD rS t) := by
  refine (readRR_alike h rD rS).bind_eq fun p => ?_
  have hdown := copyDown_alike h p.1 p.2 (s.regs.get 1).toNat
  have hup := copyUp_alike h p.1 p.2 0 (s.regs.get 1).toNat
  obtain ⟨w, rfl⟩ := h
  rw [State.withV_regs]
  split
  · exact hdown
  · exact hup

theorem execLoad_alike (rD rS : Reg) : Res.Alike SameButV (execLoad rD rS s) (execLoad rD rS t) := by
  refine (readReg_alike h rS).bind_eq fun a => (memRead_alike h a).bind ?_
  rintro ⟨v, _⟩ ⟨-, _⟩ ⟨rfl, h'⟩
  exact commitUpdate_alike h' rD v

theorem execPop_alike (rD : Reg) : Res.Alike SameButV (execPop rD s) (execPop rD t) := by
  refine (pop_alike h).bind ?_
  rintro ⟨v, _⟩ ⟨-, _⟩ ⟨rfl, h'⟩
  exact commitUpdate_alike h' rD v

theorem execSyscall_alike : Res.Alike SameButV (execSyscall s) (execSyscall t) := by
  have hread := memRead_alike h (syscallEntry s.cfg (s.regs.get 0))
  obtain ⟨w, rfl⟩ := h
  simp only [execSyscall]
  rw [State.withV_cfg, State.withV_regs]
  split
  · refine hread.bind ?_
    rintro ⟨v, s'⟩ ⟨-, _⟩ ⟨rfl, h'⟩
    dsimp only
    split_ifs
    · obtain ⟨x, rfl⟩ := h'
      exact .fault _ x
    · obtain ⟨x, rfl⟩ := h'
      exact .fault _ x
    · exact enter_alike h' v
  · exact .fault _ w

/-- A jump on a predicate of the flags that does not read V (R115). -/
theorem jumpIf_flags_alike (taken : Flags → Bool) (ht : ∀ f w, taken (f.withV w) = taken f) (target : Word) :
    Res.Alike SameButV (jumpIf (taken s.flags) target s) (jumpIf (taken t.flags) target t) := by
  obtain ⟨w, hw⟩ := h.flags
  rw [hw, ht]
  exact jumpIf_alike h _ target

/-- The instructions by what they do last: commit a result, set flags, jump, or go over the bus. -/
theorem exec_alike (i : Instr) : Res.Alike SameButV (exec i s) (exec i t) := by
  cases i with
  | add | sub => exact (readRR_alike h _ _).bind_eq fun _ => commit_alike h _ _ (.refl _)
  | addi | subi => exact (readRI_alike h _ _).bind_eq fun _ => commit_alike h _ _ (.refl _)
  | div => exact (readRR_alike h _ _).bind_eq fun _ => divInto_alike h _ _ _
  | divi => exact (readRI_alike h _ _).bind_eq fun _ => divInto_alike h _ _ _
  | mod => exact (readRR_alike h _ _).bind_eq fun _ => modInto_alike h _ _ _
  | modi => exact (readRI_alike h _ _).bind_eq fun _ => modInto_alike h _ _ _
  | mul | and | or | xor => exact (readRR_alike h _ _).bind_eq fun _ => commitUpdate_alike h _ _
  | muli | andi | ori | xori => exact (readRI_alike h _ _).bind_eq fun _ => commitUpdate_alike h _ _
  | inc | dec | neg | not | mov => exact (readReg_alike h _).bind_eq fun _ => commitUpdate_alike h _ _
  | clr | loadi | movi => exact commitUpdate_alike h _ _
  | shl | shr => exact (readReg_alike h _).bind_eq fun _ => commitShift_alike h _ _ _ _
  | cmp => exact (readRR_alike h _ _).bind_eq fun _ => flagsOnly_alike h (.refl _)
  | cmpi => exact (readRI_alike h _ _).bind_eq fun _ => flagsOnly_alike h (.refl _)
  | test => exact (readRR_alike h _ _).bind_eq fun _ => flagsOnly_alike h (h.flags.update _)
  | testi => exact (readRI_alike h _ _).bind_eq fun _ => flagsOnly_alike h (h.flags.update _)
  | jmp => exact jumpIf_alike h true _
  | jz | je => exact jumpIf_flags_alike h Flags.z (fun _ _ => rfl) _
  | jnz | jne => exact jumpIf_flags_alike h (fun f => !f.z) (fun _ _ => rfl) _
  | jn | jl => exact jumpIf_flags_alike h Flags.n (fun _ _ => rfl) _
  | jp | jge => exact jumpIf_flags_alike h (fun f => !f.n) (fun _ _ => rfl) _
  | jc | jb => exact jumpIf_flags_alike h Flags.c (fun _ _ => rfl) _
  | jnc | jae => exact jumpIf_flags_alike h (fun f => !f.c) (fun _ _ => rfl) _
  | jg => exact jumpIf_flags_alike h Flags.greater (fun _ _ => rfl) _
  | jle => exact jumpIf_flags_alike h Flags.lessOrEqual (fun _ _ => rfl) _
  | ja => exact jumpIf_flags_alike h Flags.above (fun _ _ => rfl) _
  | jbe => exact jumpIf_flags_alike h Flags.belowOrEqual (fun _ _ => rfl) _
  | load => exact execLoad_alike h _ _
  | store => exact (readRR_alike h _ _).bind_eq fun _ => memWrite_alike h _ _
  | stori => exact (readReg_alike h _).bind_eq fun _ => memWrite_alike h _ _
  | mset => exact execMset_alike h _ _
  | mcpy => exact execMcpy_alike h _ _
  | call => exact enter_alike h _
  | ret => exact leave_alike h
  | push => exact (readReg_alike h _).bind_eq fun _ => push_alike h _
  | pop => exact execPop_alike h _
  | syscall => exact execSyscall_alike h
  | nop => exact .next h
  | hlt => exact .next (h.setHalt true)

end

/-- Settles O60: the two runs end alike, and putting one V into both leaves no difference. -/
theorem noInstructionReadsOverflow : Obligations.NoInstructionReadsOverflow := by
  intro i s v e
  have halike : Res.Alike SameButV (exec i s) (exec i (e s)) := exec_alike ⟨v, rfl⟩ i
  refine ⟨fun t ht => ?_, fun f hf => ?_⟩
  · obtain ⟨_, ht', w, rfl⟩ := (ht ▸ halike).of_next
    exact ⟨_, ht', rfl⟩
  · obtain ⟨w, hf'⟩ := (hf ▸ halike).of_fault
    exact ⟨_, hf', Fault.mapLeft_mapLeft _ _ _⟩

end Sys2Proof.Machine
end

section
/-! PROOF. No step changes ROM, nor does a step that faults: a condition on the states a result ends in, one rule per shared
operation, and the step put together from them. -/

namespace Sys2Proof.Machine

/-! ### Conditions on how a result ends -/

/-- `o` ends well: an answer satisfies `P`, and the state that a fault left satisfies `Q`. -/
structure Res.Ends {α : Type} (Q : State → Prop) (P : α → Prop) (o : Res α) : Prop where
  next : o.Ensures P
  left : ∀ k, o = .fault k → Q k.left

section
variable {α β : Type} {Q : State → Prop} {P : α → Prop} {P' : β → Prop}

theorem Res.Ends.ofNext {a : α} (h : P a) : Res.Ends Q P (.next a) := by
  refine ⟨.next h, ?_⟩
  rintro _ ⟨⟩

theorem Res.Ends.ofFault {k : Fault} (h : Q k.left) : Res.Ends Q P (.fault k) := by
  refine ⟨nofun, ?_⟩
  rintro _ ⟨⟩
  exact h

/-- A chain ends well whose first part does, and whose second part does from every answer of the first. -/
theorem Res.Ends.bind {o : Res α} {f : α → Res β} (ho : Res.Ends Q P o) (hf : ∀ a, P a → Res.Ends Q P' (f a)) :
    Res.Ends Q P' (Res.bind o f) := by
  refine ⟨ho.next.bind fun a ha => (hf a ha).next, fun k hk => ?_⟩
  obtain hk | ⟨a, ha, hk⟩ := Res.bind_eq_fault.mp hk
  · exact ho.left k hk
  · exact (hf a (ho.next a ha)).left k hk

end

/-! ### The ROM of a fixed state, and the updates that keep it -/

/-- `u` has the bytes of ROM and the configuration of `r`, and that configuration's map is legal. -/
structure KeepsRom (r u : State) : Prop where
  mapWf : u.cfg.mapWf
  cfg : u.cfg = r.cfg
  rom : ∀ a < r.cfg.ramBase, u.mem.read a = r.mem.read a

section
variable {r s t : State}

theorem KeepsRom.refl (h : r.cfg.mapWf) : KeepsRom r r := ⟨h, rfl, fun _ _ => rfl⟩

/-- Only memory and configuration matter to ROM. -/
theorem KeepsRom.congr (h : KeepsRom r s) (hm : t.mem = s.mem) (hc : t.cfg = s.cfg) : KeepsRom r t := by
  obtain ⟨hmap, hcfg, hrom⟩ := h
  exact ⟨hc ▸ hmap, hc.trans hcfg, hm ▸ hrom⟩

/-- A safe store keeps ROM. -/
theorem KeepsRom.storeSafe (h : KeepsRom r s) (hs : StoreSafe s t) : KeepsRom r t where
  mapWf := hs.cfg ▸ h.mapWf
  cfg := hs.cfg.trans h.cfg
  rom a ha := (hs.rom a (h.cfg ▸ ha)).trans (h.rom a ha)

theorem KeepsRom.setPc (h : KeepsRom r s) (v : Word) : KeepsRom r (s.setPc v) := h.congr rfl rfl

theorem KeepsRom.setSp (h : KeepsRom r s) (v : Word) : KeepsRom r (s.setSp v) := h.congr rfl rfl

end

/-! ### The shared operations keep ROM -/

section
variable {r s : State} (h : KeepsRom r s)
include h

theorem readReg_keepsRom (x : Reg) : (readReg x s).Ends (KeepsRom r) fun _ => True := by
  refine ⟨fun _ _ => trivial, fun k hk => ?_⟩
  rw [(readReg_eq_fault.mp hk).2]
  exact h

theorem readRR_keepsRom (rD rS : Reg) : (readRR rD rS s).Ends (KeepsRom r) fun _ => True :=
  (readReg_keepsRom h rD).bind fun _ _ => (readReg_keepsRom h rS).bind fun _ _ => .ofNext trivial

theorem readRI_keepsRom (rD : Reg) (imm : Word) : (readRI rD imm s).Ends (KeepsRom r) fun _ => True :=
  (readReg_keepsRom h rD).bind fun _ _ => .ofNext trivial

theorem commit_keepsRom (x : Reg) (v : Word) (f : Flags) : (commit x v f s).Ends (KeepsRom r) (KeepsRom r) := by
  refine ⟨fun t ht => ?_, fun k hk => ?_⟩
  · rw [(commit_eq_next.mp ht).2]
    exact h.congr (by simp) (by simp)
  · rw [(commit_eq_fault.mp hk).2]
    exact h

theorem divInto_keepsRom (x : Reg) (a b : Word) : (divInto x a b s).Ends (KeepsRom r) (KeepsRom r) := by
  unfold divInto
  split
  · exact .ofFault h
  · exact commit_keepsRom h x _ _

theorem modInto_keepsRom (x : Reg) (a b : Word) : (modInto x a b s).Ends (KeepsRom r) (KeepsRom r) := by
  unfold modInto
  split
  · exact .ofFault h
  · exact commit_keepsRom h x _ _

theorem flagsOnly_keepsRom (f : Flags) : (flagsOnly f s).Ends (KeepsRom r) (KeepsRom r) := .ofNext (h.congr rfl rfl)

theorem jumpIf_keepsRom (taken : Bool) (target : Word) : (jumpIf taken target s).Ends (KeepsRom r) (KeepsRom r) := by
  cases taken
  · exact .ofNext h
  · exact .ofNext (h.setPc target)

theorem memRead_keepsRom (a : Word) : (memRead a s).Ends (KeepsRom r) fun p => KeepsRom r p.2 := by
  refine ⟨fun p hp => ?_, fun k hk => ?_⟩
  · rw [(memRead_eq_next.mp hp).2]
    exact h.storeSafe (.agentsAct s)
  · rw [memRead_left hk]
    exact h.storeSafe (.agentsAct s)

theorem memWrite_keepsRom (a v : Word) : (memWrite a v s).Ends (KeepsRom r) (KeepsRom r) :=
  ⟨fun _ ht => h.storeSafe (memWrite_storeSafe h.mapWf ht),
    fun _ hk => h.storeSafe (memWrite_left_storeSafe h.mapWf hk)⟩

theorem fillFrom_keepsRom (dst val : Word) (i n : Nat) : (fillFrom dst val i n s).Ends (KeepsRom r) (KeepsRom r) :=
  ⟨fun _ ht => h.storeSafe (fillFrom_storeSafe h.mapWf ht),
    fun _ hk => h.storeSafe (fillFrom_left_storeSafe h.mapWf hk)⟩

theorem copyUp_keepsRom (dst src : Word) (i n : Nat) : (copyUp dst src i n s).Ends (KeepsRom r) (KeepsRom r) :=
  ⟨fun _ ht => h.storeSafe (copyUp_storeSafe h.mapWf ht),
    fun _ hk => h.storeSafe (copyUp_left_storeSafe h.mapWf hk)⟩

theorem copyDown_keepsRom (dst src : Word) (n : Nat) : (copyDown dst src n s).Ends (KeepsRom r) (KeepsRom r) :=
  ⟨fun _ ht => h.storeSafe (copyDown_storeSafe h.mapWf ht),
    fun _ hk => h.storeSafe (copyDown_left_storeSafe h.mapWf hk)⟩

theorem push_keepsRom (v : Word) : (push v s).Ends (KeepsRom r) (KeepsRom r) := by
  have hsp := h.setSp (s.sp - 4#32)
  unfold push
  split
  · exact .ofFault hsp
  · exact memWrite_keepsRom hsp _ v

theorem pop_keepsRom : (pop s).Ends (KeepsRom r) fun p => KeepsRom r p.2 :=
  (memRead_keepsRom h _).bind fun _ hp => .ofNext (hp.setSp _)

theorem enter_keepsRom (target : Word) : (enter target s).Ends (KeepsRom r) (KeepsRom r) :=
  (push_keepsRom h _).bind fun _ ht => .ofNext (ht.setPc _)

theorem leave_keepsRom : (leave s).Ends (KeepsRom r) (KeepsRom r) :=
  (pop_keepsRom h).bind fun _ hp => .ofNext (hp.setPc _)

theorem execMcpy_keepsRom (rD rS : Reg) : (execMcpy rD rS s).Ends (KeepsRom r) (KeepsRom r) := by
  refine (readRR_keepsRom h rD rS).bind fun p _ => ?_
  split
  · exact copyDown_keepsRom h _ _ _
  · exact copyUp_keepsRom h _ _ _ _

theorem execSyscall_keepsRom : (execSyscall s).Ends (KeepsRom r) (KeepsRom r) := by
  simp only [execSyscall]
  split
  · refine (memRead_keepsRom h _).bind fun p hp => ?_
    split_ifs
    · exact .ofFault hp
    · exact .ofFault hp
    · exact enter_keepsRom hp p.1
  · exact .ofFault h

/-! ### Execution, fetch, step -/

/-- The instructions by the operands they read, and by what they do last: commit a result, set flags, jump, or go over the
bus. -/
theorem exec_keepsRom (i : Instr) : Res.Ends (KeepsRom r) (KeepsRom r) (exec i s) := by
  cases i with
  | add | sub | mul | and | or | xor => exact (readRR_keepsRom h _ _).bind fun _ _ => commit_keepsRom h _ _ _
  | addi | subi | muli | andi | ori | xori => exact (readRI_keepsRom h _ _).bind fun _ _ => commit_keepsRom h _ _ _
  | div => exact (readRR_keepsRom h _ _).bind fun _ _ => divInto_keepsRom h _ _ _
  | divi => exact (readRI_keepsRom h _ _).bind fun _ _ => divInto_keepsRom h _ _ _
  | mod => exact (readRR_keepsRom h _ _).bind fun _ _ => modInto_keepsRom h _ _ _
  | modi => exact (readRI_keepsRom h _ _).bind fun _ _ => modInto_keepsRom h _ _ _
  | inc | dec | neg | not | shl | shr | mov =>
    exact (readReg_keepsRom h _).bind fun _ _ => commit_keepsRom h _ _ _
  | clr | loadi | movi => exact commit_keepsRom h _ _ _
  | cmp | test => exact (readRR_keepsRom h _ _).bind fun _ _ => flagsOnly_keepsRom h _
  | cmpi | testi => exact (readRI_keepsRom h _ _).bind fun _ _ => flagsOnly_keepsRom h _
  | jmp | jz | je | jnz | jne | jn | jp | jg | jge | jl | jle | jc | jnc | ja | jae | jb | jbe =>
    exact jumpIf_keepsRom h _ _
  | load =>
    exact (readReg_keepsRom h _).bind fun _ _ => (memRead_keepsRom h _).bind fun _ hp => commit_keepsRom hp _ _ _
  | store => exact (readRR_keepsRom h _ _).bind fun _ _ => memWrite_keepsRom h _ _
  | stori => exact (readReg_keepsRom h _).bind fun _ _ => memWrite_keepsRom h _ _
  | mset => exact (readRR_keepsRom h _ _).bind fun _ _ => fillFrom_keepsRom h _ _ _ _
  | mcpy => exact execMcpy_keepsRom h _ _
  | call => exact enter_keepsRom h _
  | ret => exact leave_keepsRom h
  | push => exact (readReg_keepsRom h _).bind fun _ _ => push_keepsRom h _
  | pop => exact (pop_keepsRom h).bind fun _ hp => commit_keepsRom hp _ _ _
  | syscall => exact execSyscall_keepsRom h
  | nop => exact .ofNext h
  | hlt => exact .ofNext (h.congr rfl rfl)

theorem fetchWord_keepsRom : (fetchWord s).Ends (KeepsRom r) fun p => KeepsRom r p.2 :=
  (memRead_keepsRom h _).bind fun _ hp => .ofNext (hp.setPc _)

theorem fetch_keepsRom : (fetch s).Ends (KeepsRom r) fun p => KeepsRom r p.2 := by
  refine (fetchWord_keepsRom h).bind fun p hp => ?_
  split
  · exact .ofFault hp
  · exact .ofNext hp
  · exact (fetchWord_keepsRom hp).bind fun _ hq => .ofNext hq

theorem step_keepsRom : Res.Ends (KeepsRom r) (KeepsRom r) (step s) := by
  unfold step
  split
  · exact .ofFault h
  · exact (fetch_keepsRom h).bind fun _ hp => exec_keepsRom hp _

end

/-- Settles O55: the step from `s` ends, well or with a fault, with the ROM of `s`, which is what lies below `RAM_BASE`. -/
theorem stepKeepsRom : Obligations.StepKeepsRom := by
  intro s hwf a _ ha
  have hmap : s.cfg.mapWf := hwf.2.1
  rw [(rom_end hmap).2] at ha
  have hstep := step_keepsRom (.refl hmap)
  exact ⟨fun t ht => (hstep.next t ht).rom a ha, fun f hf => (hstep.left f hf).rom a ha⟩

end Sys2Proof.Machine
end

section
/-! PROOF. Loads and stores one word at a time: the faults of the instructions that access memory (R36, R37), words and
bytes read back after a store (R38 to R40), and the pixels of VRAM (R34). -/

namespace Sys2Proof.Machine

/-! ### The instructions that make one access, by that access -/

section
variable {s : State} {rD rS : Reg} {v addr : Word} {k : Fault}

theorem exec_store_eq_memWrite (hD : s.reg? rD = some v) (hS : s.reg? rS = some addr) :
    exec (.store rD rS) s = memWrite addr v s := by
  rw [exec, execStore, readRR_eq_next (p := (v, addr)).mpr ⟨hD, hS⟩, Res.bind_next]

theorem exec_stori_eq_memWrite (hD : s.reg? rD = some v) (addr : Word) :
    exec (.stori rD addr) s = memWrite addr v s := by
  rw [exec, execStori, readReg_of_some hD, Res.bind_next]

/-- A fault of LOAD's read is the fault of LOAD (R103). -/
theorem exec_load_of_read_fault (hS : s.reg? rS = some addr) (h : busReadWord addr s.agentsAct = .fault k) :
    exec (.load rD rS) s = .fault k := by
  rw [exec, execLoad, readReg_of_some hS, Res.bind_next, memRead_eq_fault.mpr h, Res.bind_fault]

/-- A fault of the read at SP is the fault of RET (R134). -/
theorem exec_ret_of_read_fault (h : busReadWord s.sp s.agentsAct = .fault k) : exec .ret s = .fault k :=
  leave_eq_fault.mpr (memRead_eq_fault.mpr h)

/-- A fault of the read at SP is the fault of POP (R136). -/
theorem exec_pop_of_read_fault (h : busReadWord s.sp s.agentsAct = .fault k) (r : Reg) :
    exec (.pop r) s = .fault k := by
  rw [exec, execPop, pop_eq_fault.mpr (memRead_eq_fault.mpr h), Res.bind_fault]

end

/-- Settles O26: each instruction by its one access, which faults after the outside agents have acted. -/
theorem memoryFaults : Obligations.MemoryFaults := by
  intro s rD rS r v addr hwf hD hS
  have hmap : s.cfg.mapWf := hwf.2.1
  rw [exec_store_eq_memWrite hD hS, exec_stori_eq_memWrite hD, (rom_end hmap).2]
  refine ⟨fun ha hm => ?_, fun ha hend => ?_, fun ha hrom => ?_, fun ha hm => ?_, fun ha hend => ?_⟩
  · have hwrite : memWrite addr v s = _ := busWriteWord_misaligned hm ha
    exact ⟨exec_load_of_read_fault hS (busReadWord_misaligned hm ha), hwrite, hwrite⟩
  · have hwrite : memWrite addr v s = _ := busWriteWord_invalid (s := s.agentsAct) hmap ha hend
    exact ⟨exec_load_of_read_fault hS (busReadWord_invalid (s := s.agentsAct) hmap ha hend), hwrite, hwrite⟩
  · have hwrite : memWrite addr v s = _ := busWriteWord_rom (s := s.agentsAct) hmap ha hrom
    exact ⟨hwrite, hwrite⟩
  · have hread := busReadWord_misaligned (s := s.agentsAct) hm ha
    exact ⟨exec_ret_of_read_fault hread, exec_pop_of_read_fault hread r⟩
  · have hread := busReadWord_invalid (s := s.agentsAct) hmap ha hend
    exact ⟨exec_ret_of_read_fault hread, exec_pop_of_read_fault hread r⟩

/-! ### Reading back what was stored -/

/-- A byte read from ROM, RAM or VRAM (R38). -/
theorem busReadByte_bank {a : Word} {s : State} (hc : s.cfg.mapWf) (h : a.toNat < s.cfg.ioBase) :
    busReadByte a s = .next (s.mem.read a.toNat) := by
  obtain ⟨b, hb⟩ := (route_eq_bank hc).mpr h
  simp [busReadByte, hb]

/-- Settles O27: the store is a write of memory, and the reads are reads of that memory. -/
theorem storedWordReadsBack : Obligations.StoredWordReadsBack := by
  intro s a v hm hwf ⟨ha, hram, hio⟩
  have hmap : s.cfg.mapWf := hwf.2.1
  have hmap' : (s.setMem (s.mem.writeWord a.toNat v)).cfg.mapWf := hmap
  refine ⟨_, busWriteWord_ram hmap ha hram hio, ?_, fun k hk => ?_⟩
  · rw [busReadWord_bank hmap' ha hio, State.setMem_mem, Memory.readWord_writeWord hm]
  · have hmod := ioBase_mod hmap
    have hend := ioEnd_lt hmap
    have hregions := region_ends s.cfg
    have hk' : (a + BitVec.ofNat 32 k).toNat = a.toNat + k := by
      rw [BitVec.toNat_add, BitVec.toNat_ofNat]
      omega
    rw [busReadByte_bank hmap' (by rw [hk', State.setMem_cfg]; omega), hk', State.setMem_mem,
      Memory.read_writeWord_byte hm _ _ hk, byteOfWord]

/-! ### Pixels (R34) -/

/-- The pixels fill VRAM, a word each (R34). -/
theorem pixelAddress_in_vram {c : Config} (hc : c.mapWf) {x y : Nat} (hx : x < c.vramWidth) (hy : y < c.vramHeight) :
    pixelAddress c x y % 4 = 0 ∧ c.vramBase ≤ pixelAddress c x y ∧ pixelAddress c x y < c.ioBase := by
  have hindex : y * c.vramWidth + x < c.vramWidth * c.vramHeight :=
    calc y * c.vramWidth + x < (y + 1) * c.vramWidth := by rw [Nat.succ_mul]; omega
      _ ≤ c.vramHeight * c.vramWidth := Nat.mul_le_mul_right _ hy
      _ = c.vramWidth * c.vramHeight := Nat.mul_comm _ _
  have hmod := ioBase_mod hc
  obtain ⟨-, -, -, -, -, -, -, hsize, -⟩ := hc
  have hio : c.ioBase = c.vramBase + c.vramSize := rfl
  unfold pixelAddress
  omega

/-- The pixel whose word was stored is the word's bytes, lowest first (R34, R40). -/
theorem pixel_of_storedWord {s t : State} {v : Word} {x y : Nat} (hm : s.mem.wf = true)
    (h : StoredWord s t (pixelAddress t.cfg x y) v) :
    pixel x y t = (byteOfWord v 0, byteOfWord v 1, byteOfWord v 2, byteOfWord v 3) := by
  have hbyte := h.bytes hm
  rw [pixel, hbyte 1 (by omega), hbyte 2 (by omega), hbyte 3 (by omega), ← hbyte 0 (by omega), Nat.add_zero]

/-- Settles O50: STORI writes the word at the pixel's address, which lies in VRAM. -/
theorem storedPixel : Obligations.StoredPixel := by
  intro s rD v x y hwf hm hD hx hy
  have hmap : s.cfg.mapWf := hwf.2.1
  obtain ⟨ha, hvram, hio⟩ := pixelAddress_in_vram hmap hx hy
  have hend := ioEnd_lt hmap
  have hregions := region_ends s.cfg
  have haddr : (BitVec.ofNat 32 (pixelAddress s.cfg x y)).toNat = pixelAddress s.cfg x y :=
    Nat.mod_eq_of_lt (by omega)
  have hvram' : s.cfg.ramEnd ≤ pixelAddress s.cfg x y := hvram
  have hstore := memWrite_ram (v := v) (a := BitVec.ofNat 32 (pixelAddress s.cfg x y)) hmap (by rwa [haddr])
    (by rw [haddr]; omega) (by rwa [haddr])
  refine ⟨_, (exec_stori_eq_memWrite hD _).trans hstore, pixel_of_storedWord hm (.of_mem ?_)⟩
  rw [State.setMem_mem, haddr]
  rfl

end Sys2Proof.Machine
end

section
/-! PROOF. MSET and MCPY (R107, R108): a block that lies below `IO_END` is a fold over its elements, and in memory that fold
stores the block. -/

namespace Sys2Proof.Machine

/-! ### Blocks that every element access answers -/

/-- The words of the block lie below `IO_END` in a legal map: reads of its elements answer (R36). -/
structure ReadableBlock (c : Config) (base : Word) (n : Nat) : Prop where
  map : c.mapWf
  aligned : base.toNat % 4 = 0
  fits : base.toNat + 4 * n ≤ c.ioEnd

/-- The block lies above ROM as well: stores to its elements complete (R37). -/
structure StorableBlock (c : Config) (base : Word) (n : Nat) : Prop extends ReadableBlock c base n where
  aboveRom : c.ramBase ≤ base.toNat

/-- The address of an element as a number (R107, R108). -/
theorem elementAddress_eq_ofNat (base : Word) (i : Nat) :
    elementAddress base i = BitVec.ofNat 32 (base.toNat + 4 * i) := by
  rw [elementAddress, BitVec.ofNat_add, BitVec.ofNat_toNat, BitVec.setWidth_eq]

theorem ReadableBlock.elementAddress_toNat {c : Config} {base : Word} {n i : Nat} (h : ReadableBlock c base n)
    (hi : i < n) : (elementAddress base i).toNat = base.toNat + 4 * i := by
  have hend := ioEnd_lt h.map
  have hfits := h.fits
  exact Machine.elementAddress_toNat (by omega)

/-! ### Elements one by one (R107, R108) -/

/-- What MSET's element `i` does where its store completes: the outside agents act, and the word is stored (R107). -/
def State.fillWord (dst val : Word) (s : State) (i : Nat) : State :=
  s.agentsAct.storeWord (BitVec.ofNat 32 (dst.toNat + 4 * i)) val

/-- What MCPY's element `i` does where its two accesses complete, before each of which the outside agents act (R108). -/
def State.copyWord (dst src : Word) (s : State) (i : Nat) : State :=
  s.agentsAct.agentsAct.storeWord (BitVec.ofNat 32 (dst.toNat + 4 * i))
    (s.agentsAct.wordAt (BitVec.ofNat 32 (src.toNat + 4 * i)))

theorem State.fillWord_cfg (dst val : Word) (s : State) (i : Nat) : (s.fillWord dst val i).cfg = s.cfg :=
  (State.storeWord_sameCpu s.agentsAct _ _).cfg

theorem State.copyWord_cfg (dst src : Word) (s : State) (i : Nat) : (s.copyWord dst src i).cfg = s.cfg :=
  (State.storeWord_sameCpu s.agentsAct.agentsAct _ _).cfg

section
variable {s : State} {dst src val : Word} {i n m : Nat}

theorem memWrite_element (h : StorableBlock s.cfg dst m) (hi : i < m) (v : Word) :
    memWrite (elementAddress dst i) v s = .next (s.agentsAct.storeWord (elementAddress dst i) v) := by
  have haddr := h.elementAddress_toNat hi
  have hdst := h.aligned
  have hrom := h.aboveRom
  have hfits := h.fits
  exact memWrite_storable h.map (by omega) (by omega) (by omega) v

theorem copyElement_eq_copyWord (hd : StorableBlock s.cfg dst m) (hs : ReadableBlock s.cfg src m) (hi : i < m) :
    copyElement dst src i s = .next (s.copyWord dst src i) := by
  have haddr := hs.elementAddress_toNat hi
  have hsrc := hs.aligned
  have hfits := hs.fits
  have hread : s.readableWord (elementAddress src i) := ⟨by omega, by omega⟩
  rw [copyElement, memRead_readable hs.map hread, Res.bind_next, memWrite_element (s := s.agentsAct) hd hi,
    elementAddress_eq_ofNat, elementAddress_eq_ofNat, State.copyWord]

/-! ### Blocks as folds over their elements -/

theorem fillFrom_eq_foldl (h : StorableBlock s.cfg dst m) (hm : i + n ≤ m) :
    fillFrom dst val i n s = .next ((List.range' i n).foldl (State.fillWord dst val) s) := by
  induction n generalizing i s with
  | zero => rfl
  | succ n ih =>
    rw [fillFrom, memWrite_element h (by omega), Res.bind_next, elementAddress_eq_ofNat]
    exact ih (s := s.fillWord dst val i) (State.fillWord_cfg dst val s i ▸ h) (by omega)

theorem copyUp_eq_foldl (hd : StorableBlock s.cfg dst m) (hs : ReadableBlock s.cfg src m) (hm : i + n ≤ m) :
    copyUp dst src i n s = .next ((List.range' i n).foldl (State.copyWord dst src) s) := by
  induction n generalizing i s with
  | zero => rfl
  | succ n ih =>
    have hcfg := State.copyWord_cfg dst src s i
    rw [copyUp, copyElement_eq_copyWord hd hs (by omega), Res.bind_next]
    exact ih (hcfg ▸ hd) (hcfg ▸ hs) (by omega)

theorem copyDown_eq_foldl (hd : StorableBlock s.cfg dst m) (hs : ReadableBlock s.cfg src m) (hm : n ≤ m) :
    copyDown dst src n s = .next ((List.range n).reverse.foldl (State.copyWord dst src) s) := by
  induction n generalizing s with
  | zero => rfl
  | succ n ih =>
    have hcfg := State.copyWord_cfg dst src s n
    rw [copyDown, copyElement_eq_copyWord hd hs (by omega), Res.bind_next, List.range_succ, List.reverse_concat,
      List.foldl_cons]
    exact ih (hcfg ▸ hd) (hcfg ▸ hs) (by omega)

end

/-! ### A block of memory, part by part -/

/-- From `s` to `t` the bytes from `lo` up to `hi` have become what `b` says, `k` slots of the outside agents have passed,
and nothing else has changed: how far a block has come. -/
structure StoredBlock (k : Nat) (s t : State) (lo hi : Nat) (b : Nat → Byte) : Prop where
  cpu : SameCpu s t
  agents : AgentsOnly k s t
  others : ∀ x, x < lo ∨ hi ≤ x → t.mem.read x = s.mem.read x
  bytes : s.mem.wf = true → ∀ x, lo ≤ x → x < hi → t.mem.read x = b x
  canonical : s.mem.wf = true → t.mem.wf = true

section
variable {k lo hi lo' hi' a : Nat} {s t : State} {b : Nat → Byte}

theorem StoredBlock.refl (s : State) (lo : Nat) (b : Nat → Byte) : StoredBlock 0 s s lo lo b :=
  ⟨.refl s, ⟨rfl, rfl, rfl, rfl⟩, fun _ _ => rfl, fun _ _ _ _ => by omega, id⟩

theorem StoredBlock.agentsAct (h : StoredBlock k s t lo hi b) : StoredBlock (k + 1) s t.agentsAct lo hi b where
  cpu := h.cpu.trans (.agentsAct t)
  agents := h.agents.succ h.cpu.cfg rfl rfl rfl rfl
  others := h.others
  bytes := h.bytes
  canonical := h.canonical

/-- A word stored at one end of the block, or over part of it, extends the block. -/
theorem StoredBlock.storeWord (h : StoredBlock k s t lo hi b) {v : Word} (ha : a < 2 ^ 32) (hio : a < s.cfg.ioBase)
    (hlo : lo' ≤ lo ∧ lo' ≤ a) (hhi : hi ≤ hi' ∧ a + 4 ≤ hi')
    (hcover : ∀ x, lo' ≤ x → x < hi' → (lo ≤ x ∧ x < hi) ∨ (a ≤ x ∧ x < a + 4))
    (hv : ∀ j < 4, byteOfWord v j = b (a + j)) :
    StoredBlock k s (t.storeWord (BitVec.ofNat 32 a) v) lo' hi' b := by
  have haddr : (BitVec.ofNat 32 a).toNat = a := Nat.mod_eq_of_lt ha
  have hst : t.storeWord (BitVec.ofNat 32 a) v = t.setMem (t.mem.writeWord a v) := by
    rw [State.storeWord, haddr, if_pos (h.cpu.cfg ▸ hio)]
  have hw : StoredWord t (t.setMem (t.mem.writeWord a v)) a v := .of_mem rfl
  rw [hst]
  refine ⟨h.cpu.trans ⟨rfl, rfl, rfl, rfl, rfl, rfl, rfl⟩, ⟨h.agents.kbd, h.agents.tmr, h.agents.schedule, h.agents.con⟩,
    fun x hx => ?_, fun hm x h1 h2 => ?_, fun hm => hw.canonical (h.canonical hm)⟩
  · rw [hw.others x (by omega), h.others x (by omega)]
  · by_cases hx : a ≤ x ∧ x < a + 4
    · obtain ⟨j, rfl⟩ := Nat.exists_eq_add_of_le hx.1
      rw [hw.bytes (h.canonical hm) j (by omega), hv j (by omega)]
    · have hold := hcover x h1 h2
      rw [hw.others x (by omega), h.bytes hm x (by omega) (by omega)]

end

/-! ### MSET (R107) -/

/-- The byte that MSET leaves at an address of its block. -/
def fillByte (dst : Nat) (val : Word) (x : Nat) : Byte := byteOfWord val ((x - dst) % 4)

theorem foldl_fillWord_storedBlock {s : State} {dst val : Word} {n : Nat} (hc : s.cfg.mapWf) (ha : dst.toNat % 4 = 0)
    (hio : dst.toNat + 4 * n ≤ s.cfg.ioBase) :
    StoredBlock n s ((List.range n).foldl (State.fillWord dst val) s) dst.toNat (dst.toNat + 4 * n)
      (fillByte dst.toNat val) := by
  induction n with
  | zero => exact .refl s _ _
  | succ n ih =>
    have hend := ioEnd_lt hc
    have hregions := region_ends s.cfg
    rw [List.range_succ, List.foldl_concat]
    refine (ih (by omega)).agentsAct.storeWord (by omega) (by omega) (by omega) (by omega) (by omega) fun j hj => ?_
    rw [fillByte]
    congr 1
    omega

/-- MSET with its operands read (R107). -/
theorem exec_mset_eq_fillFrom {s : State} {rD rS : Reg} {dst val : Word} (hD : s.reg? rD = some dst)
    (hS : s.reg? rS = some val) : exec (.mset rD rS) s = fillFrom dst val 0 (s.regs.get 1).toNat s := by
  rw [exec, execMset, readRR_eq_next (p := (dst, val)).mpr ⟨hD, hS⟩, Res.bind_next]

/-- Settles O28: MSET is the fold over its elements, and in memory each element extends the block by one word. -/
theorem msetFillsBlock : Obligations.MsetFillsBlock := by
  intro s rD rS dst val hD hS n
  have hexec := exec_mset_eq_fillFrom hD hS
  have hfold (h : StorableBlock s.cfg dst n) :
      exec (.mset rD rS) s = .next ((List.range n).foldl (State.fillWord dst val) s) := by
    rw [hexec, List.range_eq_range']
    exact fillFrom_eq_foldl h (by omega)
  refine ⟨fun hn => ?_, fun hwf ha hram hio => ?_, fun hwf ha hram hend => ?_⟩
  · rw [hexec, show (s.regs.get 1).toNat = 0 from hn, fillFrom]
  · have hregions := region_ends s.cfg
    have hblock := foldl_fillWord_storedBlock (val := val) hwf.2.1 ha hio
    refine ⟨_, hfold ⟨⟨hwf.2.1, ha, by omega⟩, hram⟩, hblock.cpu, hblock.agents, hblock.canonical, hblock.others,
      fun hm i hi k hk => ?_⟩
    rw [hblock.bytes hm _ (by omega) (by omega), fillByte]
    congr 1
    omega
  · have hnext := hfold ⟨⟨hwf.2.1, ha, hend⟩, hram⟩
    exact ⟨_, hnext, fillFrom_sameCpu.1 (hexec ▸ hnext), rfl⟩

/-! ### MCPY (R108) -/

/-- The byte that MCPY leaves at an address of its destination: the source's byte in the memory it started from. -/
def copyByte (m : Memory) (dst src x : Nat) : Byte := m.read (src + (x - dst))

section
variable {s t : State} {dst src : Word} {k i n lo hi lo' hi' : Nat}

/-- One more element, where what was stored before leaves the element's source alone. -/
theorem StoredBlock.copyWord (h : StoredBlock k s t lo hi (copyByte s.mem dst.toNat src.toNat)) (hc : s.cfg.mapWf)
    (hdio : dst.toNat + 4 * i < s.cfg.ioBase) (hsio : src.toNat + 4 * i < s.cfg.ioBase)
    (hsrc : src.toNat + 4 * i + 4 ≤ lo ∨ hi ≤ src.toNat + 4 * i) (hlo : lo' ≤ lo ∧ lo' ≤ dst.toNat + 4 * i)
    (hhi : hi ≤ hi' ∧ dst.toNat + 4 * i + 4 ≤ hi')
    (hcover : ∀ x, lo' ≤ x → x < hi' →
      (lo ≤ x ∧ x < hi) ∨ (dst.toNat + 4 * i ≤ x ∧ x < dst.toNat + 4 * i + 4)) :
    StoredBlock (k + 2) s (t.copyWord dst src i) lo' hi' (copyByte s.mem dst.toNat src.toNat) := by
  have hend := ioEnd_lt hc
  have hregions := region_ends s.cfg
  have haddr : (BitVec.ofNat 32 (src.toNat + 4 * i)).toNat = src.toNat + 4 * i := Nat.mod_eq_of_lt (by omega)
  have hword : t.agentsAct.wordAt (BitVec.ofNat 32 (src.toNat + 4 * i)) = t.mem.readWord (src.toNat + 4 * i) := by
    rw [State.wordAt, haddr, State.agentsAct_cfg, h.cpu.cfg, if_pos hsio, State.agentsAct_mem]
  rw [State.copyWord, hword]
  refine h.agentsAct.agentsAct.storeWord (by omega) hdio hlo hhi hcover fun j hj => ?_
  rw [byteOfWord_readWord _ _ hj, h.others _ (by omega), copyByte]
  congr 1
  omega

/-- An ascending copy never stores over source words it has still to read, unless the overlap test sends it downward. -/
theorem foldl_copyWord_up_storedBlock (hc : s.cfg.mapWf) (hd : dst.toNat + 4 * n ≤ s.cfg.ioBase)
    (hs : src.toNat + 4 * n ≤ s.cfg.ioBase) (hup : dst.toNat ≤ src.toNat ∨ src.toNat + 4 * n ≤ dst.toNat) :
    StoredBlock (2 * n) s ((List.range n).foldl (State.copyWord dst src) s) dst.toNat (dst.toNat + 4 * n)
      (copyByte s.mem dst.toNat src.toNat) := by
  induction n with
  | zero => exact .refl s _ _
  | succ n ih =>
    rw [List.range_succ, List.foldl_concat]
    exact (ih (by omega) (by omega) (by omega)).copyWord hc (by omega) (by omega) (by omega) (by omega) (by omega)
      (by omega)

/-- A descending copy with its source below its destination never stores over source words it has still to read; the
block has come down to element `n` already. -/
theorem foldl_copyWord_down_storedBlock (h : StoredBlock k s t (dst.toNat + 4 * n) hi (copyByte s.mem dst.toNat src.toNat))
    (hc : s.cfg.mapWf) (hd : dst.toNat + 4 * n ≤ s.cfg.ioBase) (hhi : dst.toNat + 4 * n ≤ hi)
    (hdown : src.toNat < dst.toNat) :
    StoredBlock (k + 2 * n) s ((List.range n).reverse.foldl (State.copyWord dst src) t) dst.toNat hi
      (copyByte s.mem dst.toNat src.toNat) := by
  induction n generalizing k t with
  | zero => exact h
  | succ n ih =>
    have hstep : StoredBlock (k + 2) s (t.copyWord dst src n) (dst.toNat + 4 * n) hi
        (copyByte s.mem dst.toNat src.toNat) :=
      h.copyWord hc (by omega) (by omega) (by omega) (by omega) (by omega) (by omega)
    rw [List.range_succ, List.reverse_concat, List.foldl_cons, show k + 2 * (n + 1) = k + 2 + 2 * n by omega]
    exact ih hstep (by omega) (by omega)

end

/-- The order in which MCPY copies its elements, by its overlap test (R108). -/
def copyOrder (dst src : Word) (n : Nat) : List Nat :=
  if src.toNat < dst.toNat ∧ dst.toNat < src.toNat + 4 * n then (List.range n).reverse else List.range n

/-- In memory the copy moves the block, whatever the overlap: the test picks the order that reads before it overwrites. -/
theorem foldl_copyWord_storedBlock {s : State} {dst src : Word} {n : Nat} (hc : s.cfg.mapWf)
    (hd : dst.toNat + 4 * n ≤ s.cfg.ioBase) (hs : src.toNat + 4 * n ≤ s.cfg.ioBase) :
    StoredBlock (2 * n) s ((copyOrder dst src n).foldl (State.copyWord dst src) s) dst.toNat (dst.toNat + 4 * n)
      (copyByte s.mem dst.toNat src.toNat) := by
  unfold copyOrder
  split
  · next hdown =>
    have h := foldl_copyWord_down_storedBlock (.refl s (dst.toNat + 4 * n) _) hc hd le_rfl hdown.1
    rwa [Nat.zero_add] at h
  · exact foldl_copyWord_up_storedBlock hc hd hs (by omega)

/-- MCPY with its operands read (R108). -/
theorem exec_mcpy_eq_copy {s : State} {rD rS : Reg} {dst src : Word} (hD : s.reg? rD = some dst)
    (hS : s.reg? rS = some src) :
    exec (.mcpy rD rS) s =
      if backward dst src (s.regs.get 1).toNat then copyDown dst src (s.regs.get 1).toNat s
      else copyUp dst src 0 (s.regs.get 1).toNat s := by
  rw [exec, execMcpy, readRR_eq_next (p := (dst, src)).mpr ⟨hD, hS⟩, Res.bind_next]

/-- MCPY as the fold over its elements in its order, where every access answers (R108). -/
theorem exec_mcpy_eq_foldl {s : State} {rD rS : Reg} {dst src : Word} (hD : s.reg? rD = some dst)
    (hS : s.reg? rS = some src) (hd : StorableBlock s.cfg dst (s.regs.get 1).toNat)
    (hs : ReadableBlock s.cfg src (s.regs.get 1).toNat) :
    exec (.mcpy rD rS) s =
      .next ((copyOrder dst src (s.regs.get 1).toNat).foldl (State.copyWord dst src) s) := by
  rw [exec_mcpy_eq_copy hD hS, copyOrder]
  simp only [backward, Bool.and_eq_true, decide_eq_true_eq]
  split
  · exact copyDown_eq_foldl hd hs le_rfl
  · rw [List.range_eq_range']
    exact copyUp_eq_foldl hd hs (by omega)

/-- An MCPY that completes leaves the CPU's own state alone. -/
theorem exec_mcpy_sameCpu {s t : State} {rD rS : Reg} (h : exec (.mcpy rD rS) s = .next t) : SameCpu s t := by
  obtain ⟨p, -, h⟩ := Res.bind_eq_next.mp h
  split at h
  · exact copyDown_sameCpu.1 h
  · exact copyUp_sameCpu.1 h

/-- Settles O29: MCPY is the fold over its elements in its order, and in memory that fold moves the block. -/
theorem mcpyMovesBlock : Obligations.McpyMovesBlock := by
  intro s rD rS dst src hD hS n
  refine ⟨fun hn => ?_, fun hwf hda hsa hram hd hs => ?_, fun hwf hda hsa hram hd hs => ?_⟩
  · rw [exec_mcpy_eq_copy hD hS, show (s.regs.get 1).toNat = 0 from hn, copyDown, copyUp, ite_self]
  · have hregions := region_ends s.cfg
    have hblock := foldl_copyWord_storedBlock hwf.2.1 hd hs
    refine ⟨_, exec_mcpy_eq_foldl hD hS ⟨⟨hwf.2.1, hda, by omega⟩, hram⟩ ⟨hwf.2.1, hsa, by omega⟩, hblock.cpu,
      hblock.agents, hblock.canonical, hblock.others, fun hm j hj => ?_⟩
    rw [hblock.bytes hm _ (by omega) (by omega), copyByte, Nat.add_sub_cancel_left]
  · have hnext := exec_mcpy_eq_foldl hD hS ⟨⟨hwf.2.1, hda, hd⟩, hram⟩ ⟨hwf.2.1, hsa, hs⟩
    exact ⟨_, hnext, exec_mcpy_sameCpu hnext, rfl⟩

end Sys2Proof.Machine
end

section
/-! PROOF. The catalog of R51 row by row: what an instruction's fields decode to, what a head is encoded as, and the
opcode map that links both to words. -/

namespace Sys2Proof.Laws.EncodingLength

/-- Every instruction has a number of the catalog, and the length R52 gives that number. -/
theorem of_instr (i : Instr) : Statement i := by
  cases i
  exacts [add _ _, sub _ _, mul _ _, div _ _, mod _ _, addi _ _, subi _ _, muli _ _, divi _ _, modi _ _, inc _, dec _,
    neg _, not _, clr _, and _ _, or _ _, xor _ _, andi _ _, ori _ _, xori _ _, shl _ _, shr _ _, load _ _, store _ _,
    loadi _ _, stori _ _, mset _ _, mcpy _ _, mov _ _, movi _ _, cmp _ _, cmpi _ _, test _ _, testi _ _, jmp _, jz _,
    je _, jnz _, jne _, jn _, jp _, jg _, jge _, jl _, jle _, jc _, jnc _, ja _, jae _, jb _, jbe _, call _, ret,
    push _, pop _, syscall, nop, hlt]

end Sys2Proof.Laws.EncodingLength

namespace Sys2Proof

/-! ### The fields of an instruction decode to it (R46 to R53) -/

/-- The instruction a head stands for, with word 1 where it needs one (R48, R52). -/
def Head.complete : Head → Option Word → Option Instr
  | .oneWord i, none => some i
  | .twoWords k, some imm => some (k imm)
  | _, _ => none

theorem Head.complete_none {h : Head} {i : Instr} : h.complete none = some i ↔ h = .oneWord i := by
  cases h <;> simp [Head.complete]

theorem Head.complete_some {h : Head} {imm : Word} {i : Instr} :
    h.complete (some imm) = some i ↔ ∃ k, h = .twoWords k ∧ k imm = i := by
  cases h <;> simp [Head.complete]

/-- Each register operand of a well-formed instruction is what its index names (R13). -/
theorem Instr.ofIndex_index {al : Aliases} (ha : al.wf) {i : Instr} (hi : i.wf al = true) :
    ∀ r ∈ i.regs, Reg.ofIndex al (r.index al) = r :=
  fun r hr => Reg.ofIndex_index ha (List.all_eq_true.mp hi r hr)

/-- The number and the fields of a well-formed instruction select it, format by format (R47). -/
theorem headOf_fields {al : Aliases} (ha : al.wf) {i : Instr} (hi : i.wf al = true) (opcode : Byte) :
    (headOf al (i.fields al).number opcode (i.fields al).rD (i.fields al).rS).complete (i.fields al).imm = some i := by
  have hregs := Instr.ofIndex_index ha hi
  cases i with
  | add d s | sub d s | mul d s | div d s | mod d s | and d s | or d s | xor d s | load d s | store d s | mset d s
  | mcpy d s | mov d s | cmp d s | test d s =>
    have hd := hregs d (.head _)
    have hs := hregs s (.tail _ (.head _))
    simp [Instr.fields, Fields.rr, headOf, Head.complete, hd, hs]
  | addi d imm | subi d imm | muli d imm | divi d imm | modi d imm | andi d imm | ori d imm | xori d imm
  | loadi d imm | stori d imm | movi d imm | cmpi d imm | testi d imm =>
    have hd := hregs d (.head _)
    simp [Instr.fields, Fields.ri, headOf, Head.complete, hd]
  | inc d | dec d | neg d | not d | clr d | push d | pop d =>
    have hd := hregs d (.head _)
    simp [Instr.fields, Fields.r, headOf, Head.complete, hd]
  | shl d count | shr d count =>
    have hd := hregs d (.head _)
    simp [Instr.fields, Fields.rs, headOf, Head.complete, hd]
  | jmp imm | jz imm | je imm | jnz imm | jne imm | jn imm | jp imm | jg imm | jge imm | jl imm | jle imm | jc imm
  | jnc imm | ja imm | jae imm | jb imm | jbe imm | call imm => rfl
  | ret | syscall | nop | hlt => rfl

/-! ### What the fields decode to has those fields (R46, R51, R53) -/

/-- `i`, whose word 1 is `imm`, is well formed, stands under `number` in the catalog, and has fields that select `h`. -/
structure Instr.HasHead (i : Instr) (al : Aliases) (number : Nat) (h : Head) (imm : Option Word) : Prop where
  wf : i.wf al = true
  number_eq : ∀ al', (i.fields al').number = number
  imm_eq : ∀ al', (i.fields al').imm = imm
  head : ∀ opcode, headOf al number opcode (i.fields al).rD (i.fields al).rS = h

/-- Every instruction a head stands for has that head; only numbers outside the catalog stand for none (R51, R54). -/
def Head.OfNumber (al : Aliases) (number : Nat) : Head → Prop
  | .unknown _ => number = 0 ∨ 60 ≤ number
  | .oneWord i => i.HasHead al number (.oneWord i) none
  | .twoWords k => ∀ imm, (k imm).HasHead al number (.twoWords k) (some imm)

/-! One lemma per format of R47: what is to be known of a row of the catalog, for its head to be as `Head.OfNumber` says. -/

section
variable {al : Aliases} {number : Nat} (opcode rD rS : Byte)

theorem headOf_rr {f : Reg → Reg → Instr}
    (hhead : ∀ opcode rD rS, headOf al number opcode rD rS = .oneWord (f (.ofIndex al rD) (.ofIndex al rS)))
    (hregs : ∀ d s, (f d s).regs = [d, s]) (hfields : ∀ al d s, (f d s).fields al = .rr al number d s) :
    (headOf al number opcode rD rS).OfNumber al number := by
  rw [hhead]
  constructor <;> simp [Instr.wf, Fields.rr, hhead, hregs, hfields]

theorem headOf_ri {f : Reg → Word → Instr}
    (hhead : ∀ opcode rD rS, headOf al number opcode rD rS = .twoWords (f (.ofIndex al rD)))
    (hregs : ∀ d imm, (f d imm).regs = [d]) (hfields : ∀ al d imm, (f d imm).fields al = .ri al number d imm) :
    (headOf al number opcode rD rS).OfNumber al number := by
  rw [hhead]
  intro imm
  constructor <;> simp [Instr.wf, Fields.ri, hhead, hregs, hfields]

theorem headOf_r {f : Reg → Instr}
    (hhead : ∀ opcode rD rS, headOf al number opcode rD rS = .oneWord (f (.ofIndex al rD)))
    (hregs : ∀ d, (f d).regs = [d]) (hfields : ∀ al d, (f d).fields al = .r al number d) :
    (headOf al number opcode rD rS).OfNumber al number := by
  rw [hhead]
  constructor <;> simp [Instr.wf, Fields.r, hhead, hregs, hfields]

theorem headOf_rs {f : Reg → Byte → Instr}
    (hhead : ∀ opcode rD rS, headOf al number opcode rD rS = .oneWord (f (.ofIndex al rD) rS))
    (hregs : ∀ d count, (f d count).regs = [d]) (hfields : ∀ al d count, (f d count).fields al = .rs al number d count) :
    (headOf al number opcode rD rS).OfNumber al number := by
  rw [hhead]
  constructor <;> simp [Instr.wf, Fields.rs, hhead, hregs, hfields]

theorem headOf_i {f : Word → Instr} (hhead : ∀ opcode rD rS, headOf al number opcode rD rS = .twoWords f)
    (hregs : ∀ imm, (f imm).regs = []) (hfields : ∀ al imm, (f imm).fields al = .i number imm) :
    (headOf al number opcode rD rS).OfNumber al number := by
  rw [hhead]
  intro imm
  constructor <;> simp [Instr.wf, Fields.i, hhead, hregs, hfields]

theorem headOf_n {i : Instr} (hhead : ∀ opcode rD rS, headOf al number opcode rD rS = .oneWord i)
    (hregs : i.regs = []) (hfields : ∀ al, i.fields al = .n number) :
    (headOf al number opcode rD rS).OfNumber al number := by
  rw [hhead]
  constructor <;> simp [Instr.wf, Fields.n, hhead, hregs, hfields]

end

/-- Every number's head is as `Head.OfNumber` says, by the format of its row (R51). -/
theorem headOf_ofNumber (al : Aliases) (number : Nat) (opcode rD rS : Byte) :
    (headOf al number opcode rD rS).OfNumber al number := by
  match number with
  | 1 | 2 | 3 | 4 | 5 | 16 | 17 | 18 | 24 | 25 | 28 | 29 | 30 | 32 | 34 =>
    exact headOf_rr _ _ _ (fun _ _ _ => rfl) (fun _ _ => rfl) (fun _ _ _ => rfl)
  | 6 | 7 | 8 | 9 | 10 | 19 | 20 | 21 | 26 | 27 | 31 | 33 | 35 =>
    exact headOf_ri _ _ _ (fun _ _ _ => rfl) (fun _ _ => rfl) (fun _ _ _ => rfl)
  | 11 | 12 | 13 | 14 | 15 | 55 | 56 =>
    exact headOf_r _ _ _ (fun _ _ _ => rfl) (fun _ => rfl) (fun _ _ => rfl)
  | 22 | 23 =>
    exact headOf_rs _ _ _ (fun _ _ _ => rfl) (fun _ _ => rfl) (fun _ _ _ => rfl)
  | 36 | 37 | 38 | 39 | 40 | 41 | 42 | 43 | 44 | 45 | 46 | 47 | 48 | 49 | 50 | 51 | 52 | 53 =>
    exact headOf_i _ _ _ (fun _ _ _ => rfl) (fun _ => rfl) (fun _ _ => rfl)
  | 54 | 57 | 58 | 59 => exact headOf_n _ _ _ (fun _ _ _ => rfl) rfl (fun _ => rfl)
  | 0 => exact .inl rfl
  | _ + 60 => exact .inr (Nat.le_add_left 60 _)

/-! ### The opcode map (R51, R54) -/

theorem catalogNumber_eq_none {map : List Byte} {opcode : Byte} : catalogNumber map opcode = none ↔ opcode ∉ map := by
  rw [catalogNumber, Option.map_eq_none_iff, List.idxOf?_eq_none_iff]

/-- The number an opcode byte selects has that opcode byte. -/
theorem opcodeByte_of_catalogNumber {map : List Byte} {opcode : Byte} {number : Nat}
    (h : catalogNumber map opcode = some number) : opcodeByte map number = opcode := by
  obtain ⟨k, hk, rfl⟩ := Option.map_eq_some_iff.mp h
  obtain ⟨hlt, hget, -⟩ := List.idxOf?_eq_some_iff.mp hk
  simp [opcodeByte, hlt, hget]

/-- A word with an unregistered opcode byte is no instruction (R54). -/
theorem decodeHead_of_not_mem {c : Config} {w : Word} (h : opcodeField w ∉ c.opcodeMap) :
    decodeHead c w = .unknown (opcodeField w) := by
  rw [decodeHead, catalogNumber_eq_none.mpr h]

theorem decodeHead_of_catalogNumber {c : Config} {w : Word} {number : Nat}
    (h : catalogNumber c.opcodeMap (opcodeField w) = some number) :
    decodeHead c w = headOf c.aliases number (opcodeField w) (rDField w) (rSField w) := by
  rw [decodeHead, h]

/-- The head of a word whose opcode byte is registered is its number's. -/
theorem decodeHead_ofNumber {c : Config} {w : Word} {number : Nat}
    (h : catalogNumber c.opcodeMap (opcodeField w) = some number) : (decodeHead c w).OfNumber c.aliases number := by
  rw [decodeHead_of_catalogNumber h]
  exact headOf_ofNumber _ _ _ _ _

theorem decodeHead_cases (c : Config) (w : Word) :
    decodeHead c w = .unknown (opcodeField w) ∨
      ∃ number, catalogNumber c.opcodeMap (opcodeField w) = some number ∧
        (decodeHead c w).OfNumber c.aliases number := by
  cases hn : catalogNumber c.opcodeMap (opcodeField w) with
  | none => exact .inl (decodeHead_of_not_mem (catalogNumber_eq_none.mp hn))
  | some number => exact .inr ⟨number, rfl, decodeHead_ofNumber hn⟩

/-- Word 0 as it is emitted decodes by its number and its two register fields. -/
theorem decodeHead_word0Of {c : Config} {opcode : Byte} {number : Nat}
    (h : catalogNumber c.opcodeMap opcode = some number) (rD rS : Byte) :
    decodeHead c (word0Of rD rS opcode) = headOf c.aliases number opcode rD rS := by
  rw [decodeHead_of_catalogNumber (number := number) (by rw [opcodeField_word0Of, h]), opcodeField_word0Of,
    rDField_word0Of, rSField_word0Of]

/-! ### Decoding what was encoded (R57, R61) -/

/-- Words decode to the instruction that the head of the first stands for, with the second where there is one. -/
theorem decodeWith_words {c : Config} {w : Word} {imm : Option Word} {i : Instr}
    (h : (decodeHead c w).complete imm = some i) (rest : List Byte) :
    decodeWith c ((w :: imm.toList).flatMap bytesOfWord ++ rest) = .ok (i, rest) := by
  unfold decodeWith
  cases imm with
  | none => simp [Head.complete_none.mp h]
  | some imm =>
    obtain ⟨k, hk, rfl⟩ := Head.complete_some.mp h
    simp [hk]

/-- Settles O2: the fields of a well-formed instruction select it, and its number has an opcode byte of its own. -/
theorem decodeEncodeAgree : Obligations.DecodeEncodeAgree := by
  intro c ⟨hal, hlen, hnodup⟩ i hi rest
  obtain ⟨hpos, hle, -⟩ := Laws.EncodingLength.of_instr i c.aliases
  have hnumber := catalogNumber_opcodeByte hnodup hpos (hlen ▸ hle)
  apply decodeWith_words
  rw [decodeHead_word0Of hnumber]
  exact headOf_fields hal hi _

/-! ### Encoding what was decoded -/

/-- An instruction under a word's catalog number is encoded with the word's opcode byte, and decodes to its own head. -/
theorem Instr.HasHead.exists_encodeWith {c : Config} {w : Word} {number : Nat} {i : Instr} {h : Head} {imm : Option Word}
    (hi : i.HasHead c.aliases number h imm) (hw : catalogNumber c.opcodeMap (opcodeField w) = some number) :
    ∃ w', encodeWith c i = w' :: imm.toList ∧ opcodeField w' = opcodeField w ∧ decodeHead c w' = h := by
  refine ⟨word0Of (i.fields c.aliases).rD (i.fields c.aliases).rS (opcodeField w), ?_, opcodeField_word0Of _ _ _, ?_⟩
  · rw [encodeWith, hi.number_eq, hi.imm_eq, opcodeByte_of_catalogNumber hw]
  · rw [decodeHead_word0Of hw, hi.head]

/-- Settles O3: a word that decodes has a catalog number, and each instruction its head stands for has that head. -/
theorem decodedInstructionReencodes : Obligations.DecodedInstructionReencodes := by
  intro c _ w
  obtain hunknown | ⟨number, hw, hhead⟩ := decodeHead_cases c w
  · exact ⟨fun i hd => by simp [hunknown] at hd, fun k hd => by simp [hunknown] at hd⟩
  · refine ⟨fun i hd => ?_, fun k hd imm => ?_⟩ <;> rw [hd] at hhead
    · exact ⟨hhead.wf, hhead.exists_encodeWith hw⟩
    · exact ⟨(hhead imm).wf, (hhead imm).exists_encodeWith hw⟩

/-! ### The opcode numbers of this hardware (D2) -/

/-- The registered opcode bytes are 1 to 59 (D26). -/
theorem mem_catalogMap {opcode : Byte} : opcode ∈ Config.catalogMap ↔ opcode.toNat ≠ 0 ∧ opcode.toNat < 60 := by
  simp only [Config.catalogMap, List.mem_map, List.mem_range]
  constructor
  · rintro ⟨k, hk, rfl⟩
    have : k < 59 := hk
    rw [BitVec.toNat_ofNat]
    omega
  · intro ⟨h0, h60⟩
    refine ⟨opcode.toNat - 1, show opcode.toNat - 1 < 59 by omega, ?_⟩
    rw [Nat.sub_add_cancel (by omega), BitVec.ofNat_toNat, BitVec.setWidth_eq]

/-- Byte n selects the catalog's instruction number n. -/
theorem catalogNumber_catalogMap {opcode : Byte} (h : opcode.toNat ≠ 0 ∧ opcode.toNat < 60) :
    catalogNumber Config.catalogMap opcode = some opcode.toNat := by
  have hlen : Config.catalogMap.length = 59 := rfl
  have hbyte : opcodeByte Config.catalogMap opcode.toNat = opcode := by
    have hlt : opcode.toNat - 1 < 59 := by omega
    have hsucc : opcode.toNat - 1 + 1 = opcode.toNat := by omega
    simp [opcodeByte, Config.catalogMap, hlt, hsucc]
  have hnumber := catalogNumber_opcodeByte (map := Config.catalogMap) (n := opcode.toNat) (by decide) (by omega) (by omega)
  rwa [hbyte] at hnumber

/-- An instruction with a head has the length R52 gives the head's number. -/
theorem Instr.HasHead.isSome_imm {i : Instr} {al : Aliases} {number : Nat} {h : Head} {imm : Option Word}
    (hi : i.HasHead al number h imm) : imm.isSome = Machine.twoWordNumber number := by
  obtain ⟨-, -, hlen⟩ := Laws.EncodingLength.of_instr i al
  rwa [hi.number_eq, hi.imm_eq] at hlen

/-- Settles O5: a registered byte is its instruction's number, whose row has the length R52 gives it. -/
theorem opcodeByteSelectsLength : Obligations.OpcodeByteSelectsLength := by
  intro w n
  have hmap : Config.layoutA.opcodeMap = Config.catalogMap := rfl
  by_cases hn : n = 0 ∨ 60 ≤ n
  · rw [if_pos hn]
    apply decodeHead_of_not_mem
    rw [hmap, mem_catalogMap]
    omega
  · rw [if_neg hn]
    have hnumber : catalogNumber Config.layoutA.opcodeMap (opcodeField w) = some n :=
      catalogNumber_catalogMap (by omega)
    have hhead := decodeHead_ofNumber hnumber
    cases hd : decodeHead Config.layoutA w with rw [hd] at hhead
    | unknown op => exact absurd hhead hn
    | oneWord i =>
      have hlen : Machine.twoWordNumber n = false := hhead.isSome_imm.symm
      rw [hlen, if_neg Bool.false_ne_true]
      exact ⟨i, rfl, hhead.number_eq⟩
    | twoWords k =>
      have hlen : Machine.twoWordNumber n = true := (hhead 0#32).isSome_imm.symm
      rw [if_pos hlen]
      exact ⟨k, rfl, fun imm => (hhead imm).number_eq⟩

/-- Settles O1: each word is decoded, field by field, by evaluation. -/
theorem sampleWordsDecode : Obligations.SampleWordsDecode := by
  unfold Obligations.SampleWordsDecode
  refine ⟨?_, ?_, ?_, ?_, ?_, ?_, ?_⟩ <;> decide

end Sys2Proof
end

section
/-! PROOF. How a step ends before an instruction runs (R54, R71, R72), and the shifts (R101, R102). -/

namespace Sys2Proof.Machine

/-! ### Steps that run no instruction -/

/-- A fetch faults as its bus read does: PC has not advanced (R71). -/
theorem fetchWord_of_fault {s : State} {k : Fault} (h : busReadWord s.pc s.agentsAct = .fault k) :
    fetchWord s = .fault k := by
  rw [fetchWord, memRead_eq_fault.mpr h, Res.bind_fault]

/-- A fault of the first word's fetch is the step's (R71). -/
theorem step_of_fault {s : State} {k : Fault} (hh : s.halt = false) (hf : fetchWord s = .fault k) :
    step s = .fault k := by
  simp [step, hh, fetch, hf]

/-- The step of an unregistered opcode byte (R54, R72). -/
theorem step_of_unknown {s t : State} {w : Word} {opcode : Byte} (hh : s.halt = false)
    (hf : fetchWord s = .next (w, t)) (hd : decodeHead t.cfg w = .unknown opcode) :
    step s = .fault (.unknownOpcode opcode t) := by
  simp [step, hh, fetch, hf, hd]

/-- The opcode byte of a word of memory is its first byte (R40, R46). -/
theorem opcodeField_readWord (m : Memory) (a : Nat) : opcodeField (m.readWord a) = m.read a :=
  (byteOfWord_wordOfBytes _ _ _ _).1

/-- Settles O8: the fetch faults as its bus access does, and an opcode byte the map does not list decodes to nothing. -/
theorem stepStopsBeforeExecution : Obligations.StepStopsBeforeExecution := by
  intro s
  refine ⟨fun hh => if_pos hh, fun hwf hh => ?_⟩
  have hmap : s.cfg.mapWf := hwf.2.1
  refine ⟨fun ha hpolicy => ?_, fun ha hend => ?_, fun ha hio hop => ?_⟩
  · exact step_of_fault hh (fetchWord_of_fault (busReadWord_misaligned (s := s.agentsAct) hpolicy ha))
  · exact step_of_fault hh (fetchWord_of_fault (busReadWord_invalid (s := s.agentsAct) hmap ha hend))
  · rw [← opcodeField_readWord] at hop ⊢
    exact step_of_unknown hh (fetchWord_bank hmap ha hio) (decodeHead_of_not_mem hop)

/-! ### Shifts (R49, R101, R102) -/

/-- The flags after a shift (R23, D9). -/
theorem Flags.updateShift_eq (f : Flags) (sh : Nat) (lastOut : Bool) (r : Word) :
    f.updateShift sh lastOut r = { f.update r with c := if sh = 0 then f.c else lastOut } := by
  unfold Flags.updateShift
  split_ifs <;> rfl

/-- The commit of a shift: the destination, the flags by R23 and D9, and nothing else. -/
theorem commitShift_writes {s : State} {rD : Reg} {a : Word} (h : s.reg? rD = some a) (sh : Nat) (lastOut : Bool)
    (r : Word) :
    ∃ t, commitShift rD sh lastOut r s = .next t ∧ WroteOnly s t rD r ∧ t.flags.z = decide (r = 0#32) ∧
      t.flags.n = r.getLsbD 31 ∧ t.flags.v = s.flags.v ∧ t.flags.c = (if sh = 0 then s.flags.c else lastOut) ∧
      SameBeyondRegisters s t := by
  obtain ⟨t, ht, hwrote, hflags, hbeyond⟩ := commit_writes h r (s.flags.updateShift sh lastOut r)
  rw [Flags.updateShift_eq] at hflags
  refine ⟨t, ht, hwrote, ?_, ?_, ?_, ?_, hbeyond⟩ <;> rw [hflags]
  · rfl
  · exact BitVec.msb_eq_getLsbD_last r
  · rfl

theorem exec_shl_eq_commitShift {s : State} {rD : Reg} {a : Word} (h : s.reg? rD = some a) (count : Byte) :
    exec (.shl rD count) s =
      commitShift rD (count.toNat % 32) (a.getLsbD (32 - count.toNat % 32)) (a <<< (count.toNat % 32)) s := by
  rw [exec, execShl, readReg_of_some h, Res.bind_next, shiftCount_eq]

theorem exec_shr_eq_commitShift {s : State} {rD : Reg} {a : Word} (h : s.reg? rD = some a) (count : Byte) :
    exec (.shr rD count) s =
      commitShift rD (count.toNat % 32) (a.getLsbD (count.toNat % 32 - 1)) (a >>> (count.toNat % 32)) s := by
  rw [exec, execShr, readReg_of_some h, Res.bind_next, shiftCount_eq]

/-- Settles O20: each shift is one commit, whose result is a product or a quotient by a power of 2. -/
theorem shiftResults : Obligations.ShiftResults := by
  intro s rD count a h sh
  constructor
  · obtain ⟨t, ht, hstate⟩ := commitShift_writes h sh (a.getLsbD (32 - sh)) (a <<< sh)
    refine ⟨t, a <<< sh, (exec_shl_eq_commitShift h count).trans ht, ?_, hstate⟩
    rw [BitVec.toNat_shiftLeft, Nat.shiftLeft_eq]
  · obtain ⟨t, ht, hstate⟩ := commitShift_writes h sh (a.getLsbD (sh - 1)) (a >>> sh)
    refine ⟨t, a >>> sh, (exec_shr_eq_commitShift h count).trans ht, ?_, hstate⟩
    rw [BitVec.toNat_ushiftRight, Nat.shiftRight_eq_div_pow]

end Sys2Proof.Machine
end

section
/-! PROOF. The execution cycle (R70 to R72): the step as the action of the fetched instruction, POP, and why no step is
refused: a condition on how a result ends, one rule per shared operation, and the step put together from them. -/

namespace Sys2Proof.Machine

/-! ### The step by what it fetched (R70 to R72) -/

/-- A fault of the second word's fetch is the step's (R71). -/
theorem step_of_second_fault {s t : State} {w : Word} {k : Word → Instr} {f : Fault} (hh : s.halt = false)
    (hf : fetchWord s = .next (w, t)) (hd : decodeHead t.cfg w = .twoWords k) (hf' : fetchWord t = .fault f) :
    step s = .fault f := by
  simp [step, hh, fetch, hf, hd, hf']

/-- Settles O6: one equation of the step for each kind of head, and one for the second word's fault. -/
theorem stepRunsFetchedInstruction : Obligations.StepRunsFetchedInstruction := by
  intro s t w0 hh hf
  refine ⟨fun i hd => ?_, fun k hd => ⟨fun w1 u hf' => ?_, fun f hf' => ?_⟩, fun op hd => ?_⟩
  · exact step_of_oneWord hh hf hd
  · exact step_of_twoWords hh hf hd hf'
  · exact step_of_second_fault hh hf hd hf'
  · exact step_of_unknown hh hf hd

/-! ### POP (R75, R136) -/

/-- POP where SP reads a word is the commit of that word, on the state in which SP has moved (D12). -/
theorem exec_pop_eq_commitUpdate {s : State} (hc : s.cfg.mapWf) (h : s.readableWord s.sp) (rD : Reg) :
    exec (.pop rD) s = commitUpdate rD (s.agentsAct.wordAt s.sp) (s.agentsAct.setSp (s.sp + 4#32)) := by
  rw [exec, execPop, pop_readable hc h, Res.bind_next]

/-- Settles O36: the commit after SP has moved writes its destination, or finds that it names no register. -/
theorem popResults : Obligations.PopResults := by
  intro s rD hwf hread v
  rw [exec_pop_eq_commitUpdate hwf.2.1 hread]
  refine ⟨fun a ha => ?_, fun hnone => ?_⟩
  · obtain ⟨w, hw⟩ := State.reg?_some_of_some (s.agentsAct.setSp (s.sp + 4#32)) ha
    obtain ⟨t, ht, ⟨hdest, hothers⟩, hflags, hbeyond⟩ := commit_writes hw v (s.flags.update v)
    refine ⟨t, ht, ⟨hdest, fun r hr => ?_⟩, hflags, hbeyond.mem, hbeyond.halt, hbeyond.cfg, ?_⟩
    · exact (hothers r hr).trans (State.reg?_congr rfl rfl rfl rfl r)
    · exact ⟨hbeyond.kbd, hbeyond.tmr, hbeyond.schedule, hbeyond.con⟩
  · exact commit_of_none (State.reg?_none_of_none _ hnone) v _

/-! ### Results of a core that runs: an answer, or a fault of the machine (R144) -/

/-- `o` is an answer or a fault of R144: no refusal, and not the model's own reason `halted`. -/
def Res.Runs {α : Type} : Res α → Prop
  | .next _ => True
  | .fault (.halted _) => False
  | .fault _ => True
  | .refused _ => False

theorem Res.runs_iff {α : Type} {o : Res α} :
    o.Runs ↔ (∀ r, o ≠ .refused r) ∧ ∀ u, o ≠ .fault (.halted u) := by
  cases o with
  | next a => simp [Res.Runs]
  | fault k => cases k <;> simp [Res.Runs]
  | refused r => simp [Res.Runs]

/-- A chain runs whose first part does, and whose second part does from every value. -/
theorem Res.Runs.bind {α β : Type} {o : Res α} {f : α → Res β} (ho : o.Runs) (hf : ∀ a, (f a).Runs) :
    (Res.bind o f).Runs := by
  cases o with
  | next a => exact hf a
  | fault k => cases k <;> exact ho
  | refused r => exact ho

/-! ### The shared operations run -/

section
variable {s : State}

theorem readReg_runs (r : Reg) : (readReg r s).Runs := by
  unfold readReg
  split <;> trivial

theorem readRR_runs (rD rS : Reg) : (readRR rD rS s).Runs :=
  (readReg_runs rD).bind fun _ => (readReg_runs rS).bind fun _ => trivial

theorem readRI_runs (rD : Reg) (imm : Word) : (readRI rD imm s).Runs := (readReg_runs rD).bind fun _ => trivial

theorem commit_runs (r : Reg) (v : Word) (f : Flags) : (commit r v f s).Runs := by
  cases h : s.reg? r with
  | none => rw [commit_of_none h]; trivial
  | some w => rw [commit_of_some h]; trivial

theorem divInto_runs (r : Reg) (a b : Word) : (divInto r a b s).Runs := by
  unfold divInto
  split
  · trivial
  · exact commit_runs r _ _

theorem modInto_runs (r : Reg) (a b : Word) : (modInto r a b s).Runs := by
  unfold modInto
  split
  · trivial
  · exact commit_runs r _ _

theorem busReadByte_runs (a : Word) : (busReadByte a s).Runs := by
  unfold busReadByte
  split <;> trivial

theorem busReadAligned_runs (a : Word) : (busReadAligned a s).Runs := by
  unfold busReadAligned
  split <;> trivial

theorem busReadBytes_runs (a : Word) : (busReadBytes a s).Runs :=
  (busReadByte_runs _).bind fun _ => (busReadByte_runs _).bind fun _ => (busReadByte_runs _).bind fun _ =>
    (busReadByte_runs _).bind fun _ => trivial

theorem busReadWord_runs (a : Word) : (busReadWord a s).Runs := by
  unfold busReadWord
  split
  · exact busReadAligned_runs a
  · split
    · trivial
    · exact busReadBytes_runs a

theorem memRead_runs (a : Word) : (memRead a s).Runs := (busReadWord_runs a).bind fun _ => trivial

/-- A write raises the faults of its address alone, and `halted` is none of them. -/
theorem memWrite_runs (a v : Word) : (memWrite a v s).Runs := by
  refine Res.runs_iff.mpr ⟨fun _ => memWrite_ne_refused, fun u hu => ?_⟩
  cases memWrite_ofPush hu

theorem push_runs (v : Word) : (push v s).Runs := by
  unfold push
  split
  · trivial
  · exact memWrite_runs _ v

theorem pop_runs : (pop s).Runs := (memRead_runs _).bind fun _ => trivial

theorem enter_runs (target : Word) : (enter target s).Runs := (push_runs _).bind fun _ => trivial

theorem leave_runs : (leave s).Runs := pop_runs.bind fun _ => trivial

theorem copyElement_runs (dst src : Word) (i : Nat) : (copyElement dst src i s).Runs :=
  (memRead_runs _).bind fun _ => memWrite_runs _ _

end

theorem fillFrom_runs (dst val : Word) (i n : Nat) (s : State) : (fillFrom dst val i n s).Runs := by
  induction n generalizing i s with
  | zero => trivial
  | succ n ih => exact (memWrite_runs _ _).bind fun t => ih (i + 1) t

theorem copyUp_runs (dst src : Word) (i n : Nat) (s : State) : (copyUp dst src i n s).Runs := by
  induction n generalizing i s with
  | zero => trivial
  | succ n ih => exact (copyElement_runs dst src i).bind fun t => ih (i + 1) t

theorem copyDown_runs (dst src : Word) (n : Nat) (s : State) : (copyDown dst src n s).Runs := by
  induction n generalizing s with
  | zero => trivial
  | succ n ih => exact (copyElement_runs dst src n).bind fun t => ih t

/-! ### Execution, fetch, step -/

section
variable {s : State}

theorem execMcpy_runs (rD rS : Reg) : (execMcpy rD rS s).Runs := by
  refine (readRR_runs rD rS).bind fun p => ?_
  split
  · exact copyDown_runs _ _ _ s
  · exact copyUp_runs _ _ _ _ s

theorem execSyscall_runs : (execSyscall s).Runs := by
  simp only [execSyscall]
  split
  · refine (memRead_runs _).bind fun p => ?_
    split_ifs
    · trivial
    · trivial
    · exact enter_runs p.1
  · trivial

/-- The instructions by the operands they read, and by what they do last: commit a result, set flags, jump, or go over the
bus. -/
theorem exec_runs (i : Instr) : Res.Runs (exec i s) := by
  cases i with
  | add | sub | mul | and | or | xor => exact (readRR_runs _ _).bind fun _ => commit_runs _ _ _
  | addi | subi | muli | andi | ori | xori => exact (readRI_runs _ _).bind fun _ => commit_runs _ _ _
  | div => exact (readRR_runs _ _).bind fun _ => divInto_runs _ _ _
  | divi => exact (readRI_runs _ _).bind fun _ => divInto_runs _ _ _
  | mod => exact (readRR_runs _ _).bind fun _ => modInto_runs _ _ _
  | modi => exact (readRI_runs _ _).bind fun _ => modInto_runs _ _ _
  | inc | dec | neg | not | shl | shr | mov => exact (readReg_runs _).bind fun _ => commit_runs _ _ _
  | clr | loadi | movi => exact commit_runs _ _ _
  | cmp | test => exact (readRR_runs _ _).bind fun _ => trivial
  | cmpi | testi => exact (readRI_runs _ _).bind fun _ => trivial
  | jmp | jz | je | jnz | jne | jn | jp | jg | jge | jl | jle | jc | jnc | ja | jae | jb | jbe | nop | hlt => trivial
  | load => exact (readReg_runs _).bind fun _ => (memRead_runs _).bind fun _ => commit_runs _ _ _
  | store => exact (readRR_runs _ _).bind fun _ => memWrite_runs _ _
  | stori => exact (readReg_runs _).bind fun _ => memWrite_runs _ _
  | mset => exact (readRR_runs _ _).bind fun _ => fillFrom_runs _ _ _ _ s
  | mcpy => exact execMcpy_runs _ _
  | call => exact enter_runs _
  | ret => exact leave_runs
  | push => exact (readReg_runs _).bind fun _ => push_runs _
  | pop => exact pop_runs.bind fun _ => commit_runs _ _ _
  | syscall => exact execSyscall_runs

theorem fetchWord_runs : (fetchWord s).Runs := (memRead_runs _).bind fun _ => trivial

theorem fetch_runs : (fetch s).Runs := by
  refine fetchWord_runs.bind fun p => ?_
  split
  · trivial
  · trivial
  · exact fetchWord_runs.bind fun _ => trivial

theorem step_runs (hh : s.halt = false) : Res.Runs (step s) := by
  rw [step, if_neg (by simp [hh])]
  exact fetch_runs.bind fun p => exec_runs p.1

end

/-- Settles O56: a core that is not halted runs, and a halted one answers `halted` by O8. -/
theorem stepNeverRefuses : Obligations.StepNeverRefuses := by
  intro s
  cases hh : s.halt with
  | false =>
    obtain ⟨hrefused, hhalted⟩ := Res.runs_iff.mp (step_runs hh)
    exact ⟨hrefused, fun ⟨u, hu⟩ => absurd hu (hhalted u), nofun⟩
  | true =>
    have hstep : step s = .fault (.halted s) := (stepStopsBeforeExecution s).1 hh
    rw [hstep]
    exact ⟨nofun, fun _ => rfl, fun _ => ⟨s, rfl⟩⟩

end Sys2Proof.Machine
end

section
/-! PROOF. The arithmetic and logical instructions of two operands (R80 to R89, R95 to R100): the operands read, then one
commit, or the fault of a zero divisor. -/

namespace Sys2Proof.Machine

/-! ### Operands that name registers (R50, R73) -/

section
variable {s : State} {rD rS : Reg} {a b : Word}

theorem readRR_bind_legal (hD : s.reg? rD = some a) (hS : s.reg? rS = some b) (k : Word × Word → Res State) :
    (readRR rD rS s).bind k = k (a, b) := by
  rw [readRR_eq_next (p := (a, b)).mpr ⟨hD, hS⟩, Res.bind_next]

theorem readRI_bind_legal (hD : s.reg? rD = some a) (imm : Word) (k : Word × Word → Res State) :
    (readRI rD imm s).bind k = k (a, imm) := by
  rw [readRI_eq_next (p := (a, imm)).mpr ⟨hD, rfl⟩, Res.bind_next]

/-! ### A result committed to the first operand's register (R76) -/

/-- Two registers read, then a result and flags of their values committed to the first. -/
theorem readRR_bind_commit_writes (hD : s.reg? rD = some a) (hS : s.reg? rS = some b) (r : Word × Word → Word)
    (f : Word × Word → Flags) :
    ∃ t, ((readRR rD rS s).bind fun p => commit rD (r p) (f p) s) = .next t ∧ WroteOnly s t rD (r (a, b)) ∧
      t.flags = f (a, b) ∧ SameBeyondRegisters s t := by
  rw [readRR_bind_legal hD hS]
  exact commit_writes hD _ _

/-- A register and the immediate word read, then a result and flags of both committed to the register. -/
theorem readRI_bind_commit_writes (hD : s.reg? rD = some a) (imm : Word) (r : Word × Word → Word)
    (f : Word × Word → Flags) :
    ∃ t, ((readRI rD imm s).bind fun p => commit rD (r p) (f p) s) = .next t ∧ WroteOnly s t rD (r (a, imm)) ∧
      t.flags = f (a, imm) ∧ SameBeyondRegisters s t := by
  rw [readRI_bind_legal hD imm]
  exact commit_writes hD _ _

end

/-! ### The instructions -/

/-- Settles O14: each form reads its operands and commits their sum or difference with all four flags. -/
theorem addSubResults : Obligations.AddSubResults := by
  intro s rD a hD
  refine ⟨fun rS b hS => ⟨?add, ?sub⟩, fun imm => ⟨?addi, ?subi⟩⟩
  case add => exact readRR_bind_commit_writes hD hS (fun p => p.1 + p.2) _
  case sub => exact readRR_bind_commit_writes hD hS (fun p => p.1 - p.2) _
  case addi => exact readRI_bind_commit_writes hD imm (fun p => p.1 + p.2) _
  case subi => exact readRI_bind_commit_writes hD imm (fun p => p.1 - p.2) _

/-- Settles O15: each form reads its operands and commits their product, conjunction, disjunction or exclusive
disjunction with `update`. -/
theorem mulLogicResults : Obligations.MulLogicResults := by
  intro s rD a b hD
  simp only [List.forall_mem_cons, List.not_mem_nil, false_implies, implies_true, and_true]
  refine ⟨⟨fun rS hS => ?mul, fun rS hS => ?and, fun rS hS => ?or, fun rS hS => ?xor⟩, ?muli, ?andi, ?ori, ?xori⟩
  case mul => exact readRR_bind_commit_writes hD hS (fun p => p.1 * p.2) _
  case and => exact readRR_bind_commit_writes hD hS (fun p => p.1 &&& p.2) _
  case or => exact readRR_bind_commit_writes hD hS (fun p => p.1 ||| p.2) _
  case xor => exact readRR_bind_commit_writes hD hS (fun p => p.1 ^^^ p.2) _
  case muli => exact readRI_bind_commit_writes hD b (fun p => p.1 * p.2) _
  case andi => exact readRI_bind_commit_writes hD b (fun p => p.1 &&& p.2) _
  case ori => exact readRI_bind_commit_writes hD b (fun p => p.1 ||| p.2) _
  case xori => exact readRI_bind_commit_writes hD b (fun p => p.1 ^^^ p.2) _

/-- Settles O18: the operands are read, and the divisor is checked before the commit. -/
theorem zeroDivisorRaises : Obligations.ZeroDivisorRaises := by
  intro s rD a hD
  simp only [List.forall_mem_cons, List.not_mem_nil, false_implies, implies_true, and_true]
  refine ⟨⟨fun rS hS => ?div, fun rS hS => ?mod⟩, ?divi, ?modi⟩
  case div => rw [exec, execDiv, readRR_bind_legal hD hS, divInto_zero]
  case mod => rw [exec, execMod, readRR_bind_legal hD hS, modInto_zero]
  case divi => rw [exec, execDivi, readRI_bind_legal hD, divInto_zero]
  case modi => rw [exec, execModi, readRI_bind_legal hD, modInto_zero]

end Sys2Proof.Machine
end

section
/-! PROOF. The memory, block and data-move instructions (R103 to R110): moves and loads as one commit, stores as one write
over the bus, and blocks cut at the element that faults. -/

namespace Sys2Proof.Machine

/-! ### Moves and loads, by their one commit (R103, R109) -/

section
variable {s : State} {rD rS : Reg} {b addr : Word}

/-- MOV with its source read is the commit of that value (R109). -/
theorem exec_mov_eq_commitUpdate (hS : s.reg? rS = some b) (rD : Reg) :
    exec (.mov rD rS) s = commitUpdate rD b s := by
  rw [exec, execMov, readReg_of_some hS, Res.bind_next]

/-- LOAD at an address that a read answers is the commit of the word there, after the outside agents (R103, R160). -/
theorem exec_load_eq_commitUpdate (hc : s.cfg.mapWf) (hS : s.reg? rS = some addr) (h : s.readableWord addr) (rD : Reg) :
    exec (.load rD rS) s = commitUpdate rD (s.agentsAct.wordAt addr) s.agentsAct := by
  rw [exec, execLoad, readReg_of_some hS, Res.bind_next, memRead_readable hc h, Res.bind_next]

end

/-- Settles O21: the three forms commit the value moved, MOVI and LOADI without reading anything first. -/
theorem moveResults : Obligations.MoveResults := by
  intro s rD a b hD
  have hcommit := commit_writes hD b (s.flags.update b)
  refine ⟨fun rS hS => ?mov, ?immediate⟩
  case mov =>
    rw [exec_mov_eq_commitUpdate hS]
    exact hcommit
  case immediate =>
    simp only [List.forall_mem_cons, List.not_mem_nil, false_implies, implies_true, and_true]
    exact ⟨hcommit, hcommit⟩

/-- Settles O23: the commit changes registers and flags, so that the rest is as the outside agents left it. -/
theorem loadResults : Obligations.LoadResults := by
  intro s rD rS a addr hwf hD hS hread
  have hD' : s.agentsAct.reg? rD = some a := (State.reg?_agentsAct s rD).trans hD
  obtain ⟨t, ht, ⟨hdest, hothers⟩, hflags, hbeyond⟩ :=
    commit_writes hD' (s.agentsAct.wordAt addr) (s.agentsAct.flags.update (s.agentsAct.wordAt addr))
  refine ⟨t, (exec_load_eq_commitUpdate hwf.2.1 hS hread rD).trans ht, ⟨hdest, fun r hr => ?_⟩, hflags, hbeyond.mem,
    hbeyond.halt, hbeyond.cfg, hbeyond.kbd, hbeyond.tmr, hbeyond.schedule, hbeyond.con⟩
  exact (hothers r hr).trans (State.reg?_agentsAct s r)

/-! ### Stores, by their one write (R104, R106) -/

/-- A word written over the bus to RAM or VRAM: the four bytes, one slot of the outside agents, and nothing else (R37). -/
theorem memWrite_stores {s : State} {a : Word} (hc : s.cfg.mapWf) (h : s.writableWord a) (v : Word) :
    ∃ t, memWrite a v s = .next t ∧ SameCpu s t ∧ StoredWord s t a.toNat v ∧ AgentsOnly 1 s t := by
  obtain ⟨ha, hram, hio⟩ := h
  have hwrite := memWrite_ram (v := v) hc ha hram hio
  exact ⟨_, hwrite, memWrite_sameCpu hwrite, .of_mem rfl, rfl, rfl, rfl, rfl⟩

/-- A word written over the bus to the I/O window reaches the device that claims it, after the outside agents (R148). -/
theorem memWrite_device {s : State} {a : Word} (hc : s.cfg.mapWf) (h : s.ioWord a) (v : Word) :
    memWrite a v s = .next (ioWriteWord a v s.agentsAct) := by
  obtain ⟨ha, hio, hend⟩ := h
  exact busWriteWord_io (s := s.agentsAct) hc ha hio hend

/-- Settles O24: both forms are the one write of the register's word. -/
theorem storeResults : Obligations.StoreResults := by
  intro s rD rS v addr hwf hD haddr
  have hstores := memWrite_stores hwf.2.1 haddr v
  refine ⟨fun hS => ?store, ?stori⟩
  case store =>
    rw [exec_store_eq_memWrite hD hS]
    exact hstores
  case stori =>
    rw [exec_stori_eq_memWrite hD]
    exact hstores

/-- Settles O25: both forms are the one write, and a device's write changes that device alone. -/
theorem storeToDeviceResults : Obligations.StoreToDeviceResults := by
  intro s rD rS v addr hwf hD haddr
  have hwrite := memWrite_device hwf.2.1 haddr v
  exact ⟨fun hS => (exec_store_eq_memWrite hD hS).trans hwrite, (exec_stori_eq_memWrite hD addr).trans hwrite,
    memWrite_sameCpu hwrite, ioWriteWord_mem addr v s.agentsAct, ioWriteWord_schedule addr v s.agentsAct⟩

/-! ### Blocks cut in two (R107, R108) -/

/-- MSET's elements are its first `m`, then the others. -/
theorem fillFrom_add (dst val : Word) (i m n : Nat) (s : State) :
    fillFrom dst val i (m + n) s = (fillFrom dst val i m s).bind (fillFrom dst val (i + m) n) := by
  induction m generalizing i s with
  | zero => rw [Nat.zero_add, fillFrom, Res.bind_next, Nat.add_zero]
  | succ m ih =>
    simp only [Nat.succ_add, fillFrom, Res.bind_assoc, ih, ← Nat.add_assoc, Nat.add_right_comm i m 1]

/-- The elements of an ascending copy are its first `m`, then the others. -/
theorem copyUp_add (dst src : Word) (i m n : Nat) (s : State) :
    copyUp dst src i (m + n) s = (copyUp dst src i m s).bind (copyUp dst src (i + m) n) := by
  induction m generalizing i s with
  | zero => rw [Nat.zero_add, copyUp, Res.bind_next, Nat.add_zero]
  | succ m ih =>
    simp only [Nat.succ_add, copyUp, Res.bind_assoc, ih, ← Nat.add_assoc, Nat.add_right_comm i m 1]

/-- The elements of a descending copy are its topmost `m`, then those below. -/
theorem copyDown_add (dst src : Word) (m n : Nat) (s : State) :
    copyDown dst src (m + n) s = (copyTop dst src (m + n) m s).bind (copyDown dst src n) := by
  induction m generalizing s with
  | zero => rw [Nat.zero_add, copyTop, Res.bind_next]
  | succ m ih => simp only [Nat.succ_add, copyDown, copyTop, Res.bind_assoc, ih, Nat.succ_sub_one]

section
variable {s t : State} {dst src val : Word} {i m n : Nat} {k : Fault}

/-- MSET ends with the fault of its element `i + m` when the `m` elements before it are done (R107, R143). -/
theorem fillFrom_fault (h : fillFrom dst val i m s = .next t) (hk : memWrite (elementAddress dst (i + m)) val t = .fault k) :
    fillFrom dst val i (m + 1 + n) s = .fault k := by
  rw [Nat.add_assoc, fillFrom_add, h, Res.bind_next, Nat.add_comm 1 n, fillFrom, hk, Res.bind_fault]

/-- An ascending copy ends with the fault of its element `i + m` when the `m` elements before it are done (R108, R143). -/
theorem copyUp_fault (h : copyUp dst src i m s = .next t) (hk : copyElement dst src (i + m) t = .fault k) :
    copyUp dst src i (m + 1 + n) s = .fault k := by
  rw [Nat.add_assoc, copyUp_add, h, Res.bind_next, Nat.add_comm 1 n, copyUp, hk, Res.bind_fault]

/-- A descending copy ends with the fault of its element `n` when the `m` elements above it are done (R108, R143). -/
theorem copyDown_fault (h : copyTop dst src (m + 1 + n) m s = .next t) (hk : copyElement dst src n t = .fault k) :
    copyDown dst src (m + 1 + n) s = .fault k := by
  rw [Nat.add_assoc, Nat.add_comm 1 n] at h ⊢
  rw [copyDown_add, h, Res.bind_next, copyDown, hk, Res.bind_fault]

end

/-- Settles O30: each order of a block is cut before the element that faults, which ends the chain. -/
theorem blockStopsAtFirstFault : Obligations.BlockStopsAtFirstFault := by
  intro s t rD rS dst x done left f hD hS hcount
  rw [exec_mset_eq_fillFrom hD hS, exec_mcpy_eq_copy hD hS, hcount]
  refine ⟨fun hdone hf => ?mset, fun hup hdone hf => ?up, fun hdown hdone hf => ?down⟩
  case mset => exact fillFrom_fault hdone (by rwa [Nat.zero_add])
  case up =>
    rw [hup, if_neg Bool.false_ne_true]
    exact copyUp_fault hdone (by rwa [Nat.zero_add])
  case down =>
    rw [if_pos hdown]
    exact copyDown_fault hdone hf

end Sys2Proof.Machine
end

section
/-! PROOF. The compare and jump instructions (R111 to R132): compares set flags alone, a jump reads one predicate of the
flags, and after CMP that predicate is an order of the operands. -/

namespace Sys2Proof.Machine

/-! ### Compares (R111 to R114) -/

section
variable {s : State} {rD rS : Reg} {a b : Word}

/-- CMP with its operands read sets the flags of their difference (R111). -/
theorem exec_cmp_eq_setFlags (hD : s.reg? rD = some a) (hS : s.reg? rS = some b) :
    exec (.cmp rD rS) s = .next (s.setFlags (Flags.updateSub a b (a - b))) := by
  rw [exec, execCmp, readRR_bind_legal hD hS, flagsOnly_eq]

end

/-- Settles O31: the operands read, then the flags set. -/
theorem compareResults : Obligations.CompareResults := by
  intro s rD a b hD
  refine ⟨fun rS hS => ⟨exec_cmp_eq_setFlags hD hS, ?test⟩, ?cmpi, ?testi⟩
  case test => rw [exec, execTest, readRR_bind_legal hD hS, flagsOnly_eq]
  case cmpi => rw [exec, execCmpi, readRI_bind_legal hD, flagsOnly_eq]
  case testi => rw [exec, execTesti, readRI_bind_legal hD, flagsOnly_eq]

/-! ### Jumps by their predicate (R115) -/

/-- What runs as a jump whose predicate is `p` sets PC to the target when `p` holds and else changes nothing. -/
theorem exec_jumpIf_decides {i : Instr} {s : State} {taken : Bool} {target : Word} {p : Prop}
    (hp : taken = true ↔ p) (hexec : exec i s = jumpIf taken target s) :
    (p → exec i s = .next (s.setPc target)) ∧ (¬p → exec i s = .next s) := by
  rw [hexec, ← hp]
  cases taken with
  | true => exact ⟨fun _ => jumpIf_true target s, fun h => absurd rfl h⟩
  | false => exact ⟨fun h => absurd h Bool.false_ne_true, fun _ => jumpIf_false target s⟩

theorem Flags.greater_iff {f : Flags} : f.greater = true ↔ ¬f.z = true ∧ ¬f.n = true := by
  rw [Flags.greater, Bool.and_eq_true, Bool.not_iff_not, Bool.not_iff_not]

theorem Flags.lessOrEqual_iff {f : Flags} : f.lessOrEqual = true ↔ f.n = true ∨ f.z = true := by
  rw [Flags.lessOrEqual, Bool.or_eq_true]

theorem Flags.above_iff {f : Flags} : f.above = true ↔ ¬f.c = true ∧ ¬f.z = true := by
  rw [Flags.above, Bool.and_eq_true, Bool.not_iff_not, Bool.not_iff_not]

theorem Flags.belowOrEqual_iff {f : Flags} : f.belowOrEqual = true ↔ f.c = true ∨ f.z = true := by
  rw [Flags.belowOrEqual, Bool.or_eq_true]

/-- Settles O32: each jump is `jumpIf` of its predicate. -/
theorem jumpResults : Obligations.JumpResults := by
  intro s target z n c
  simp only [List.forall_mem_cons, List.not_mem_nil, false_implies, implies_true, and_true]
  refine ⟨rfl, ?jz, ?je, ?jnz, ?jne, ?jn, ?jp, ?jg, ?jge, ?jl, ?jle, ?jc, ?jnc, ?ja, ?jae, ?jb, ?jbe⟩
  case jz | je | jn | jl | jc | jb => exact exec_jumpIf_decides Iff.rfl rfl
  case jnz | jne | jp | jge | jnc | jae => exact exec_jumpIf_decides Bool.not_iff_not rfl
  case jg => exact exec_jumpIf_decides Flags.greater_iff rfl
  case jle => exact exec_jumpIf_decides Flags.lessOrEqual_iff rfl
  case ja => exact exec_jumpIf_decides Flags.above_iff rfl
  case jbe => exact exec_jumpIf_decides Flags.belowOrEqual_iff rfl

/-! ### The flags of a comparison as an order (R22) -/

section
variable {a b : Word}

theorem updateSub_z_iff : (Flags.updateSub a b (a - b)).z = true ↔ a = b := beq_iff_eq.trans sub_eq_zero

theorem updateSub_c_iff {r : Word} : (Flags.updateSub a b r).c = true ↔ a.toNat < b.toNat := decide_eq_true_iff

theorem updateSub_above_iff : (Flags.updateSub a b (a - b)).above = true ↔ b.toNat < a.toNat := by
  rw [Flags.above_iff, updateSub_c_iff, updateSub_z_iff, ← BitVec.toNat_inj]
  omega

theorem updateSub_belowOrEqual_iff : (Flags.updateSub a b (a - b)).belowOrEqual = true ↔ a.toNat ≤ b.toNat := by
  rw [Flags.belowOrEqual_iff, updateSub_c_iff, updateSub_z_iff, ← BitVec.toNat_inj]
  omega

/-! The signed order, where the signed difference is a word. -/

section
variable (hrange : -2 ^ 31 ≤ a.toInt - b.toInt ∧ a.toInt - b.toInt < 2 ^ 31)
include hrange

/-- N is the sign of the exact difference. -/
theorem updateSub_n_iff : (Flags.updateSub a b (a - b)).n = true ↔ a.toInt < b.toInt := by
  have hn : (Flags.updateSub a b (a - b)).n = (a - b).msb := rfl
  have hexact : (a - b).toInt = a.toInt - b.toInt := by
    rw [BitVec.toInt_sub, Int.bmod_eq_of_le (by omega) (by omega)]
  rw [hn, BitVec.msb_eq_toInt, decide_eq_true_iff, hexact]
  omega

theorem updateSub_greater_iff : (Flags.updateSub a b (a - b)).greater = true ↔ b.toInt < a.toInt := by
  rw [Flags.greater_iff, updateSub_n_iff hrange, updateSub_z_iff, ← BitVec.toInt_inj]
  omega

theorem updateSub_lessOrEqual_iff : (Flags.updateSub a b (a - b)).lessOrEqual = true ↔ a.toInt ≤ b.toInt := by
  rw [Flags.lessOrEqual_iff, updateSub_n_iff hrange, updateSub_z_iff, ← BitVec.toInt_inj]
  omega

end

end

/-- Settles O33: each jump is `jumpIf` of its predicate, which on the flags of `a - b` is the order it is named after. -/
theorem jumpsAfterCompareOrder : Obligations.JumpsAfterCompareOrder := by
  intro s t rD rS a b target hD hS ht decides
  rw [exec_cmp_eq_setFlags hD hS] at ht
  cases ht
  refine ⟨?ja, ?jae, ?jb, ?jbe, ?jz, ?jnz, fun hrange => ⟨?jg, ?jge, ?jl, ?jle⟩⟩
  case ja => exact exec_jumpIf_decides updateSub_above_iff rfl
  case jae => exact exec_jumpIf_decides (Bool.not_iff_not.trans ((not_congr updateSub_c_iff).trans Nat.not_lt)) rfl
  case jb => exact exec_jumpIf_decides updateSub_c_iff rfl
  case jbe => exact exec_jumpIf_decides updateSub_belowOrEqual_iff rfl
  case jz => exact exec_jumpIf_decides updateSub_z_iff rfl
  case jnz => exact exec_jumpIf_decides (Bool.not_iff_not.trans (not_congr updateSub_z_iff)) rfl
  case jg => exact exec_jumpIf_decides (updateSub_greater_iff hrange) rfl
  case jge =>
    exact exec_jumpIf_decides (Bool.not_iff_not.trans ((not_congr (updateSub_n_iff hrange)).trans Int.not_lt)) rfl
  case jl => exact exec_jumpIf_decides (updateSub_n_iff hrange) rfl
  case jle => exact exec_jumpIf_decides (updateSub_lessOrEqual_iff hrange) rfl

end Sys2Proof.Machine
end

section
/-! PROOF. The call, stack and system instructions (R133 to R139): PUSH, CALL and SYSCALL as one push each, RET as one
pop, and a pop that undoes the push before it. -/

namespace Sys2Proof.Machine

/-! ### A push by HP and the new SP (R74) -/

section
variable {s : State} {x v target : Word}

/-- A push that finds HP at or above the new SP collides, with SP decremented. -/
theorem push_of_collision (hx : s.sp - 4#32 = x) (h : x.toNat ≤ s.hp.toNat) (v : Word) :
    push v s = .fault (.heapStackCollision x.toNat (s.setSp x)) := by
  subst hx
  exact push_eq_fault.mpr (.inl ⟨h, rfl⟩)

/-- A push that finds HP below the new SP is one write there, on the state in which SP has moved. -/
theorem push_of_room (hx : s.sp - 4#32 = x) (h : s.hp.toNat < x.toNat) (v : Word) :
    push v s = memWrite x v (s.setSp x) := by
  subst hx
  exact if_neg (Nat.not_le.mpr h)

/-- A transfer that finds HP below the new SP ends as its write of the return address ends (R165). -/
theorem enter_of_room (hx : s.sp - 4#32 = x) (h : s.hp.toNat < x.toNat) (target : Word) :
    (∀ t, memWrite x s.pc (s.setSp x) = .next t → enter target s = .next (t.setPc target)) ∧
      ∀ f, memWrite x s.pc (s.setSp x) = .fault f → enter target s = .fault f := by
  rw [← push_of_room hx h]
  exact ⟨fun t ht => enter_eq_next.mpr ⟨t, ht, rfl⟩, fun f => enter_eq_fault.mpr⟩

/-- A push into RAM or VRAM: SP moves, the word is at the new SP, one slot of the outside agents, and nothing else. -/
theorem push_stores (hc : s.cfg.mapWf) (hroom : s.roomToPush) (hw : s.writableWord (s.sp - 4#32)) (v : Word) :
    ∃ t, push v s = .next t ∧ SameCpu (s.setSp (s.sp - 4#32)) t ∧ StoredWord s t (s.sp - 4#32).toNat v ∧
      AgentsOnly 1 s t := by
  obtain ⟨t, ht, hcpu, hstored, hagents⟩ := memWrite_stores (s := s.setSp (s.sp - 4#32)) hc hw v
  exact ⟨t, (push_of_room rfl hroom v).trans ht, hcpu, ⟨hstored.others, hstored.bytes, hstored.canonical⟩,
    ⟨hagents.kbd, hagents.tmr, hagents.schedule, hagents.con⟩⟩

/-! ### The instructions that push, by their one push -/

variable {rD : Reg}

/-- PUSH with its operand read is the push of that value (R135). -/
theorem exec_push_eq_push (hD : s.reg? rD = some v) : exec (.push rD) s = push v s := by
  rw [exec, execPush, readReg_of_some hD, Res.bind_next]

/-- Each instruction that pushes does so from a state with the CPU's state of `s`, and ends with its push's fault. -/
theorem pushers_fault_as_push (hc : s.cfg.mapWf) (hD : s.reg? rD = some v) (target : Word) :
    ∀ p ∈ [(Instr.push rD, s), (.call target, s), (.syscall, s.agentsAct)], (p.1 = .syscall → s.syscallPasses) →
      SameCpu s p.2 ∧ ∃ w, ∀ f, push w p.2 = .fault f → exec p.1 s = .fault f := by
  simp only [List.forall_mem_cons, List.not_mem_nil, false_implies, implies_true, and_true]
  refine ⟨fun _ => ⟨.refl s, v, fun f hf => ?push⟩, fun _ => ⟨.refl s, s.pc, fun f hf => ?call⟩,
    fun hpasses => ⟨.agentsAct s, s.pc, fun f hf => ?syscall⟩⟩
  case push => exact (exec_push_eq_push hD).trans hf
  case call => exact enter_eq_fault.mpr hf
  case syscall => exact (execSyscall_of_passes hc (hpasses trivial)).trans (enter_eq_fault.mpr hf)

end

/-- Settles O34: the faults are those of the one push each instruction makes, and with HP below the new SP that push is
one write. -/
theorem pushChecksThenStores : Obligations.PushChecksThenStores := by
  intro s rD v target hwf hD x
  have hmap : s.cfg.mapWf := hwf.2.1
  refine ⟨fun p hp hpasses => ?faults, fun hroom => ⟨?push, ?call, ?callFault, fun hpasses => ?syscall, ?frame⟩⟩
  case faults =>
    intro u
    obtain ⟨hcpu, w, hpush⟩ := pushers_fault_as_push hmap hD target p hp hpasses
    have hx : p.2.sp - 4#32 = x := by rw [hcpu.sp]
    rw [← hcpu.cfg] at hmap
    rw [← hcpu.hp, ← hcpu.cfg]
    refine ⟨fun h => hpush _ (push_of_collision hx h w), fun hroom => ?_⟩
    have hstore : ∀ f, busWriteWord x w u.agentsAct = .fault f → exec p.1 s = .fault f :=
      fun f hf => hpush f ((push_of_room hx hroom w).trans hf)
    refine ⟨fun ha hm => hstore _ ?_, fun ha hend => hstore _ ?_, fun ha hrom => hstore _ ?_⟩
    · exact busWriteWord_misaligned hm ha
    · exact busWriteWord_invalid (s := u.agentsAct) hmap ha hend
    · exact busWriteWord_rom (s := u.agentsAct) hmap ha ((rom_end hmap).2 ▸ hrom)
  case push => exact (exec_push_eq_push hD).trans (push_of_room rfl hroom v)
  case call => exact (enter_of_room rfl hroom target).1
  case callFault => exact (enter_of_room rfl hroom target).2
  case syscall =>
    have hexec : exec .syscall s = enter s.syscallTarget s.agentsAct := execSyscall_of_passes hmap hpasses
    rw [hexec]
    exact enter_of_room (s := s.agentsAct) rfl hroom s.syscallTarget
  case frame => exact fun _ _ _ _ => ⟨memWrite_sameCpu, fun _ => memWrite_left⟩

/-- Settles O35: PUSH is the push of the register's value, and SP alone has moved. -/
theorem pushResults : Obligations.PushResults := by
  intro s rD v hwf hD hroom hw
  obtain ⟨t, ht, hcpu, hstored, hagents⟩ := push_stores hwf.2.1 hroom hw v
  exact ⟨t, (exec_push_eq_push hD).trans ht,
    ⟨hcpu.reg? .sp, fun r hr => (hcpu.reg? r).trans (State.reg?_setReg_other s _ hr)⟩,
    hcpu.flags, hcpu.halt, hcpu.cfg, hstored, hagents⟩

/-! ### CALL and RET (R133, R134) -/

/-- RET where SP reads a word goes to that word, with SP moved up. -/
theorem exec_ret_readable {s : State} (hc : s.cfg.mapWf) (h : s.readableWord s.sp) :
    exec .ret s = .next ((s.agentsAct.setSp (s.sp + 4#32)).setPc (s.agentsAct.wordAt s.sp)) :=
  leave_eq_next.mpr ⟨_, pop_readable hc h, rfl⟩

/-- Settles O37: CALL is a push and then a write of PC, RET a pop and then a write of PC. -/
theorem callAndReturnResults : Obligations.CallAndReturnResults := by
  intro s hwf
  refine ⟨fun target hroom hw => ?call, fun hread => ?ret⟩
  case call =>
    obtain ⟨t, ht, hcpu, hstored, hagents⟩ := push_stores hwf.2.1 hroom hw s.pc
    exact ⟨t.setPc target, enter_eq_next.mpr ⟨t, ht, rfl⟩, rfl, hcpu.sp, hcpu.regs, hcpu.hp, hcpu.flags,
      hcpu.halt, hcpu.cfg, ⟨hstored.others, hstored.bytes, hstored.canonical⟩,
      ⟨hagents.kbd, hagents.tmr, hagents.schedule, hagents.con⟩⟩
  case ret =>
    exact ⟨_, exec_ret_readable hwf.2.1 hread, rfl, rfl, rfl, rfl, rfl, rfl, rfl, rfl, rfl, rfl, rfl, rfl⟩

/-! ### A pop after a push (R133 to R136) -/

/-- The word that was stored is read back (R40). -/
theorem StoredWord.readWord_eq {s t : State} {a : Nat} {v : Word} (h : StoredWord s t a v) (hm : s.mem.wf = true) :
    t.mem.readWord a = v := by
  have hbyte := h.bytes hm
  rw [Memory.readWord, hbyte 1 (by omega), hbyte 2 (by omega), hbyte 3 (by omega), ← Nat.add_zero a,
    hbyte 0 (by omega), wordOfBytes_byteOfWord]

/-- A pop where SP stands on the word a push stored: that word, and SP where it was before the push. -/
theorem pop_of_stored {s t : State} {v : Word} (hc : s.cfg.mapWf) (hm : s.mem.wf = true)
    (hw : s.writableWord (s.sp - 4#32)) (hcfg : t.cfg = s.cfg) (hsp : t.sp = s.sp - 4#32)
    (hstored : StoredWord s t (s.sp - 4#32).toNat v) : pop t = .next (v, t.agentsAct.setSp s.sp) := by
  obtain ⟨ha, -, hio⟩ := hw
  rw [pop_bank (hcfg ▸ hc) (hsp ▸ ha) (hsp ▸ hcfg ▸ hio), hsp, hstored.readWord_eq hm, BitVec.sub_add_cancel]

/-- Settles O38: the push stored the word at the SP from which RET or POP takes it. -/
theorem callReturnsAndPushPops : Obligations.CallReturnsAndPushPops := by
  intro s t hwf hm hroom hw
  refine ⟨fun target hcall => ?call, fun r r' v w hr hr' hne hpush => ?push⟩
  case call =>
    obtain ⟨t', ht', hcpu, hstored, -⟩ := push_stores hwf.2.1 hroom hw s.pc
    obtain ⟨_, hu, rfl⟩ := enter_eq_next.mp hcall
    cases ht'.symm.trans hu
    have hpop := pop_of_stored (t := t'.setPc target) hwf.2.1 hm hw hcpu.cfg hcpu.sp
      ⟨hstored.others, hstored.bytes, hstored.canonical⟩
    exact ⟨_, leave_eq_next.mpr ⟨_, hpop, rfl⟩, rfl, rfl, hcpu.regs, hcpu.hp, hcpu.flags⟩
  case push =>
    obtain ⟨t', ht', hcpu, hstored, -⟩ := push_stores hwf.2.1 hroom hw v
    cases ht'.symm.trans ((exec_push_eq_push hr).symm.trans hpush)
    have hpop := pop_of_stored hwf.2.1 hm hw hcpu.cfg hcpu.sp hstored
    obtain ⟨w', hw'⟩ := State.reg?_some_of_some (t.agentsAct.setSp s.sp) hr'
    obtain ⟨u, hu, ⟨hdest, hothers⟩, -⟩ := commit_writes hw' v (t.flags.update v)
    refine ⟨u, ?_, hdest, Option.some.inj (hothers .sp hne.symm)⟩
    rw [exec, execPop, hpop, Res.bind_next]
    exact hu

/-! ### NOP and HLT (R138, R139) -/

/-- Settles O41: their meanings, with HLT's one update written out. -/
theorem nopAndHltResults : Obligations.NopAndHltResults := fun _ => ⟨rfl, rfl⟩

end Sys2Proof.Machine
end

section
/-! PROOF. SYSCALL's transfer (R137, R165) and the devices (R148 to R159): one access rule for a device register, whichever
device it is, and what each device's registers and agent do. -/

namespace Sys2Proof.Machine

/-! ### SYSCALL as a transfer (R137, R165) -/

/-- A slot of the outside agents that is over counts as one more (R160). -/
theorem AgentsOnly.of_agentsAct {n : Nat} {s t : State} (h : AgentsOnly n s.agentsAct t) : AgentsOnly (n + 1) s t :=
  ⟨h.kbd, h.tmr, h.schedule, h.con⟩

/-- A transfer with its stack in RAM or VRAM: the return address is at the new SP, PC is the target, one slot of the
outside agents, and nothing else (R165). -/
theorem enter_stores {s : State} (hc : s.cfg.mapWf) (hroom : s.roomToPush) (hw : s.writableWord (s.sp - 4#32))
    (target : Word) :
    ∃ t, enter target s = .next t ∧ SameCpu ((s.setSp (s.sp - 4#32)).setPc target) t ∧
      StoredWord s t (s.sp - 4#32).toNat s.pc ∧ AgentsOnly 1 s t := by
  obtain ⟨t, ht, hcpu, hstored, hagents⟩ := push_stores hc hroom hw s.pc
  exact ⟨t.setPc target, enter_eq_next.mpr ⟨t, ht, rfl⟩,
    ⟨hcpu.regs, rfl, hcpu.sp, hcpu.hp, hcpu.flags, hcpu.halt, hcpu.cfg⟩,
    ⟨hstored.others, hstored.bytes, hstored.canonical⟩, ⟨hagents.kbd, hagents.tmr, hagents.schedule, hagents.con⟩⟩

/-- Settles O39: past its checks SYSCALL is a transfer from the state in which the read of the table entry left the
machine. -/
theorem syscallEntersHandler : Obligations.SyscallEntersHandler := by
  intro s hwf entry target hrom hne hend hroom hw
  have hmap : s.cfg.mapWf := hwf.2.1
  have hbase : s.cfg.romBase = 0 := (rom_end hmap).1
  have hpasses : s.syscallPasses := ⟨hbase ▸ Nat.zero_le _, hrom, hne, hend⟩
  obtain ⟨t, ht, hcpu, hstored, hagents⟩ := enter_stores (s := s.agentsAct) hmap hroom hw target
  exact ⟨t, (execSyscall_of_passes hmap hpasses).trans ht, hcpu.pc, hcpu.sp, hcpu.regs, hcpu.hp, hcpu.flags, hcpu.halt,
    hcpu.cfg, ⟨hstored.others, hstored.bytes, hstored.canonical⟩, hagents.of_agentsAct⟩

/-! ### A register of a device on the bus (R148) -/

/-- The word that a device's register reads as (R152, R156, R157). -/
def State.deviceWord (s : State) (off : Nat) : Device → Word
  | .keyboard => s.kbd.readWord off
  | .console => s.con.readWord off
  | .timer => s.tmr.readWord off

/-- The state once a device's register has been written (R153, R156, R158). -/
def State.writeDevice (s : State) (off : Nat) (v : Word) : Device → State
  | .keyboard => s.setKbd (s.kbd.writeWord off v)
  | .console => s.setCon (s.con.writeWord off v)
  | .timer => s.setTmr (s.tmr.writeWord off v)

section
variable {s : State} {a : Word} {d : Device} {b off : Nat}

theorem ioReadWord_of_claimant (h : claimant s.cfg a.toNat = some (d, off)) : ioReadWord a s = s.deviceWord off d := by
  rw [ioReadWord, h]
  cases d <;> rfl

theorem ioWriteWord_of_claimant (h : claimant s.cfg a.toNat = some (d, off)) (v : Word) :
    ioWriteWord a v s = s.writeDevice off v d := by
  rw [ioWriteWord, h]
  cases d <;> rfl

theorem ioReadWord_unclaimed (h : claimant s.cfg a.toNat = none) : ioReadWord a s = 0#32 := by
  rw [ioReadWord, h]

theorem ioWriteWord_unclaimed (h : claimant s.cfg a.toNat = none) (v : Word) : ioWriteWord a v s = s := by
  rw [ioWriteWord, h]

theorem busReadWord_ioWord (hc : s.cfg.mapWf) (h : s.ioWord a) : busReadWord a s = .next (ioReadWord a s) := by
  obtain ⟨ha, hio, hend⟩ := h
  exact busReadWord_io hc ha hio hend

theorem busWriteWord_ioWord (hc : s.cfg.mapWf) (h : s.ioWord a) (v : Word) :
    busWriteWord a v s = .next (ioWriteWord a v s) := by
  obtain ⟨ha, hio, hend⟩ := h
  exact busWriteWord_io hc ha hio hend

/-- The list of the devices is complete (R149). -/
theorem mem_deviceAll (d : Device) : d ∈ Device.all := by cases d <;> decide

/-- In a legal configuration a device's register is a word of the I/O window, and the device claims it. -/
theorem ioWord_claimant_of_base (hwf : s.cfg.wf) (hb : s.cfg.deviceBase d = some b) (ha : off % 4 = 0) (ho : off < d.size) :
    s.ioWord (BitVec.ofNat 32 (b + off)) ∧ claimant s.cfg (BitVec.ofNat 32 (b + off)).toNat = some (d, off) := by
  obtain ⟨-, hmap, hdevices, -⟩ := hwf
  obtain ⟨hmod, hlow, hhigh⟩ := hdevices.1 d (mem_deviceAll d) b hb
  have hend := ioEnd_lt hmap
  have haddr : (BitVec.ofNat 32 (b + off)).toNat = b + off := by
    rw [BitVec.toNat_ofNat, Nat.mod_eq_of_lt (by omega)]
  rw [State.ioWord, haddr]
  exact ⟨by omega, claimant_of_base hdevices hb ho⟩

theorem busReadWord_device (hwf : s.cfg.wf) (hb : s.cfg.deviceBase d = some b) (ha : off % 4 = 0) (ho : off < d.size) :
    busReadWord (BitVec.ofNat 32 (b + off)) s = .next (s.deviceWord off d) := by
  obtain ⟨hio, hclaim⟩ := ioWord_claimant_of_base hwf hb ha ho
  rw [busReadWord_ioWord hwf.2.1 hio, ioReadWord_of_claimant hclaim]

theorem busWriteWord_device (hwf : s.cfg.wf) (hb : s.cfg.deviceBase d = some b) (ha : off % 4 = 0) (ho : off < d.size)
    (v : Word) : busWriteWord (BitVec.ofNat 32 (b + off)) v s = .next (s.writeDevice off v d) := by
  obtain ⟨hio, hclaim⟩ := ioWord_claimant_of_base hwf hb ha ho
  rw [busWriteWord_ioWord hwf.2.1 hio, ioWriteWord_of_claimant hclaim]

/-- The console's one register, OUTPUT_PRINT, stands at the console's base itself (R149, R156). -/
theorem console_access (hwf : s.cfg.wf) (hb : s.cfg.conBase = some b) :
    busReadWord (BitVec.ofNat 32 b) s = .next (s.con.readWord 0) ∧
      ∀ v, busWriteWord (BitVec.ofNat 32 b) v s = .next (s.setCon (s.con.writeWord 0 v)) := by
  have hsize : 0 < Device.console.size := by decide
  exact ⟨busReadWord_device (d := .console) (off := 0) hwf hb rfl hsize,
    busWriteWord_device (d := .console) (off := 0) hwf hb rfl hsize⟩

end

/-! ### The I/O map (R148, R149) -/

/-- Registered in the order keyboard, console, timer, the devices are packed from `IO_BASE` up (R148), whatever bases
they had. -/
theorem register_all_packs (c : Config) :
    ((({ c with kbdBase := none, conBase := none, tmrBase := none }.register .keyboard).register .console).register
        .timer) =
      { c with kbdBase := some c.ioBase, conBase := some (c.ioBase + 0x10), tmrBase := some (c.ioBase + 0x14) } := rfl

/-- A configuration with the bases of R149 is what that registration makes of it. -/
theorem register_all_of_bases {c : Config} (hk : c.kbdBase = some c.ioBase) (hc : c.conBase = some (c.ioBase + 0x10))
    (ht : c.tmrBase = some (c.ioBase + 0x14)) :
    ((({ c with kbdBase := none, conBase := none, tmrBase := none }.register .keyboard).register .console).register
        .timer) = c := by
  rw [register_all_packs, ← hk, ← hc, ← ht]

/-- Settles O46: one access rule for the three devices, the rest of the window without a claimant, and the layouts' bases
as those the registration gives. -/
theorem deviceMap : Obligations.DeviceMap := by
  refine ⟨fun s hwf => ⟨fun b off hb ha ho => ?keyboard, fun b hb => ?console, fun b off hb ha ho => ?timer,
    fun a hio hfree => ?unclaimed⟩, ?layouts⟩
  case keyboard =>
    exact ⟨busReadWord_device (d := .keyboard) hwf hb ha ho, busWriteWord_device (d := .keyboard) hwf hb ha ho⟩
  case console => exact console_access hwf hb
  case timer => exact ⟨busReadWord_device (d := .timer) hwf hb ha ho, busWriteWord_device (d := .timer) hwf hb ha ho⟩
  case unclaimed =>
    have hnone : claimant s.cfg a.toNat = none := claimant_eq_none.mpr hfree
    refine ⟨?_, fun v => ?_⟩
    · rw [busReadWord_ioWord hwf.2.1 hio, ioReadWord_unclaimed hnone]
    · rw [busWriteWord_ioWord hwf.2.1 hio, ioWriteWord_unclaimed hnone]
  case layouts =>
    simp only [List.forall_mem_cons, List.not_mem_nil, false_implies, implies_true, and_true]
    exact ⟨⟨rfl, rfl, rfl, register_all_of_bases rfl rfl rfl⟩, ⟨rfl, rfl, rfl, register_all_of_bases rfl rfl rfl⟩⟩

/-! ### The keyboard (R151 to R154) -/

section
variable {k : Keyboard} {q : List Word} {v c : Word} {n : Nat}

/-- CURRENT_CHAR is the newest character (R152). -/
theorem Keyboard.readWord_current (h : k.queue = q ++ [c]) : k.readWord 8 = c := by
  rw [Keyboard.readWord, h, List.getLastD_concat]

/-- Typing into a keyboard that has room (R154). -/
theorem Keyboard.queue_enqueue_of_lt (h : k.queue.length < n) (c : Word) : (k.enqueue n c).queue = k.queue ++ [c] := by
  rw [Keyboard.enqueue, if_neg (Nat.not_le.mpr h)]

/-- Typing into a full keyboard (R154). -/
theorem Keyboard.queue_enqueue_of_le (h : n ≤ k.queue.length) (c : Word) :
    (k.enqueue n c).queue = k.queue.tail ++ [c] := by
  rw [Keyboard.enqueue, if_pos h]

/-- Only CONTROL takes writes (R153, R164). -/
theorem Keyboard.writeWord_of_ne {off : Nat} (h : off ≠ 12) (v : Word) : k.writeWord off v = k := if_neg h

/-- CONTROL ignores a word that is none of its commands (R153; D18, entry 19). -/
theorem Keyboard.writeWord_control_ignored (h : v.toNat = 0 ∨ 3 < v.toNat) : k.writeWord 12 v = k := by
  have h1 : v ≠ 1#32 := by bv_omega
  have h2 : v ≠ 2#32 := by bv_omega
  have h3 : v ≠ 3#32 := by bv_omega
  rw [Keyboard.writeWord, if_pos rfl, if_neg h1, if_neg h2, if_neg h3]

/-- The host's typing touches the keyboard alone (R154, R160). -/
theorem hostType_eq_setKbd (c : Word) (s : State) :
    hostType c s = s.setKbd (s.kbd.enqueue s.cfg.kbdCapacity c) := rfl

end

/-- Settles O42: the registers by the buffer, and the machine's read as one access to the keyboard, which the outside
agents alone change. -/
theorem keyboardRegisterReads : Obligations.KeyboardRegisterReads := by
  intro k
  refine ⟨?first, rfl, fun q c => Keyboard.readWord_current, fun hempty => ?empty, rfl,
    fun s b off hwf hb hoff => ?machine⟩
  case first =>
    obtain ⟨queue⟩ := k
    cases queue <;> rfl
  case empty => rw [Keyboard.readWord, hempty, List.getLastD_nil]
  case machine =>
    have hsize : off < Device.keyboard.size := by rw [Device.size]; omega
    exact memRead_eq_next.mpr ⟨busReadWord_device (s := s.agentsAct) (d := .keyboard) hwf hb (by omega) hsize, rfl⟩

/-- Settles O43: CONTROL by its commands, and typing by whether the buffer is full. -/
theorem keyboardCommandsAndTyping : Obligations.KeyboardCommandsAndTyping := by
  intro k v c
  refine ⟨⟨List.drop_one.symm, rfl, rfl, Keyboard.writeWord_control_ignored,
      fun off hoff => Keyboard.writeWord_of_ne hoff v⟩,
    fun n hn hle => ⟨fun hroom => Keyboard.queue_enqueue_of_lt hroom c, fun oldest q hq hfull => ?full,
      Keyboard.length_enqueue hn hle c, Keyboard.readWord_current rfl⟩, hostType_eq_setKbd c⟩
  case full =>
    have hlen : k.queue.length = n := by rw [hq, List.length_cons, hfull]
    rw [Keyboard.queue_enqueue_of_le hlen.ge, hq, List.tail_cons]

/-! ### The console (R156) -/

/-- Settles O44: the register's two updates, and its accesses over the bus by the rule for every device. -/
theorem consolePrints : Obligations.ConsolePrints := by
  intro c v
  refine ⟨rfl, rfl, rfl, fun s b hwf hb => ?bus⟩
  obtain ⟨hread, hwrite⟩ := console_access hwf hb
  exact ⟨hwrite v, hread⟩

/-! ### The timer (R157 to R159) -/

section
variable (t : Timer) {v : Word} (d : Nat)

/-- CONTROL ignores a word that is none of its commands (R158; D18, entry 19). -/
theorem Timer.writeWord_control_ignored (h : v.toNat = 0 ∨ 2 < v.toNat) : t.writeWord 12 v = t := by
  have h1 : v ≠ 1#32 := by bv_omega
  have h2 : v ≠ 2#32 := by bv_omega
  rw [Timer.writeWord, if_neg (by decide), if_pos rfl, if_neg h1, if_neg h2]

/-- A tick advances the time, modulo 2^32 (R159). -/
theorem Timer.tick_time_toNat : (t.tick d).time.toNat = (t.time.toNat + d) % 2 ^ 32 := by
  rw [Timer.tick, BitVec.toNat_add, BitVec.toNat_ofNat, Nat.add_mod_mod]

/-- A tick latches the equality of the new time with COMPARE_VALUE (R159). -/
theorem Timer.tick_status_iff : (t.tick d).status = true ↔ t.status = true ∨ (t.tick d).time = t.compare := by
  rw [Timer.tick, Bool.or_eq_true, beq_iff_eq]

end

/-- Settles O45: the registers and commands one by one, and the tick by the time it reaches. -/
theorem timerRegistersAndTick : Obligations.TimerRegistersAndTick := by
  intro t v d
  refine ⟨⟨rfl, rfl, rfl, rfl⟩, ⟨rfl, rfl, rfl, rfl, rfl, t.writeWord_control_ignored⟩, t.tick_time_toNat d, rfl, ?status⟩
  rw [t.tick_status_iff, ← t.tick_time_toNat, BitVec.toNat_inj]

end Sys2Proof.Machine
end

section
/-! PROOF. Reset and the loader (R5, R170, R172, R173): the reset values as numbers, the invariant at reset, and what
loading leaves at each address. -/

namespace Sys2Proof.Machine

/-! ### Addresses of the memory map as words (R17, R31) -/

/-- A number up to `IO_END` is the value of its word (R17). -/
theorem toNat_ofNat_of_le_ioEnd {c : Config} (hc : c.mapWf) {a : Nat} (h : a ≤ c.ioEnd) :
    (BitVec.ofNat 32 a).toNat = a := by
  have hend := ioEnd_lt hc
  rw [BitVec.toNat_ofNat, Nat.mod_eq_of_lt (by omega)]

/-- Every byte array ends by the start of the I/O window (R31). -/
theorem Bank.end_le_ioBase {c : Config} (hc : c.mapWf) (b : Bank) : b.base c + b.size c ≤ c.ioBase := by
  have hregions := region_ends c
  cases b with
  | rom => exact (rom_end hc).2.trans_le (by omega)
  | ram => exact hregions.2.1
  | vram => exact le_rfl

/-! ### Reset (R5, R170) -/

theorem resetWith_pc_toNat {c : Config} (hc : c.mapWf) : (State.resetWith c).pc.toNat = c.ramBase := by
  have hregions := region_ends c
  exact toNat_ofNat_of_le_ioEnd hc (a := c.ramBase) (by omega)

theorem resetWith_sp_toNat {c : Config} (hc : c.mapWf) :
    (State.resetWith c).sp.toNat = c.ramBase + c.ramSize - 4 := by
  have hregions := region_ends c
  exact toNat_ofNat_of_le_ioEnd hc (a := c.ramEnd - 4) (by omega)

/-- The heap starts inside RAM (R33), so its start is an address. -/
theorem resetWith_hp_toNat {c : Config} (hc : c.mapWf) :
    (State.resetWith c).hp.toNat = c.ramBase + c.heapOffset := by
  have hregions := region_ends c
  have hram : c.ramEnd = c.ramBase + c.ramSize := rfl
  have hheap : c.heapOffset < c.ramSize := by
    obtain ⟨-, -, -, -, -, -, h, -⟩ := hc
    exact h
  exact toNat_ofNat_of_le_ioEnd hc (a := c.ramBase + c.heapOffset) (by omega)

/-- Settles O51: the three pointers are addresses of the map, the other values are fields of the reset state, and the
two layouts are computed. -/
theorem resetValues : Obligations.ResetValues := by
  refine ⟨fun c hwf => ?every, rfl, rfl, rfl, rfl, rfl, rfl⟩
  have hmap : c.mapWf := hwf.2.1
  exact ⟨resetWith_pc_toNat hmap, resetWith_sp_toNat hmap, resetWith_hp_toNat hmap, rfl, rfl, rfl⟩

/-- A machine with nothing in its memory, its keyboard or its flags needs only a legal configuration. -/
theorem resetWith_inv {c : Config} (hwf : c.wf) : (State.resetWith c).Inv where
  config := hwf
  memory := ⟨rfl, List.forall_mem_nil _⟩
  keyboard := Nat.zero_le _
  flags := fun ⟨hz, _⟩ => Bool.false_ne_true hz

/-- Settles O53: a legal configuration is all it takes, and both layouts are computed to be legal. -/
theorem resetMeetsInvariant : Obligations.ResetMeetsInvariant :=
  ⟨fun _ => resetWith_inv, resetWith_inv (by decide), resetWith_inv (by decide)⟩

/-! ### Bytes placed in memory -/

/-- Placing bytes leaves what lies below them alone. -/
theorem Memory.read_writeBytes_below (m : Memory) (bs : List Byte) {a x : Nat} (h : x < a) :
    (m.writeBytes a bs).read x = m.read x := by
  induction bs generalizing m a with
  | nil => rfl
  | cons b bs ih => rw [Memory.writeBytes, ih _ (by omega), Memory.read_write_other _ _ (by omega)]

/-- From the first placed byte on an address holds the byte placed there, and past the last one what it held. -/
theorem Memory.read_writeBytes_from {m : Memory} (hm : m.wf = true) (bs : List Byte) {a x : Nat} (h : a ≤ x) :
    (m.writeBytes a bs).read x = bs.getD (x - a) (m.read x) := by
  induction bs generalizing m a with
  | nil => rfl
  | cons b bs ih =>
    rw [Memory.writeBytes]
    obtain rfl | hlt := h.eq_or_lt
    · rw [Memory.read_writeBytes_below _ _ (Nat.lt_succ_self a), Memory.read_write_same hm, Nat.sub_self,
        List.getD_cons_zero]
    · have hindex : x - a = x - (a + 1) + 1 := by omega
      rw [ih (Memory.wf_write hm a b) hlt, Memory.read_write_other _ _ hlt.ne', hindex, List.getD_cons_succ]

/-! ### The loader (R172, R173) -/

/-- The loader's byte write inside its region (R173). -/
theorem directWrite_of_holds {b : Bank} {a : Word} {s : State} (h : b.holds s.cfg a.toNat = true) (v : Byte) :
    directWrite b a v s = .next (s.setMem (s.mem.write a.toNat v)) := if_pos h

/-- A run of bytes that fits its region is placed there and changes nothing else (R173). -/
theorem directWrites_of_fits {b : Bank} {a : Nat} {vs : List Byte} {s : State} (hc : s.cfg.mapWf)
    (hbase : b.base s.cfg ≤ a) (hfits : a + vs.length ≤ b.base s.cfg + b.size s.cfg) :
    directWrites b (BitVec.ofNat 32 a) vs s = .next (s.setMem (s.mem.writeBytes a vs)) := by
  induction vs generalizing a s with
  | nil => rfl
  | cons v vs ih =>
    rw [List.length_cons] at hfits
    have hbank := b.end_le_ioBase hc
    have hregions := region_ends s.cfg
    have ha : (BitVec.ofNat 32 a).toNat = a := toNat_ofNat_of_le_ioEnd hc (by omega)
    have hholds : b.holds s.cfg (BitVec.ofNat 32 a).toNat = true := Bank.holds_iff.mpr (by omega)
    rw [directWrites, directWrite_of_holds hholds, Res.bind_next, ha, ← BitVec.ofNat_add]
    exact ih (s := s.setMem (s.mem.write a v)) hc (Nat.le_succ_of_le hbase) (by rw [State.setMem_cfg]; omega)

/-- The memory of a machine with its two images placed (R172). -/
def loadedMemory (c : Config) (rom ram : List Byte) : Memory :=
  (Memory.writeBytes [] c.romBase rom).writeBytes c.ramBase ram

/-- Loading images that fit changes the memory, PC and the schedule of the reset state (R172). -/
theorem boot_of_fits {c : Config} (hc : c.mapWf) {rom ram : List Byte} (hrom : rom.length ≤ c.romSize)
    (hram : ram.length ≤ c.ramSize) (entry : Word) (sched : List (List AgentEvent)) :
    boot c rom ram entry sched =
      .next { State.resetWith c with mem := loadedMemory c rom ram, pc := entry, schedule := sched } := by
  have hplaceRom := directWrites_of_fits (b := .rom) (a := c.romBase) (s := State.resetWith c) hc le_rfl
    (Nat.add_le_add_left hrom _)
  have hplaceRam := directWrites_of_fits (b := .ram) (a := c.ramBase)
    (s := (State.resetWith c).setMem (Memory.writeBytes [] c.romBase rom)) hc le_rfl (Nat.add_le_add_left hram _)
  rw [boot, hplaceRom, Res.bind_next]
  exact congrArg (Res.bind · _) hplaceRam

/-- The ROM image stands below `RAM_BASE`, the RAM image from there on, and nothing else anywhere (R172; zeros: D16,
entries 1, 2, 27). -/
theorem read_loadedMemory {c : Config} (hc : c.mapWf) {rom : List Byte} (hrom : rom.length ≤ c.romSize)
    (ram : List Byte) (x : Nat) :
    (loadedMemory c rom ram).read x = if x < c.ramBase then rom.getD x 0#8 else ram.getD (x - c.ramBase) 0#8 := by
  obtain ⟨hbase, hend⟩ := rom_end hc
  have hromRead : (Memory.writeBytes [] c.romBase rom).read x = rom.getD x 0#8 := by
    rw [Memory.read_writeBytes_from rfl rom (by omega), hbase, Nat.sub_zero, Memory.read_nil]
  rw [loadedMemory]
  split
  next hx => rw [Memory.read_writeBytes_below _ _ hx, hromRead]
  next hx =>
    have hpast : rom.getD x 0#8 = 0#8 := List.getD_eq_default _ _ (by omega)
    rw [Memory.read_writeBytes_from (Memory.wf_writeBytes rfl _ _) ram (by omega), hromRead, hpast]

/-- Settles O49: the state that loading answers, and its memory read address by address. -/
theorem bootPlacesImages : Obligations.BootPlacesImages := by
  intro c rom ram entry sched hwf hrom hram
  have hmap : c.mapWf := hwf.2.1
  exact ⟨_, boot_of_fits hmap hrom hram entry sched, read_loadedMemory hmap hrom ram, rfl, rfl, rfl, rfl, rfl, rfl,
    rfl, rfl⟩

end Sys2Proof.Machine
end

section
/-! PROOF. The fields that take part in decoding (R50), the divisions (R83, R84), and the instructions of one operand (R90
to R94). -/

namespace Sys2Proof

/-! ### The fields a head depends on (R47, R50) -/

/-- The field `rD` is one that the head's instructions use: they have a register operand. -/
def Head.UsesRD : Head → Prop
  | .unknown _ => False
  | .oneWord i => i.regs ≠ []
  | .twoWords k => ∃ imm, (k imm).regs ≠ []

/-- The field `rS` is one that the head's instruction uses: for a second register or for a shift count (R49). -/
def Head.UsesRS : Head → Prop
  | .oneWord i => i.regs.length = 2 ∨ ∃ d n, i = .shl d n ∨ i = .shr d n
  | _ => False

/-- A number's head depends on the fields that it uses alone, by the format of the number's row. -/
theorem headOf_congr {al : Aliases} {number : Nat} {opcode rD rS rD' rS' : Byte}
    (hD : (headOf al number opcode rD rS).UsesRD → rD' = rD) (hS : (headOf al number opcode rD rS).UsesRS → rS' = rS) :
    headOf al number opcode rD' rS' = headOf al number opcode rD rS := by
  match number with
  | 1 | 2 | 3 | 4 | 5 | 16 | 17 | 18 | 24 | 25 | 28 | 29 | 30 | 32 | 34 =>
    rw [hD (List.cons_ne_nil _ _), hS (.inl rfl)]
  | 22 => rw [hD (List.cons_ne_nil _ _), hS (.inr ⟨_, _, .inl rfl⟩)]
  | 23 => rw [hD (List.cons_ne_nil _ _), hS (.inr ⟨_, _, .inr rfl⟩)]
  | 11 | 12 | 13 | 14 | 15 | 55 | 56 =>
    rw [hD (List.cons_ne_nil _ _)]
    rfl
  | 6 | 7 | 8 | 9 | 10 | 19 | 20 | 21 | 26 | 27 | 31 | 33 | 35 =>
    rw [hD ⟨0#32, List.cons_ne_nil _ _⟩]
    rfl
  | 36 | 37 | 38 | 39 | 40 | 41 | 42 | 43 | 44 | 45 | 46 | 47 | 48 | 49 | 50 | 51 | 52 | 53 => rfl
  | 54 | 57 | 58 | 59 => rfl
  | 0 | _ + 60 => rfl

/-- Two words decode alike that have the same opcode byte, and the same fields where the first word's head uses them. -/
theorem decodeHead_congr {c : Config} {w w' : Word} (hop : opcodeField w' = opcodeField w)
    (hD : (decodeHead c w).UsesRD → rDField w' = rDField w) (hS : (decodeHead c w).UsesRS → rSField w' = rSField w) :
    decodeHead c w' = decodeHead c w := by
  cases hn : catalogNumber c.opcodeMap (opcodeField w) with
  | none =>
    have hmem := catalogNumber_eq_none.mp hn
    rw [decodeHead_of_not_mem hmem, decodeHead_of_not_mem (hop.symm ▸ hmem), hop]
  | some number =>
    rw [decodeHead_of_catalogNumber hn] at hD hS ⊢
    rw [decodeHead_of_catalogNumber (hop.symm ▸ hn), hop]
    exact headOf_congr hD hS

/-- Settles O4: a head depends on the opcode byte and on the fields it uses. -/
theorem unusedBitsAreIgnored : Obligations.UnusedBitsAreIgnored := by
  intro c w w' hop
  refine ⟨fun i hd hD hS => ?oneWord, fun k hd hD => ?twoWords⟩ <;> rw [← hd]
  case oneWord => exact decodeHead_congr hop (hd ▸ hD) (hd ▸ hS)
  case twoWords => exact decodeHead_congr hop (hd ▸ fun ⟨imm, himm⟩ => hD imm himm) (hd ▸ False.elim)

end Sys2Proof

namespace Sys2Proof.Machine

/-! ### Quotient and remainder as the operations of words (R83, R84, D7) -/

section
variable {a b : Word}

theorem quotient_unsigned_eq : quotient .unsigned a b = a / b := by
  rw [quotient, ← BitVec.toNat_udiv, BitVec.ofNat_toNat, BitVec.setWidth_eq]

theorem remainder_unsigned_eq : remainder .unsigned a b = a % b := by
  rw [remainder, ← BitVec.toNat_umod, BitVec.ofNat_toNat, BitVec.setWidth_eq]

/-- The signed remainder is that of the truncating division. -/
theorem remainder_signed_eq_ofInt : remainder .signed a b = BitVec.ofInt 32 (a.toInt.tmod b.toInt) := by
  rw [remainder, ← Int.tmod_def]

/-- No signed remainder is cut: as an integer it is that of the truncating division. -/
theorem remainder_signed_toInt : (remainder .signed a b).toInt = a.toInt.tmod b.toInt := by
  rw [remainder_signed_eq_ofInt, ← BitVec.toInt_srem, BitVec.ofInt_toInt]

/-- The dividend from quotient and remainder, in either mode: the identity of the integers, modulo 2^32 (R84). -/
theorem mul_quotient_add_remainder (m : DivMode) : b * quotient m a b + remainder m a b = a := by
  cases m with
  | signed =>
    calc b * quotient .signed a b + remainder .signed a b
        = BitVec.ofInt 32 (b.toInt * a.toInt.tdiv b.toInt + a.toInt.tmod b.toInt) := by
          rw [BitVec.ofInt_add, BitVec.ofInt_mul, BitVec.ofInt_toInt, remainder_signed_eq_ofInt, quotient]
      _ = a := by rw [Int.mul_tdiv_add_tmod, BitVec.ofInt_toInt]
  | unsigned =>
    calc b * quotient .unsigned a b + remainder .unsigned a b
        = BitVec.ofNat 32 (b.toNat * (a.toNat / b.toNat) + a.toNat % b.toNat) := by
          rw [BitVec.ofNat_add, BitVec.ofNat_mul, BitVec.ofNat_toNat, BitVec.setWidth_eq, quotient, remainder]
      _ = a := by rw [Nat.div_add_mod, BitVec.ofNat_toNat, BitVec.setWidth_eq]

theorem tmod_mul_self_nonneg (x y : Int) : 0 ≤ x.tmod y * x := by
  rw [← Int.sign_nonneg_iff, Int.sign_mul, Int.sign_tmod]
  split
  · exact (zero_mul _).ge
  · exact mul_self_nonneg _

end

/-- Settles O17: the identity in either mode, the bounds through the integers, and the one quotient that wraps by
evaluation. -/
theorem quotientAndRemainderAgree : Obligations.QuotientAndRemainderAgree := by
  intro m a b hb
  refine ⟨mul_quotient_add_remainder m, ?unsigned, ?signed⟩
  case unsigned =>
    rintro rfl
    have hpos : 0 < b.toNat := Nat.pos_of_ne_zero fun h => hb (BitVec.eq_of_toNat_eq h)
    rw [remainder_unsigned_eq, BitVec.toNat_umod]
    exact Nat.mod_lt _ hpos
  case signed =>
    rintro rfl
    have hpos : 0 < b.toInt.natAbs := Int.natAbs_pos.mpr fun h => hb (BitVec.eq_of_toInt_eq h)
    rw [remainder_signed_toInt, Int.natAbs_tmod]
    refine ⟨Nat.mod_lt _ hpos, tmod_mul_self_nonneg _ _, ?_⟩
    rintro rfl rfl
    decide

/-! ### DIV, DIVI, MOD, MODI (R83, R84, R88, R89) -/

/-- The quotient and the remainder of a mode, by the division of integers or of naturals that goes with it. -/
theorem quotient_remainder_eq {m : DivMode} {a b q r : Word}
    (h : m = .signed ∧ q = BitVec.ofInt 32 (a.toInt.tdiv b.toInt) ∧ r = BitVec.ofInt 32 (a.toInt.tmod b.toInt) ∨
      m = .unsigned ∧ q.toNat = a.toNat / b.toNat ∧ r.toNat = a.toNat % b.toNat) :
    quotient m a b = q ∧ remainder m a b = r := by
  obtain ⟨rfl, rfl, rfl⟩ | ⟨rfl, hq, hr⟩ := h
  · exact ⟨rfl, remainder_signed_eq_ofInt⟩
  · rw [quotient_unsigned_eq, remainder_unsigned_eq]
    exact ⟨BitVec.eq_of_toNat_eq (BitVec.toNat_udiv.trans hq.symm),
      BitVec.eq_of_toNat_eq (BitVec.toNat_umod.trans hr.symm)⟩

/-- Settles O16: the operands are read, and past the check of the divisor the quotient or the remainder is committed. -/
theorem divModResults : Obligations.DivModResults := by
  intro s rD a b q r hD hb hmode
  obtain ⟨hq, hr⟩ := quotient_remainder_eq hmode
  have hdiv : divInto rD a b s = commitUpdate rD q s := by rw [divInto_of_ne hb, hq]
  have hmod : modInto rD a b s = commitUpdate rD r s := by rw [modInto_of_ne hb, hr]
  have hquotient := commit_writes hD q (s.flags.update q)
  have hremainder := commit_writes hD r (s.flags.update r)
  simp only [List.forall_mem_cons, List.not_mem_nil, false_implies, implies_true, and_true]
  refine ⟨⟨fun rS hS => ?div, fun rS hS => ?mod⟩, ?divi, ?modi⟩
  case div =>
    rw [exec, execDiv, readRR_bind_legal hD hS, hdiv]
    exact hquotient
  case mod =>
    rw [exec, execMod, readRR_bind_legal hD hS, hmod]
    exact hremainder
  case divi =>
    rw [exec, execDivi, readRI_bind_legal hD, hdiv]
    exact hquotient
  case modi =>
    rw [exec, execModi, readRI_bind_legal hD, hmod]
    exact hremainder

/-! ### INC, DEC, NEG, NOT, CLR (R90 to R94, D8) -/

/-- A unary instruction commits its function of the old value with `update`. -/
theorem unaryInto_writes {s : State} {rD : Reg} {a : Word} (hD : s.reg? rD = some a) (f : Word → Word) :
    ∃ t, unaryInto f rD s = .next t ∧ WroteOnly s t rD (f a) ∧ t.flags = s.flags.update (f a) ∧
      SameBeyondRegisters s t := by
  rw [unaryInto, readReg_of_some hD, Res.bind_next]
  exact commit_writes hD _ _

/-- Settles O19: four unary functions of the old value, and CLR's commit of 0, which reads nothing. -/
theorem unaryResults : Obligations.UnaryResults := by
  intro s rD a hD
  simp only [List.forall_mem_cons, List.not_mem_nil, false_implies, implies_true, and_true]
  refine ⟨?inc, ?dec, ?neg, ?not, ?clr⟩
  case inc => exact unaryInto_writes hD fun x => x + 1#32
  case dec => exact unaryInto_writes hD fun x => x - 1#32
  case neg =>
    rw [← BitVec.zero_sub]
    exact unaryInto_writes hD fun x => 0#32 - x
  case not =>
    have hnot : a ^^^ 0xFFFFFFFF#32 = ~~~a := BitVec.xor_allOnes
    rw [hnot]
    exact unaryInto_writes hD fun x => ~~~x
  case clr => exact commit_writes hD _ _

end Sys2Proof.Machine
end

section
/-! PROOF. SYSCALL's faults (R137), the byte lanes of devices (R150), `allocate_heap` (R175), and the reset values that
are the spec's choice (R29, R172). -/

namespace Sys2Proof.Machine

/-! ### SYSCALL's own checks (R137, D22) -/

section
variable {s : State} (hc : s.cfg.mapWf)
include hc

/-- A table entry outside ROM is refused before the bus is accessed. -/
theorem execSyscall_of_outside_rom (h : ¬s.syscallEntryAt.toNat < s.cfg.ramBase) :
    execSyscall s = .fault (.syscallOutOfRange (s.regs.get 0) s) :=
  if_neg (mt (Bank.holds_rom hc).mp h)

/-- With its table entry in ROM, SYSCALL reads the entry and then makes its other two checks. -/
theorem execSyscall_of_in_rom (h : s.syscallEntryAt.toNat < s.cfg.ramBase) :
    execSyscall s =
      if s.syscallTarget = 0#32 then .fault (.syscallNotImplemented (s.regs.get 0) s.agentsAct)
      else if s.cfg.ioEnd ≤ s.syscallTarget.toNat then .fault (.syscallInvalidTarget s.syscallTarget s.agentsAct)
      else enter s.syscallTarget s.agentsAct := by
  have hregions := region_ends s.cfg
  have hread : memRead s.syscallEntryAt s = .next (s.syscallTarget, s.agentsAct) :=
    memRead_bank hc (syscallEntryAt_mod hc) (by omega)
  have hexec : execSyscall s = _ := if_pos ((Bank.holds_rom hc).mpr h)
  exact hexec.trans (congrArg (Res.bind · _) hread)

end

/-- Settles O40: the three checks in their order, and past them a transfer, which faults as its push does. -/
theorem syscallFaults : Obligations.SyscallFaults := by
  intro s hwf n entry target inRom
  have hmap : s.cfg.mapWf := hwf.2.1
  have hrom : inRom ↔ s.syscallEntryAt.toNat < s.cfg.ramBase := by rw [← (rom_end hmap).2]; rfl
  refine ⟨fun hout => ?outOfRange, fun hin hzero => ?notImplemented, fun hin hne hend => ?invalidTarget,
    fun hin hne hend f hf => ?push⟩
  case outOfRange => exact execSyscall_of_outside_rom hmap (mt hrom.mpr hout)
  case notImplemented => exact (execSyscall_of_in_rom hmap (hrom.mp hin)).trans (if_pos hzero)
  case invalidTarget =>
    exact (execSyscall_of_in_rom hmap (hrom.mp hin)).trans ((if_neg hne).trans (if_pos hend))
  case push =>
    obtain ⟨hcpu, hpush⟩ := push_left hf
    have hexec : execSyscall s = enter target s.agentsAct :=
      (execSyscall_of_in_rom hmap (hrom.mp hin)).trans ((if_neg hne).trans (if_neg (Nat.not_le.mpr hend)))
    exact ⟨hexec.trans (enter_eq_fault.mpr hf), hpush, hcpu.sp⟩

/-! ### Byte lanes of the I/O window (R150, D18) -/

theorem containingWord_toNat (a : Word) : (containingWord a).toNat = a.toNat / 4 * 4 := by
  have hmask : ~~~3#32 = BitVec.allOnes 32 <<< 2 := by decide
  have hlt := a.isLt
  rw [containingWord, hmask, ← BitVec.shiftLeft_ushiftRight, BitVec.toNat_shiftLeft, BitVec.toNat_ushiftRight,
    Nat.shiftRight_eq_div_pow, Nat.shiftLeft_eq]
  omega

section
variable {s : State} {a : Word} {k : Nat}

/-- The bytes of a word of the I/O window lie in the window, their word is that word, and their lanes are its four. -/
theorem ioWord_byte (hc : s.cfg.mapWf) (h : s.ioWord a) (hk : k < 4) :
    route s.cfg (a + BitVec.ofNat 32 k).toNat = some .io ∧ containingWord (a + BitVec.ofNat 32 k) = a ∧
      laneShift (a + BitVec.ofNat 32 k) = 8 * k := by
  obtain ⟨ha, hio, hend⟩ := h
  have hbase := ioBase_mod hc
  have hlimit := ioEnd_lt hc
  have hsize : s.cfg.ioEnd % 4 = 0 := by
    have hioEnd : s.cfg.ioEnd = s.cfg.ioBase + s.cfg.ioSize := rfl
    obtain ⟨-, -, -, -, -, -, -, -, hioSize, -⟩ := hc
    omega
  have haddr : (a + BitVec.ofNat 32 k).toNat = a.toNat + k := by
    rw [BitVec.toNat_add, BitVec.toNat_ofNat]
    omega
  refine ⟨(route_eq_io hc).mpr (by omega), BitVec.eq_of_toNat_eq ?_, ?_⟩
  · rw [containingWord_toNat]
    omega
  · rw [laneShift]
    omega

/-- The lane of a word, as R150 cuts it out. -/
theorem setWidth_ushiftRight_lane (w : Word) (n : Nat) : (w >>> n).setWidth 8 = w.extractLsb' n 8 := by
  ext i hi
  simp

/-- A byte shifted to lane `k` has its bits in that lane and nothing in another. -/
theorem getLsbD_shiftLeft_lane (v : Byte) {j i : Nat} (hj : j < 4) (hi : i < 8) :
    (v.setWidth 32 <<< (8 * k)).getLsbD (8 * j + i) = (decide (j = k) && v.getLsbD i) := by
  rw [BitVec.getLsbD_shiftLeft, BitVec.getLsbD_setWidth]
  obtain hlt | rfl | hgt := Nat.lt_trichotomy j k
  · have hbelow : 8 * j + i < 8 * k := by omega
    simp [hbelow, hlt.ne]
  · have hbit : 8 * j + i < 32 := by omega
    simp [hbit, hi.trans]
  · have habove : 8 ≤ 8 * j + i - 8 * k := by omega
    simp [BitVec.getLsbD_of_ge v _ habove, hgt.ne']

/-- A word with one lane replaced has the new byte there and keeps its other lanes. -/
theorem extractLsb'_mergeLane {x : Word} (hx : laneShift x = 8 * k) (w : Word) (v : Byte) {j : Nat} (hj : j < 4) :
    (mergeLane x w v).extractLsb' (8 * j) 8 = if j = k then v else w.extractLsb' (8 * j) 8 := by
  have hones : 0xFF#32 = (BitVec.allOnes 8).setWidth 32 := by decide
  ext i hi
  have hbit : 8 * j + i < 32 := by omega
  rw [mergeLane, hx, hones, BitVec.getElem_extractLsb', BitVec.getLsbD_or, BitVec.getLsbD_and, BitVec.getLsbD_not,
    getLsbD_shiftLeft_lane _ hj hi, getLsbD_shiftLeft_lane _ hj hi, BitVec.getLsbD_allOnes]
  split_ifs with hjk
  · simp [hjk, hi]
  · simp [hjk, hbit]

end

/-- Settles O47: a byte is routed as its word is, read as that word's lane, and written as one write of the word it is
merged into. -/
theorem deviceByteLanes : Obligations.DeviceByteLanes := by
  intro s a v k hk hio hwf w
  obtain ⟨hroute, hword, hlane⟩ := ioWord_byte hwf.2.1 hio hk
  refine ⟨?read, mergeLane (a + BitVec.ofNat 32 k) w v, ?write, fun j hj => extractLsb'_mergeLane hlane w v hj⟩
  case read => rw [busReadByte, hroute, ioReadByte, hword, hlane, setWidth_ushiftRight_lane]
  case write => rw [busWriteByte, hroute, ioWriteByte, hword]

/-! ### `allocate_heap` (R175, D21) -/

/-- The one multiple of 4 from `n` up to `n + 3` is `n` rounded up. -/
theorem eq_roundUp4 {n m : Nat} (hle : n ≤ m) (hlt : m < n + 4) (hmod : m % 4 = 0) : m = roundUp4 n := by
  rw [roundUp4]
  omega

/-- With room below SP the call answers the old HP and moves HP past the block. -/
theorem allocateHeap_of_room {n : Nat} {s : State} (h : s.hp.toNat + roundUp4 n < s.sp.toNat) :
    allocateHeap n s = .next (s.hp, s.setHp (BitVec.ofNat 32 (s.hp.toNat + roundUp4 n))) := by
  rw [allocateHeap, if_neg (Nat.not_le.mpr h), BitVec.ofNat_add, BitVec.ofNat_toNat, BitVec.setWidth_eq]

/-- Settles O48: the rounded size is what the statement says of it, and the sum that stays below SP is a word. -/
theorem allocateHeapResults : Obligations.AllocateHeapResults := by
  intro n m s hle hlt hmod
  obtain rfl := eq_roundUp4 hle hlt hmod
  refine ⟨fun hroom => ?success, fun hfull => if_pos hfull⟩
  have hhp : (BitVec.ofNat 32 (s.hp.toNat + roundUp4 n)).toNat = s.hp.toNat + roundUp4 n := by
    have hsp := s.sp.isLt
    rw [BitVec.toNat_ofNat, Nat.mod_eq_of_lt (by omega)]
  refine ⟨_, allocateHeap_of_room hroom, ⟨rfl, fun r hr => ?others⟩, hhp, hhp.trans_lt hroom, rfl, ?beyond⟩
  case others => exact State.reg?_setReg_other s (r := .hp) _ hr
  case beyond => exact ⟨rfl, rfl, rfl, rfl, rfl, rfl, rfl⟩

/-! ### The reset values by choice, and the first step (D16, D19, D31, R172) -/

/-- Settles O52: the values are fields of the reset state, and the first step meets the opcode byte 0 at PC, which no
instruction has (O8). -/
theorem resetChosenValues : Obligations.ResetChosenValues := by
  refine ⟨rfl, fun c => ⟨fun n => Vector.getElem_replicate n.isLt, rfl, fun _ => rfl, rfl, rfl, rfl, rfl⟩, ?step⟩
  have hwf : State.reset.cfg.wf := resetMeetsInvariant.2.1.config
  have hopcode : (0#8 : Byte) ∉ Config.catalogMap := fun h => (mem_catalogMap.mp h).1 rfl
  obtain ⟨-, -, hunknown⟩ := (stepStopsBeforeExecution State.reset).2 hwf rfl
  exact hunknown rfl (by decide) hopcode

end Sys2Proof.Machine
end

section
/-! PROOF. What a fault leaves of the CPU's state (R77, R143): most instructions fault with nothing of it changed, and
those that use the stack with SP where their push or pop left it. -/

namespace Sys2Proof.Machine

/-! ### The shared operations fault with the CPU's state as it was (R143) -/

section
variable {r s : State} (h : SameCpu r s)
include h

theorem readReg_leavesCpu (x : Reg) : (readReg x s).Ends (SameCpu r) fun _ => True := by
  refine ⟨fun _ _ => trivial, fun k hk => ?_⟩
  rw [(readReg_eq_fault.mp hk).2]
  exact h

theorem readRR_leavesCpu (rD rS : Reg) : (readRR rD rS s).Ends (SameCpu r) fun _ => True :=
  (readReg_leavesCpu h rD).bind fun _ _ => (readReg_leavesCpu h rS).bind fun _ _ => .ofNext trivial

theorem readRI_leavesCpu (rD : Reg) (imm : Word) : (readRI rD imm s).Ends (SameCpu r) fun _ => True :=
  (readReg_leavesCpu h rD).bind fun _ _ => .ofNext trivial

theorem commit_leavesCpu (x : Reg) (v : Word) (f : Flags) : (commit x v f s).Ends (SameCpu r) fun _ => True := by
  refine ⟨fun _ _ => trivial, fun k hk => ?_⟩
  rw [(commit_eq_fault.mp hk).2]
  exact h

theorem divInto_leavesCpu (x : Reg) (a b : Word) : (divInto x a b s).Ends (SameCpu r) fun _ => True := by
  unfold divInto
  split
  · exact .ofFault h
  · exact commit_leavesCpu h x _ _

theorem modInto_leavesCpu (x : Reg) (a b : Word) : (modInto x a b s).Ends (SameCpu r) fun _ => True := by
  unfold modInto
  split
  · exact .ofFault h
  · exact commit_leavesCpu h x _ _

theorem memRead_leavesCpu (a : Word) : (memRead a s).Ends (SameCpu r) fun p => SameCpu r p.2 := by
  refine ⟨fun p hp => ?_, fun k hk => ?_⟩
  · rw [(memRead_eq_next.mp hp).2]
    exact h.trans (.agentsAct s)
  · rw [memRead_left hk]
    exact h.trans (.agentsAct s)

theorem memWrite_leavesCpu (a v : Word) : (memWrite a v s).Ends (SameCpu r) fun _ => True :=
  ⟨fun _ _ => trivial, fun _ hk => h.trans (memWrite_left hk)⟩

theorem fillFrom_leavesCpu (dst val : Word) (i n : Nat) : (fillFrom dst val i n s).Ends (SameCpu r) fun _ => True :=
  ⟨fun _ _ => trivial, fun _ hk => h.trans (fillFrom_sameCpu.2 hk)⟩

theorem execMcpy_leavesCpu (rD rS : Reg) : (execMcpy rD rS s).Ends (SameCpu r) fun _ => True := by
  refine (readRR_leavesCpu h rD rS).bind fun p _ => ?_
  split
  · exact ⟨fun _ _ => trivial, fun _ hk => h.trans (copyDown_sameCpu.2 hk)⟩
  · exact ⟨fun _ _ => trivial, fun _ hk => h.trans (copyUp_sameCpu.2 hk)⟩

end

/-- An instruction that does not use the stack faults with the CPU's state as it was: by the operands it reads, and by
what it does last. -/
theorem exec_leavesCpu {i : Instr} (hi : movesSp i = false) (s : State) :
    Res.Ends (SameCpu s) (fun _ => True) (exec i s) := by
  have h := SameCpu.refl s
  cases i with
  | add | sub | mul | and | or | xor => exact (readRR_leavesCpu h _ _).bind fun _ _ => commit_leavesCpu h _ _ _
  | addi | subi | muli | andi | ori | xori => exact (readRI_leavesCpu h _ _).bind fun _ _ => commit_leavesCpu h _ _ _
  | div => exact (readRR_leavesCpu h _ _).bind fun _ _ => divInto_leavesCpu h _ _ _
  | divi => exact (readRI_leavesCpu h _ _).bind fun _ _ => divInto_leavesCpu h _ _ _
  | mod => exact (readRR_leavesCpu h _ _).bind fun _ _ => modInto_leavesCpu h _ _ _
  | modi => exact (readRI_leavesCpu h _ _).bind fun _ _ => modInto_leavesCpu h _ _ _
  | inc | dec | neg | not | shl | shr | mov =>
    exact (readReg_leavesCpu h _).bind fun _ _ => commit_leavesCpu h _ _ _
  | clr | loadi | movi => exact commit_leavesCpu h _ _ _
  | cmp | test => exact (readRR_leavesCpu h _ _).bind fun _ _ => .ofNext trivial
  | cmpi | testi => exact (readRI_leavesCpu h _ _).bind fun _ _ => .ofNext trivial
  | jmp | jz | je | jnz | jne | jn | jp | jg | jge | jl | jle | jc | jnc | ja | jae | jb | jbe | nop | hlt =>
    exact .ofNext trivial
  | load =>
    exact (readReg_leavesCpu h _).bind fun _ _ => (memRead_leavesCpu h _).bind fun _ hp => commit_leavesCpu hp _ _ _
  | store => exact (readRR_leavesCpu h _ _).bind fun _ _ => memWrite_leavesCpu h _ _
  | stori => exact (readReg_leavesCpu h _).bind fun _ _ => memWrite_leavesCpu h _ _
  | mset => exact (readRR_leavesCpu h _ _).bind fun _ _ => fillFrom_leavesCpu h _ _ _ _
  | mcpy => exact execMcpy_leavesCpu h _ _
  | call | ret | push | pop | syscall => cases hi

/-! ### What the instructions that use the stack raise -/

/-- A word read faults for its address alone, never for a register index (R36). -/
theorem memRead_ofIndex {a : Word} {s : State} {k : Fault} (h : memRead a s = .fault k) : k.ofIndex = false := by
  have hbyte : ∀ {a : Word} {s : State}, busReadByte a s = .fault k → k.ofIndex = false :=
    fun hb => busReadByte_eq_fault hb ▸ rfl
  rw [memRead_eq_fault] at h
  unfold busReadWord at h
  split at h
  · unfold busReadAligned at h
    split at h <;> cases h
    rfl
  · split at h
    · cases h
      rfl
    · unfold busReadBytes at h
      simp only [Res.bind_eq_fault] at h
      obtain h | ⟨_, -, h | ⟨_, -, h | ⟨_, -, h | ⟨_, -, h⟩⟩⟩⟩ := h
      case inr.inr.inr.inr => cases h
      all_goals exact hbyte h

/-- All POP can do when it faults: its read does, or it finds that its destination names no register (R136, D12). -/
theorem execPop_eq_fault {s : State} {rD : Reg} {f : Fault} (h : execPop rD s = .fault f) :
    memRead s.sp s = .fault f ∨
      f = .invalidRegister (rD.index s.cfg.aliases) (s.agentsAct.setSp (s.sp + 4#32)) := by
  obtain h | ⟨p, hp, h⟩ := Res.bind_eq_fault.mp h
  · exact .inl (pop_eq_fault.mp h)
  · right
    rw [(pop_eq_next.mp hp).2] at h
    exact (commit_eq_fault.mp h).2

/-- All SYSCALL can do when it faults: one of its own checks fails, its read of a table entry in ROM faults, or its push
does (R137). -/
theorem execSyscall_eq_fault {s : State} {f : Fault} (h : execSyscall s = .fault f) :
    (SameCpu s f.left ∧ f.ofPush = false) ∨
      (Bank.holds s.cfg .rom s.syscallEntryAt.toNat = true ∧ memRead s.syscallEntryAt s = .fault f) ∨
      push s.pc s.agentsAct = .fault f := by
  simp only [execSyscall] at h
  split at h
  next hrom =>
    obtain h | ⟨p, hp, h⟩ := Res.bind_eq_fault.mp h
    · exact .inr (.inl ⟨hrom, h⟩)
    · rw [(memRead_eq_next.mp hp).2] at h
      split_ifs at h
      · cases h
        exact .inl ⟨.agentsAct s, rfl⟩
      · cases h
        exact .inl ⟨.agentsAct s, rfl⟩
      · exact .inr (.inr (enter_eq_fault.mp h))
  next =>
    cases h
    exact .inl ⟨.refl s, rfl⟩

/-! ### SP by the kind of fault (R143) -/

/-- The fault `f` of `i` left registers, flags, halt bit and configuration of `s`, but for SP, which in a legal
configuration is what R143's table says. -/
def Fault.LeftBy (i : Instr) (s : State) (f : Fault) : Prop :=
  ∃ sp, SameCpu (s.setSp sp) f.left ∧ (s.cfg.wf → sp = spAfterFault i f s.sp)

section
variable {i : Instr} {s u : State} {f : Fault}

/-- A fault that left the CPU's state as it was, where the table says that SP stays. -/
theorem Fault.LeftBy.of_sameCpu (h : SameCpu s f.left) (hsp : spAfterFault i f s.sp = s.sp) : f.LeftBy i s :=
  ⟨s.sp, h, fun _ => hsp.symm⟩

/-- A push's fault, where the table says that SP is decremented. -/
theorem Fault.LeftBy.of_push {v : Word} (h : SameCpu s u) (hf : push v u = .fault f)
    (hsp : f.ofPush = true → spAfterFault i f s.sp = s.sp - 4#32) : f.LeftBy i s := by
  obtain ⟨hcpu, hpush⟩ := push_left hf
  rw [h.sp] at hcpu
  have hmoved : SameCpu (s.setSp (s.sp - 4#32)) (u.setSp (s.sp - 4#32)) :=
    ⟨h.regs, h.pc, rfl, h.hp, h.flags, h.halt, h.cfg⟩
  exact ⟨s.sp - 4#32, hmoved.trans hcpu, fun _ => (hsp hpush).symm⟩

theorem execPush_leftBy {rD : Reg} (h : execPush rD s = .fault f) : f.LeftBy (.push rD) s := by
  obtain h | ⟨v, -, h⟩ := Res.bind_eq_fault.mp h
  · rw [(readReg_eq_fault.mp h).2]
    exact .of_sameCpu (.refl s) rfl
  · exact .of_push (.refl s) h (fun hp => if_pos hp)

theorem execPop_leftBy {rD : Reg} (h : execPop rD s = .fault f) : f.LeftBy (.pop rD) s := by
  obtain h | rfl := execPop_eq_fault h
  · refine .of_sameCpu (memRead_left h ▸ .agentsAct s) (if_neg ?_)
    rw [memRead_ofIndex h]
    exact Bool.false_ne_true
  · exact ⟨s.sp + 4#32, ⟨rfl, rfl, rfl, rfl, rfl, rfl, rfl⟩, fun _ => rfl⟩

/-- In a legal configuration the read of a table entry in ROM never faults, so that SP moves only when the push has
begun. -/
theorem execSyscall_leftBy (h : execSyscall s = .fault f) : f.LeftBy .syscall s := by
  obtain ⟨hcpu, hown⟩ | ⟨hrom, hread⟩ | hpush := execSyscall_eq_fault h
  · refine .of_sameCpu hcpu (if_neg ?_)
    rw [hown]
    exact Bool.false_ne_true
  · refine ⟨s.sp, memRead_left hread ▸ .agentsAct s, fun hwf => ?_⟩
    have hmap : s.cfg.mapWf := hwf.2.1
    have hentry := (Bank.holds_rom hmap).mp hrom
    have hregions := region_ends s.cfg
    rw [memRead_bank hmap (syscallEntryAt_mod hmap) (by omega)] at hread
    cases hread
  · exact .of_push (.agentsAct s) hpush (fun hp => if_pos hp)

/-- Every instruction's fault: those that use the stack by what they do there, and the others with SP as it was. -/
theorem exec_leftBy (h : exec i s = .fault f) : f.LeftBy i s := by
  cases i with
  | call => exact .of_push (.refl s) (enter_eq_fault.mp h) (fun hp => if_pos hp)
  | ret => exact .of_sameCpu (memRead_left (leave_eq_fault.mp h) ▸ .agentsAct s) rfl
  | push => exact execPush_leftBy h
  | pop => exact execPop_leftBy h
  | syscall => exact execSyscall_leftBy h
  | _ => exact .of_sameCpu ((exec_leavesCpu rfl s).left f h) rfl

end

/-- Settles O59: what every instruction's fault left, field by field. -/
theorem faultLeavesRegistersAndFlags : Obligations.FaultLeavesRegistersAndFlags := by
  intro i s f hf
  obtain ⟨sp, hcpu, hsp⟩ := exec_leftBy hf
  exact ⟨hcpu.flags, hcpu.regs, hcpu.hp, hcpu.pc, hcpu.halt, hcpu.cfg, fun hwf => hcpu.sp.trans (hsp hwf)⟩

end Sys2Proof.Machine
end
